-- ==== Sys2Proof/Word.lean ====
section
/-! DEFINITION. Word types of the QRTone CORE: the 64-bit register word, the byte of a codeword,
and the binary64 encoding of `f64` values (rules R8, R9, R10). -/

namespace Sys2Proof

/-- A register or buffer word: every bus value is one 64-bit word (rules R9, R87). -/
abbrev Word := BitVec 64

/-- A codeword symbol, payload byte or permutation entry; also an element of GF(256) (rule R211). -/
abbrev Byte := BitVec 8

/-- An `f64` in its interchange encoding: bit 63 the sign, bits 62:52 the biased exponent,
bits 51:0 the fraction (rule R10). -/
abbrev F64 := BitVec 64

/-- A host bus address: a byte offset into the 4 MiB window (rule R80). -/
abbrev Addr := BitVec 22

end Sys2Proof
end

