-- ==== Sys2Proof/Config.lean ====
section
/-! DEFINITION. What this hardware fixes (rule R5), the named parameters of rules R6 and R80, and the free
values: what the spec leaves open and no definition here gives a value to. -/

namespace Sys2Proof.Config

/-- Parallel tone lanes per symbol window (rule R5). -/
def lanes : Nat := 2

/-- Candidate frequencies per lane (rule R5). -/
def slotsPerLane : Nat := 16

/-- Entries of the Frequency Table (rules R5, R147). -/
def numSlots : Nat := 32

/-- Largest payload length in bytes (rule R5). -/
def lMax : Nat := 223

/-- Largest parity length in bytes (rule R5). -/
def pMax : Nat := 32

/-- Capacity of the PAY, RXPAY, CW, ERAS and PERM buffers (rule R5). -/
def bufBytes : Nat := 255

/-- The field polynomial x^8 + x^4 + x^3 + x^2 + 1 of GF(256) (rules R5, R211). -/
def gfPoly : Nat := 0x11D

/-- The binary64 value nearest 2π (rule R5). -/
def twoPi : F64 := 0x401921FB54442D18#64

/-- Shuffle generator multiplier (rules R5, R240). -/
def lcgA : Nat := 1103515245

/-- Shuffle generator increment (rules R5, R240). -/
def lcgC : Nat := 12345

/-- Shuffle generator modulus (rules R5, R240). -/
def lcgM : Nat := 2 ^ 31

/-- The value of the ID register (rule R31). -/
def idValue : Word := 0x0000000151525443#64

/-- The default of the parameter WIN_MAX (rule R6). -/
def winMaxDefault : Nat := 65536

/-- The largest value the parameter WIN_MAX may take (rule R6). -/
def winMaxLimit : Nat := 131072

/-- The default of the parameter PLATFORM_BASE (rule R80; file 92 §7). -/
def platformBaseDefault : Nat := 0

/-- The bytes of the window the platform places at PLATFORM_BASE (rule R80). -/
def platformWindow : Nat := 2 ^ 22

/-- The parameter COS64 of rule R6: a total function binary64 → binary64 that no rule fixes.
FREE VALUE (log entry 4): no body, so a claim holds for every COS64. -/
opaque cos64 : F64 → F64

/-- The parameter SIN64 of rule R6. FREE VALUE (log entry 4), as `cos64`. -/
opaque sin64 : F64 → F64

/-- The binary64 operations of rule R10, as arguments of `freeNaN`. -/
inductive FloatOp
  | add | sub | mul | div | sqrt
  deriving DecidableEq, Repr

/-- Which NaN encoding an operation delivers on given operands: rule R10 says the result is a NaN and
states no sign and no fraction for it. FREE VALUE (log entry 5). -/
opaque freeNaN : FloatOp → F64 → F64 → F64

/-- What a host read of a buffer element that nothing has written returns (rule R364 (a)). FREE VALUE
(log entry 6): applied to the counter `State.freeEpoch` and to the address read. -/
opaque freeRead : Nat → Addr → Word

end Sys2Proof.Config

namespace Sys2Proof

/-- The named parameters a model takes as arguments and that are plain data (rules R6, R80; log entries 3, 11). -/
structure Params where
  /-- WIN_MAX: the capacity of the WIN and OBUF sample buffers (rule R6). -/
  winMax : Nat
  /-- PLATFORM_BASE: where the platform places the block's 4 MiB window (rule R80). -/
  platformBase : Nat
  deriving DecidableEq, Repr

/-- WIN_MAX lies in its range 1..131072 (rule R6); PLATFORM_BASE may be any address (rule R80). -/
abbrev Params.inRange (p : Params) : Prop := 1 ≤ p.winMax ∧ p.winMax ≤ Config.winMaxLimit

/-- The parameters at their defaults (rule R6; rule R80's is 0, file 92 §7). -/
def Params.default : Params := { winMax := Config.winMaxDefault, platformBase := Config.platformBaseDefault }

end Sys2Proof
end

