-- ==== Sys2Proof/Machine/Float64.lean ====
section
/-! DEFINITION. IEEE 754 binary64 arithmetic (rule R10): each operation computes the exact result on integers
and rounds it once, to nearest with ties to even; subnormals are kept and nothing is fused. -/

namespace Sys2Proof.Machine

/-- What an `f64` encoding stands for: a NaN, a signed infinity, or `(-1)^neg · m · 2^e`. -/
inductive FVal
  | nan
  | inf (neg : Bool)
  | fin (neg : Bool) (m : Nat) (e : Int)
  deriving DecidableEq, Repr

/-- The sign bit, bit 63 (rule R10). -/
def fSign (x : F64) : Bool := x.getLsbD 63

/-- The biased exponent, bits 62:52 (rule R10). -/
def fExpField (x : F64) : Nat := (x.extractLsb' 52 11).toNat

/-- The fraction, bits 51:0 (rule R10). -/
def fFraction (x : F64) : Nat := (x.extractLsb' 0 52).toNat

/-- The value of an encoding (rule R10). -/
def fUnpack (x : F64) : FVal :=
  if fExpField x = 2047 then
    if fFraction x = 0 then .inf (fSign x) else .nan
  else if fExpField x = 0 then .fin (fSign x) (fFraction x) (-1074)
  else .fin (fSign x) (2 ^ 52 + fFraction x) ((fExpField x : Int) - 1075)

/-- True of the NaN encodings. -/
def fIsNaN (x : F64) : Bool := decide (fExpField x = 2047) && decide (fFraction x ≠ 0)

/-- `finite(x)`: neither a NaN nor an infinity (rule R10). -/
def fFinite (x : F64) : Bool := decide (fExpField x ≠ 2047)

/-- The encoding with the given sign and magnitude bits 62:0. -/
def fPack (neg : Bool) (mag : Nat) : F64 := BitVec.ofNat 64 ((if neg then 2 ^ 63 else 0) + mag)

/-- The magnitude bits of an infinity. -/
def fInfMag : Nat := 2047 * 2 ^ 52

/-- The NaN an operation delivers: the free encoding where that is a NaN, so every NaN is possible and none is
chosen (log entry 5). -/
def fNaN (op : Config.FloatOp) (a b : F64) : F64 :=
  if fIsNaN (Config.freeNaN op a b) then Config.freeNaN op a b else 0x7FF8000000000000#64

/-- `m / 2^sh` rounded to nearest, ties to even, where `sticky` says the exact value is a little above `m`. -/
def roundShift (m sh : Nat) (sticky : Bool) : Nat :=
  let q := m / 2 ^ sh
  let r := 2 * (m % 2 ^ sh)
  if 2 ^ sh < r ∨ (r = 2 ^ sh ∧ (sticky = true ∨ q % 2 = 1)) then q + 1 else q

/-- The encoding nearest to `(-1)^neg · m · 2^e` (rule R10: to nearest, ties to even); `sticky` says the exact
value lies strictly between `m` and `m + 1` units, and then `m` has more than 54 bits. An overflow gives the
infinity. -/
def fRound (neg : Bool) (m : Nat) (e : Int) (sticky : Bool) : F64 :=
  if m = 0 then fPack neg 0
  else
    let q : Int := max (e + (Nat.log2 m : Int) - 52) (-1074)
    let mant : Nat := if q ≤ e then m * 2 ^ (e - q).toNat else roundShift m (q - e).toNat sticky
    fPack neg (min ((q + 1074).toNat * 2 ^ 52 + mant) fInfMag)

/-- An integer times a power of two, rounded; `zeroNeg` is the sign of an exact zero. -/
def fRoundInt (v : Int) (e : Int) (zeroNeg : Bool) : F64 :=
  if v = 0 then fPack zeroNeg 0 else fRound (decide (v < 0)) v.natAbs e false

/-- The integer `(-1)^neg · m`. -/
def signedMant (neg : Bool) (m : Nat) : Int := if neg then -(m : Int) else (m : Int)

/-- The exact sum of two finite values, rounded; a zero sum is negative only if both operands are. -/
def fAddFin (na : Bool) (ma : Nat) (ea : Int) (nb : Bool) (mb : Nat) (eb : Int) : F64 :=
  let e := min ea eb
  fRoundInt (signedMant na (ma * 2 ^ (ea - e).toNat) + signedMant nb (mb * 2 ^ (eb - e).toNat)) e (na && nb)

/-- The sum of two values, for the operation and operands that name its NaN. -/
def fAddVal (op : Config.FloatOp) (a b : F64) (va vb : FVal) : F64 :=
  match va, vb with
  | .nan, _ => fNaN op a b
  | _, .nan => fNaN op a b
  | .inf na, .inf nb => if na = nb then fPack na fInfMag else fNaN op a b
  | .inf na, .fin _ _ _ => fPack na fInfMag
  | .fin _ _ _, .inf nb => fPack nb fInfMag
  | .fin na ma ea, .fin nb mb eb => fAddFin na ma ea nb mb eb

/-- A value with its sign reversed. -/
def fNegVal : FVal → FVal
  | .nan => .nan
  | .inf n => .inf (!n)
  | .fin n m e => .fin (!n) m e

/-- `a + b` (rule R10). -/
def fAdd (a b : F64) : F64 := fAddVal .add a b (fUnpack a) (fUnpack b)

/-- `a - b` (rule R10). -/
def fSub (a b : F64) : F64 := fAddVal .sub a b (fUnpack a) (fNegVal (fUnpack b))

/-- `a * b` (rule R10). -/
def fMul (a b : F64) : F64 :=
  match fUnpack a, fUnpack b with
  | .nan, _ => fNaN .mul a b
  | _, .nan => fNaN .mul a b
  | .inf na, .inf nb => fPack (na != nb) fInfMag
  | .inf na, .fin nb mb _ => if mb = 0 then fNaN .mul a b else fPack (na != nb) fInfMag
  | .fin na ma _, .inf nb => if ma = 0 then fNaN .mul a b else fPack (na != nb) fInfMag
  | .fin na ma ea, .fin nb mb eb => fRound (na != nb) (ma * mb) (ea + eb) false

/-- The exact quotient of two finite nonzero values, rounded: 120 more bits than the divisor has, and whether
any remainder is left. -/
def fDivFin (neg : Bool) (ma : Nat) (ea : Int) (mb : Nat) (eb : Int) : F64 :=
  fRound neg (ma * 2 ^ 120 / mb) (ea - eb - 120) (decide (ma * 2 ^ 120 % mb ≠ 0))

/-- `a / b` (rule R10). -/
def fDiv (a b : F64) : F64 :=
  match fUnpack a, fUnpack b with
  | .nan, _ => fNaN .div a b
  | _, .nan => fNaN .div a b
  | .inf _, .inf _ => fNaN .div a b
  | .inf na, .fin nb _ _ => fPack (na != nb) fInfMag
  | .fin na _ _, .inf nb => fPack (na != nb) 0
  | .fin na ma ea, .fin nb mb eb =>
    if mb = 0 then (if ma = 0 then fNaN .div a b else fPack (na != nb) fInfMag)
    else fDivFin (na != nb) ma ea mb eb

/-- The largest `r` with `acc ≤ r`, `r < acc + 2^k` and `r² ≤ n`, found bit by bit from bit `k - 1` down. -/
def isqrtFrom (n : Nat) : Nat → Nat → Nat
  | 0, acc => acc
  | k + 1, acc => if (acc + 2 ^ k) * (acc + 2 ^ k) ≤ n then isqrtFrom n k (acc + 2 ^ k) else isqrtFrom n k acc

/-- The integer square root of a number below 2^176. -/
def isqrt (n : Nat) : Nat := isqrtFrom n 88 0

/-- The exact square root of a finite positive value, rounded: the mantissa is scaled so that the exponent is
even and the root has more than 54 bits. -/
def fSqrtFin (m : Nat) (e : Int) : F64 :=
  let k : Nat := if e % 2 = 0 then 120 else 121
  let n := m * 2 ^ k
  let r := isqrt n
  fRound false r ((e - k) / 2) (decide (r * r ≠ n))

/-- `sqrt(a)` (rule R10). -/
def fSqrt (a : F64) : F64 :=
  match fUnpack a with
  | .nan => fNaN .sqrt a 0
  | .inf n => if n then fNaN .sqrt a 0 else a
  | .fin n m e => if m = 0 then a else if n then fNaN .sqrt a 0 else fSqrtFin m e

/-- A number that orders the encodings other than NaN as their values are ordered; both zeros have key 0. -/
def fKey (x : F64) : Int := signedMant (fSign x) (x.extractLsb' 0 63).toNat

/-- `a < b`: false when either is a NaN (rule R10). -/
def fLt (a b : F64) : Bool := !fIsNaN a && !fIsNaN b && decide (fKey a < fKey b)

/-- `a <= b`: false when either is a NaN (rule R10). -/
def fLe (a b : F64) : Bool := !fIsNaN a && !fIsNaN b && decide (fKey a ≤ fKey b)

/-- `a > b` (rule R10). -/
def fGt (a b : F64) : Bool := fLt b a

/-- `a >= b` (rule R10). -/
def fGe (a b : F64) : Bool := fLe b a

/-- `a == b`: false when either is a NaN, and `+0.0 == -0.0` (rule R10). -/
def fEq (a b : F64) : Bool := !fIsNaN a && !fIsNaN b && decide (fKey a = fKey b)

/-- `float(k)`: exact for `k < 2^53` (rule R10). -/
def fOfNat (k : Nat) : F64 := fRound false k 0 false

/-- `+0.0`. -/
def fZero : F64 := 0x0000000000000000#64

/-- `0.5`. -/
def fHalf : F64 := 0x3FE0000000000000#64

/-- `1.0`. -/
def fOne : F64 := 0x3FF0000000000000#64

/-- `2.0`. -/
def fTwo : F64 := 0x4000000000000000#64

/-- `15.0`. -/
def fFifteen : F64 := 0x402E000000000000#64

/-- `floor(x + 1/2)` on the exact value of a finite non-negative `x` (rule R143); 0 for any other. -/
def fRoundHalfUp (x : F64) : Nat :=
  match fUnpack x with
  | .nan => 0
  | .inf _ => 0
  | .fin n m e =>
    if n then 0
    else if 0 ≤ e then m * 2 ^ e.toNat
    else (2 * m + 2 ^ (-e).toNat) / 2 ^ ((-e).toNat + 1)

end Sys2Proof.Machine
end

