-- ==== Sys2Proof/Syntax.lean ====
section
/-! DEFINITION. The commands of the QRTone CORE, one constructor per row of the opcode map (rule R113). -/

namespace Sys2Proof

/-- A command. An immediate is the natural number of rule R112; which numbers the 16-bit field can hold
is the business of `Instr.wellFormed`. -/
inductive Instr
  /-- Does nothing (rule R140). -/
  | nop
  /-- Validates and captures the configuration registers (rule R142). -/
  | config
  /-- Resets the session (rule R301). -/
  | sreset
  /-- Processes one window; `offset` is the mode flag F: true for `feed.o` (rule R303). -/
  | feed (offset : Bool)
  /-- Produces window `k` of a frame (rule R284). -/
  | synth (k : Nat)
  /-- Reed-Solomon encode (rule R216). -/
  | rsenc
  /-- Reed-Solomon decode (rule R219). -/
  | rsdec
  /-- Interleave CW and ERAS (rule R243). -/
  | ilv
  /-- De-interleave CW and ERAS (rule R244). -/
  | dilv
  /-- Power at the frequency in ARG_FREQ (rule R173). -/
  | gpwr
  /-- Power at table slot `s` (rule R174). -/
  | gpwrs (s : Nat)
  /-- Root mean square of the window (rule R175). -/
  | rms
  /-- Demodulates one window (rule R196). -/
  | detect
  /-- Maps symbol `v` to its slot pair (rule R195). -/
  | map (v : Nat)
  deriving DecidableEq, Repr

end Sys2Proof
end

