-- ==== Sys2Proof/WellFormed.lean ====
section
/-! DEFINITION. Which commands the assembler accepts: an operand fits the 16-bit IMM field (rule R117).
A well-formed operand may still be outside its command's semantic range; the command then raises E_RANGE
when it executes (rule R112). -/

namespace Sys2Proof

/-- The operand range the assembler accepts for the IMM field (rules R111, R117). -/
abbrev immFits (n : Nat) : Prop := n ≤ 65535

/-- Well-formed commands: each immediate operand fits its field (rule R117). -/
def Instr.wellFormed : Instr → Bool
  | .nop => true
  | .config => true
  | .sreset => true
  | .feed _ => true
  | .synth k => decide (immFits k)
  | .rsenc => true
  | .rsdec => true
  | .ilv => true
  | .dilv => true
  | .gpwr => true
  | .gpwrs s => decide (immFits s)
  | .rms => true
  | .detect => true
  | .map v => decide (immFits v)

end Sys2Proof
end

