-- ==== Sys2Proof/Decode.lean ====
section
/-! DEFINITION. The command encoding (file 30): the fields of a command word, the opcode map as a table of
masks and matches, the total decoder that rejects by name, and the encoder. -/

namespace Sys2Proof

/-- The opcode field OP, bits 7:0 (rule R111). -/
def fieldOp (v : Word) : BitVec 8 := v.extractLsb' 0 8

/-- The mode flag F, bit 8 (rule R111). -/
def fieldF (v : Word) : Bool := v.getLsbD 8

/-- The reserved field RSV0, bits 15:9 (rule R111). -/
def fieldRsv0 (v : Word) : BitVec 7 := v.extractLsb' 9 7

/-- The immediate, bits 31:16, as the natural number of rule R112. -/
def fieldImm (v : Word) : Nat := (v.extractLsb' 16 16).toNat

/-- The reserved field RSVH, bits 63:32 (rule R111). -/
def fieldRsvh (v : Word) : BitVec 32 := v.extractLsb' 32 32

/-- One row of the opcode map of rule R113: its mask, its match, and the command its operand fields give. -/
structure OpRow where
  mnemonic : String
  mask : Word
  pattern : Word
  build : Word → Instr

/-- The opcode map (rule R113), in the table's order. -/
def opRows : List OpRow :=
  [ ⟨"NOP", 0xFFFFFFFFFFFFFFFF#64, 0x0#64, fun _ => .nop⟩,
    ⟨"CONFIG", 0xFFFFFFFFFFFFFFFF#64, 0x1#64, fun _ => .config⟩,
    ⟨"SRESET", 0xFFFFFFFFFFFFFFFF#64, 0x2#64, fun _ => .sreset⟩,
    ⟨"FEED", 0xFFFFFFFFFFFFFEFF#64, 0x3#64, fun v => .feed (fieldF v)⟩,
    ⟨"SYNTH", 0xFFFFFFFF0000FFFF#64, 0x4#64, fun v => .synth (fieldImm v)⟩,
    ⟨"RSENC", 0xFFFFFFFFFFFFFFFF#64, 0x5#64, fun _ => .rsenc⟩,
    ⟨"RSDEC", 0xFFFFFFFFFFFFFFFF#64, 0x6#64, fun _ => .rsdec⟩ ] ++
  [ ⟨"ILV", 0xFFFFFFFFFFFFFFFF#64, 0x7#64, fun _ => .ilv⟩,
    ⟨"DILV", 0xFFFFFFFFFFFFFFFF#64, 0x8#64, fun _ => .dilv⟩,
    ⟨"GPWR", 0xFFFFFFFFFFFFFFFF#64, 0x9#64, fun _ => .gpwr⟩,
    ⟨"GPWRS", 0xFFFFFFFF0000FFFF#64, 0x109#64, fun v => .gpwrs (fieldImm v)⟩,
    ⟨"RMS", 0xFFFFFFFFFFFFFFFF#64, 0xA#64, fun _ => .rms⟩,
    ⟨"DETECT", 0xFFFFFFFFFFFFFFFF#64, 0xB#64, fun _ => .detect⟩,
    ⟨"MAP", 0xFFFFFFFF0000FFFF#64, 0xC#64, fun v => .map (fieldImm v)⟩ ]

/-- A word selects a row when its masked bits equal the row's match (rule R110). -/
def OpRow.selects (r : OpRow) (v : Word) : Bool := v &&& r.mask == r.pattern

/-- Why a word is illegal: the cases (a) to (d) of rule R114. -/
inductive IllegalWord
  /-- (a) OP in 0x0D to 0xFF. -/
  | reservedOpcode
  /-- (b) a 1 in RSVH or RSV0. -/
  | reservedBits
  /-- (c) F = 1 with an OP that does not use it. -/
  | strayMode
  /-- (d) IMM ≠ 0 with an OP that does not use it. -/
  | strayImmediate
  /-- Not one 64-bit word: every command is exactly one (rule R116). -/
  | notOneWord
  deriving DecidableEq, Repr

/-- The case of rule R114 a word that matches no row falls under; a word under several is named by the
first of (a), (b), (c), (d). -/
def illegalReason (v : Word) : IllegalWord :=
  if 0x0D ≤ (fieldOp v).toNat then .reservedOpcode
  else if fieldRsvh v ≠ 0 ∨ fieldRsv0 v ≠ 0 then .reservedBits
  else if fieldF v ∧ fieldOp v ≠ 0x03#8 ∧ fieldOp v ≠ 0x09#8 then .strayMode
  else .strayImmediate

/-- The decoder: the command of the row a word selects, or the reason it is illegal (rules R110, R114).
It is total: every 64-bit word is exactly one of the two. -/
def decode (v : Word) : Except IllegalWord Instr :=
  match opRows.find? (·.selects v) with
  | some r => .ok (r.build v)
  | none => .error (illegalReason v)

/-- Byte lane `k` of a word: bits `8k+7` to `8k` (rule R87). -/
def Word.lane (v : Word) (k : Nat) : Byte := v.extractLsb' (8 * k) 8

/-- The word eight bytes hold, byte 0 at bits 7:0 (rule R87). -/
def wordOfBytes (b0 b1 b2 b3 b4 b5 b6 b7 : Byte) : Word :=
  b7 ++ b6 ++ b5 ++ b4 ++ b3 ++ b2 ++ b1 ++ b0

/-- The eight bytes of a word in the order of their addresses (rule R87). -/
def bytesOfWord (v : Word) : List Byte := (List.range 8).map v.lane

/-- Decoding from bytes in address order: exactly eight of them make a command (rules R87, R116). -/
def decodeBytes : List Byte → Except IllegalWord Instr
  | [b0, b1, b2, b3, b4, b5, b6, b7] => decode (wordOfBytes b0 b1 b2 b3 b4 b5 b6 b7)
  | _ => .error .notOneWord

/-- The command word the bits `w` of an `nbits`-bit table entry stand for: the bits above `nbits` are 0. -/
def tableWord (nbits w : Nat) : Word := BitVec.ofNat 64 (w % 2 ^ nbits)

/-- The command the decoder reads from a table entry's bits, laid out as the bus lays them out. -/
def decodeTableWord (nbits w : Nat) : Option Instr :=
  match decodeBytes (bytesOfWord (tableWord nbits w)) with
  | .ok i => some i
  | .error _ => none

/-- A command word from its fields (rule R111); RSV0 and RSVH are 0. -/
def commandWord (op : BitVec 8) (f : Bool) (imm : Nat) : Word :=
  0#32 ++ BitVec.ofNat 16 imm ++ 0#7 ++ BitVec.ofBool f ++ op

/-- The encoder: the words of rule R117. -/
def encode : Instr → Word
  | .nop => commandWord 0x00#8 false 0
  | .config => commandWord 0x01#8 false 0
  | .sreset => commandWord 0x02#8 false 0
  | .feed offset => commandWord 0x03#8 offset 0
  | .synth k => commandWord 0x04#8 false k
  | .rsenc => commandWord 0x05#8 false 0
  | .rsdec => commandWord 0x06#8 false 0
  | .ilv => commandWord 0x07#8 false 0
  | .dilv => commandWord 0x08#8 false 0
  | .gpwr => commandWord 0x09#8 false 0
  | .gpwrs s => commandWord 0x09#8 true s
  | .rms => commandWord 0x0A#8 false 0
  | .detect => commandWord 0x0B#8 false 0
  | .map v => commandWord 0x0C#8 false v

end Sys2Proof
end

