-- ==== Sys2Proof/Machine/State.lean ====
section
/-! DEFINITION. The state of one CORE instance as plain data (file 10): the register block, the eight
buffers, the hidden state, and the model's own fields: the parameters, the host's pending bus accesses, the
data of the last bus read and the counter of free values. Also the reasons a step can stop, and the state
after reset. -/

namespace Sys2Proof.Machine

/-- ENGINE_STATE, STATUS bits 7:6 (rule R33). -/
inductive EngineState
  | idle | triggered | complete | failed
  deriving DecidableEq, Repr

/-- FEED_STATUS, STATUS bits 5:4 (rules R33, R308). -/
inductive FeedStatus
  | processing | messageComplete | messageFailed
  deriving DecidableEq, Repr

/-- TRIG_SUB, STATUS bit 8 (rule R33). -/
inductive TrigSub
  | searching | candidate
  deriving DecidableEq, Repr

/-- The errors a command can raise: codes 1 to 6 of rule R330. -/
inductive ErrCode
  | illegal | noCfg | config | winLen | payLen | range
  deriving DecidableEq, Repr

/-- RESULT, STATUS bits 3:0: the codes of rule R330. The reserved codes 8 to 15 are never written. -/
inductive ResultCode
  | ok
  | error (c : ErrCode)
  | decodeFail
  deriving DecidableEq, Repr

/-- The eight buffers (rule R43). -/
inductive Buf
  | freq | pay | rxpay | cw | eras | perm | win | obuf
  deriving DecidableEq, Repr

/-- The named registers of the register block (rules R31 to R41). -/
inductive Reg
  | id | cmd | status | err | irqEn | irqPend
  | cfgSampleRate | cfgFirstFreq | cfgRatio | cfgIncrement | cfgWordTime
  | cfgPayloadLen | cfgTrig | cfgSnr | cfgErasureRatio
  | drvWindowLen | drvParityLen | drvCodewordLen | drvFrameWindows | drvNumSlots | cfgErr | drvWinMax
  | argFreq | argAmplitude | argOffset | winLen | payLen
  | resPower | resRms | resSymbol | resDecode
  | sesOffset | sesTrigIndex | sesAccCount | sesCandOffset | sesDecode | sesLastSymbol
  deriving DecidableEq, Repr

/-- One event on the block's inputs (rules R82, R83, R90): a bus read or write of a stated width in bits at an
offset into the window, or the hardware reset, which is an event between two host accesses (rule R360). A write
that is not 64 bits wide is a bus error, so its data matters only at width 64. -/
inductive BusAccess
  | read (width : Nat) (addr : Addr)
  | write (width : Nat) (addr : Addr) (data : Word)
  | reset
  deriving DecidableEq, Repr

/-- One event as the host side issues it: an access at an address of the platform, where the window lies at
PLATFORM_BASE (rule R80; log entry 11), or the hardware reset. -/
inductive HostAccess
  | read (width : Nat) (addr : Nat)
  | write (width : Nat) (addr : Nat) (data : Word)
  | reset
  deriving DecidableEq, Repr

/-- Byte cells over the address space of rule R80, in canonical form: addresses strictly rising. An address
that is not listed has no value (rule R364). -/
abbrev Memory := List Host.Cell

/-- The configuration registers (rule R36). -/
structure CfgRegs where
  sampleRate : F64
  firstFreq : F64
  ratio : F64
  increment : F64
  wordTime : F64
  payloadLen : Word
  trig : Word
  snr : F64
  erasureRatio : F64
  deriving DecidableEq, Repr

/-- The stored derived registers (rule R37); DRV_NUM_SLOTS and DRV_WIN_MAX are constants. -/
structure DrvRegs where
  windowLen : Word
  parityLen : Word
  codewordLen : Word
  frameWindows : Word
  deriving DecidableEq, Repr

/-- The argument registers (rule R38). -/
structure ArgRegs where
  freq : F64
  amplitude : F64
  offset : Word
  winLen : Word
  payLen : Word
  deriving DecidableEq, Repr

/-- The result registers (rule R39). -/
structure ResRegs where
  power : F64
  rms : F64
  symbol : Word
  decode : Word
  deriving DecidableEq, Repr

/-- The session registers and the session fields of STATUS (rules R33, R41). -/
structure Session where
  engine : EngineState
  trigSub : TrigSub
  feedStatus : FeedStatus
  trigValid : Bool
  payloadValid : Bool
  offset : Word
  trigIndex : Word
  accCount : Word
  candOffset : Word
  decode : Word
  lastSymbol : Word
  deriving DecidableEq, Repr

/-- The active configuration, hidden state that only a successful CONFIG writes (rule R44). -/
structure ActiveConfig where
  fs : F64
  f0 : F64
  ratio : F64
  inc : F64
  tw : F64
  len : Word
  ta : Byte
  tb : Byte
  snr : F64
  er : F64
  deriving DecidableEq, Repr

/-- The whole state (rule R30). -/
structure State where
  /-- The parameters of rules R6 and R80 that are plain data (log entries 3, 11). -/
  params : Params
  /-- CMD: the last word written to it (rule R32). -/
  cmd : Word
  /-- STATUS.RESULT (rule R332). -/
  result : ResultCode
  /-- STATUS.CFG_VALID (rule R33). -/
  cfgValid : Bool
  /-- ERR bits 6:0 (rule R34). -/
  err : BitVec 7
  /-- IRQ_EN bits 3:0 (rule R35). -/
  irqEn : BitVec 4
  /-- IRQ_PEND bits 3:0 (rule R35). -/
  irqPend : BitVec 4
  cfg : CfgRegs
  drv : DrvRegs
  /-- CFG_ERR bits 7:0 (rule R37). -/
  cfgErr : Byte
  arg : ArgRegs
  res : ResRegs
  ses : Session
  /-- The stored Frequency Table (rules R43, R145). -/
  freq : Vector F64 32
  /-- The stored permutation (rules R43, R240). -/
  perm : Vector Byte 255
  /-- The stored received payload (rule R43). -/
  rxpay : Vector Byte 255
  /-- The WIN, OBUF, PAY, CW and ERAS buffers: what has been written since reset (rules R43, R364). -/
  mem : Memory
  active : ActiveConfig
  /-- The accumulator of symbol bytes (rule R44). -/
  acc : Vector Byte 255
  /-- The accumulator of erasure bits (rule R44). -/
  acce : Vector Bool 255
  /-- The accesses the host has issued and the block has not yet performed, first one first (log entry 1). -/
  hostQueue : List HostAccess
  /-- The word the bus returned at the last host read (log entry 2). -/
  busData : Word
  /-- The counter of free values: what an unwritten element reads as may change when it moves (log entry 6). -/
  freeEpoch : Nat
  deriving DecidableEq, Repr

/-- Why the machine stops with a fault. -/
inductive Fault
  /-- A command's rule reads element `index` of buffer `buf` (WIN, PAY, CW or ERAS) and nothing has written it
  since reset: rule R364 (b) leaves the outcome unspecified and says the model stops. Raised by FEED, GPWR,
  GPWRS, RMS, DETECT (WIN), RSENC, SYNTH (PAY), RSDEC, ILV, DILV (CW, ERAS). Safe: the hardware goes on with
  unknown contents. -/
  | unwrittenElement (buf : Buf) (index : Nat)
  deriving DecidableEq, Repr

/-- Why a step has no meaning. -/
inductive Refusal
  /-- The command has no meaning in this model yet; only an arm of `exec` says so. Safe. No arm does. -/
  | notModelled (mnemonic : String)
  deriving DecidableEq, Repr

/-- The session fields after a session reset (rule R300). -/
def Session.initial : Session :=
  { engine := .idle, trigSub := .searching, feedStatus := .processing, trigValid := false,
    payloadValid := false, offset := 0, trigIndex := 0, accCount := 0, candOffset := 0, decode := 0,
    lastSymbol := 0 }

/-- The configuration registers after reset: zero but for CFG_ERASURE_RATIO, which is 4.0 (rule R361). -/
def CfgRegs.reset : CfgRegs :=
  { sampleRate := 0, firstFreq := 0, ratio := 0, increment := 0, wordTime := 0, payloadLen := 0, trig := 0,
    snr := 0, erasureRatio := 0x4010000000000000#64 }

/-- The derived registers while there is no valid configuration (rules R37, R142). -/
def DrvRegs.zero : DrvRegs := { windowLen := 0, parityLen := 0, codewordLen := 0, frameWindows := 0 }

/-- The argument registers after reset (rule R361). -/
def ArgRegs.reset : ArgRegs := { freq := 0, amplitude := 0, offset := 0, winLen := 0, payLen := 0 }

/-- The result registers after reset (rule R361). -/
def ResRegs.reset : ResRegs := { power := 0, rms := 0, symbol := 0, decode := 0 }

/-- The active configuration's stored words after reset: the spec leaves them unspecified and nothing reads
them while CFG_VALID is 0 (rule R361; log entry 8, DESIGN CHOICE). -/
def ActiveConfig.reset : ActiveConfig :=
  { fs := 0, f0 := 0, ratio := 0, inc := 0, tw := 0, len := 0, ta := 0, tb := 0, snr := 0, er := 0 }

/-- The machine right after reset (rule R361), with the parameters at their defaults, no access pending and nothing
stored in the five buffers. -/
def State.reset : State :=
  { params := Params.default
    cmd := 0
    result := .ok
    cfgValid := false
    err := 0
    irqEn := 0
    irqPend := 0
    cfg := CfgRegs.reset
    drv := DrvRegs.zero
    cfgErr := 0
    arg := ArgRegs.reset
    res := ResRegs.reset
    ses := Session.initial
    freq := Vector.replicate 32 0
    perm := Vector.replicate 255 0
    rxpay := Vector.replicate 255 0
    mem := []
    active := ActiveConfig.reset
    acc := Vector.replicate 255 0
    acce := Vector.replicate 255 false
    hostQueue := []
    busData := 0
    freeEpoch := 0 }

end Sys2Proof.Machine
end

