-- ==== Sys2Proof/Machine/Flags.lean ====
section
/-! DEFINITION. Result codes, the sticky error and interrupt flags, the irq line, and the words assembled from
fields: STATUS, the symbol word and the decode word (rules R33 to R35, R40, R330, R340, R341). -/

namespace Sys2Proof.Machine

/-- The code of an error (rule R330). -/
def ErrCode.code : ErrCode → BitVec 4
  | .illegal => 1
  | .noCfg => 2
  | .config => 3
  | .winLen => 4
  | .payLen => 5
  | .range => 6

/-- The ERR bit of an error: bit `c - 1` for code `c` (rules R34, R330). -/
def ErrCode.errBit : ErrCode → BitVec 7
  | .illegal => 0b0000001
  | .noCfg => 0b0000010
  | .config => 0b0000100
  | .winLen => 0b0001000
  | .payLen => 0b0010000
  | .range => 0b0100000

/-- ERR.BUS, bit 6 (rule R34). -/
def errBus : BitVec 7 := 0b1000000

/-- The code in STATUS.RESULT (rule R330). -/
def ResultCode.code : ResultCode → BitVec 4
  | .ok => 0
  | .error c => c.code
  | .decodeFail => 7

/-- IRQ bit 0, COMPLETE (rules R35, R340). -/
def irqComplete : BitVec 4 := 0b0001

/-- IRQ bit 1, FAILED (rules R35, R340). -/
def irqFailed : BitVec 4 := 0b0010

/-- IRQ bit 2, TRIGGER (rules R35, R340). -/
def irqTrigger : BitVec 4 := 0b0100

/-- IRQ bit 3, ERROR (rules R35, R340). -/
def irqError : BitVec 4 := 0b1000

/-- The level of the `irq` output (rule R341). -/
def State.irq (s : State) : Bool := s.irqPend &&& s.irqEn != 0

/-- ENGINE_STATE's encoding (rule R33). -/
def EngineState.code : EngineState → BitVec 2
  | .idle => 0
  | .triggered => 1
  | .complete => 2
  | .failed => 3

/-- FEED_STATUS's encoding (rule R33). -/
def FeedStatus.code : FeedStatus → BitVec 2
  | .processing => 0
  | .messageComplete => 1
  | .messageFailed => 2

/-- TRIG_SUB's encoding (rule R33). -/
def TrigSub.code : TrigSub → BitVec 1
  | .searching => 0
  | .candidate => 1

/-- The STATUS word (rule R33): from bit 63 down, reserved, IRQ, BUSY (always 0), TRIG_VALID, PAYLOAD_VALID,
CFG_VALID, TRIG_SUB, ENGINE_STATE, FEED_STATUS, RESULT. -/
def State.statusWord (s : State) : Word :=
  0#50 ++ BitVec.ofBool s.irq ++ 0#1 ++ BitVec.ofBool s.ses.trigValid ++ BitVec.ofBool s.ses.payloadValid
    ++ BitVec.ofBool s.cfgValid ++ s.ses.trigSub.code ++ s.ses.engine.code ++ s.ses.feedStatus.code
    ++ s.result.code

/-- A demodulated or mapped symbol: the fields of the symbol word (rule R40). -/
structure Symbol where
  value : Byte
  erasure : Bool
  slot0 : Byte
  slot1 : Byte
  deriving DecidableEq, Repr

/-- The symbol word (rule R40). -/
def Symbol.word (y : Symbol) : Word :=
  0#32 ++ y.slot1 ++ y.slot0 ++ 0#7 ++ BitVec.ofBool y.erasure ++ y.value

/-- What RsDecode returns (rule R215). -/
inductive RsResult
  | success (message : List Byte) (errors erasures : Nat)
  | failure (erasures : Nat)
  deriving DecidableEq, Repr

/-- The decode word of a decoder's result (rules R40, R218): on a failure ERRORS is 0. -/
def RsResult.word : RsResult → Word
  | .success _ e n => 0#47 ++ 1#1 ++ BitVec.ofNat 8 n ++ BitVec.ofNat 8 e
  | .failure n => 0#47 ++ 0#1 ++ BitVec.ofNat 8 n ++ 0#8

end Sys2Proof.Machine
end

