-- ==== Sys2Proof/Machine/Ops.lean ====
section
/-! DEFINITION. The shared operations: byte memory and the wider accesses built from it, the fixed tables, the
places of the buffers in the address map, reading operands from a buffer, and the three ways a command or an
access ends: done, raised error, bus error. -/

namespace Sys2Proof.Machine

/-- What every meaning answers. -/
abbrev Answer := Host.Outcome State Fault Refusal

/-! ### Byte memory -/

/-- The canonical form: addresses strictly rising. An unlisted address has no value, so no listed cell can repeat
what an unlisted address reads as (log entry 9). -/
abbrev Memory.wf (m : Memory) : Prop := m.Pairwise (fun x y => x.1 < y.1)

/-- The byte at an address, if one has been written since reset. -/
def Memory.read : Memory → Nat → Option Byte
  | [], _ => none
  | (a, b) :: rest, n => if a = n then some b else Memory.read rest n

/-- Writes one byte, keeping the canonical form. -/
def Memory.write : Memory → Nat → Byte → Memory
  | [], n, v => [(n, v)]
  | (a, b) :: rest, n, v =>
    if n < a then (n, v) :: (a, b) :: rest
    else if n = a then (n, v) :: rest
    else (a, b) :: Memory.write rest n v

/-- The aligned 64-bit word at an address, byte `k` at bits `8k+7` to `8k` (rule R87). -/
def Memory.readWord (m : Memory) (a : Nat) : Option Word := do
  let b0 ← m.read a
  let b1 ← m.read (a + 1)
  let b2 ← m.read (a + 2)
  let b3 ← m.read (a + 3)
  let b4 ← m.read (a + 4)
  let b5 ← m.read (a + 5)
  let b6 ← m.read (a + 6)
  let b7 ← m.read (a + 7)
  return wordOfBytes b0 b1 b2 b3 b4 b5 b6 b7

/-- Writes the lanes of `v` in `lanes` at their addresses. -/
def Memory.writeLanes (m : Memory) (a : Nat) (v : Word) (lanes : List Nat) : Memory :=
  lanes.foldl (fun m k => m.write (a + k) (v.lane k)) m

/-- Writes a 64-bit word, byte `k` at `a + k` (rule R87). -/
def Memory.writeWord (m : Memory) (a : Nat) (v : Word) : Memory := m.writeLanes a v (List.range 8)

/-- Writes words to consecutive buffer elements (rule R43: element `i` at `base + 8·i`). -/
def Memory.writeWords : Memory → Nat → List Word → Memory
  | m, _, [] => m
  | m, a, v :: vs => Memory.writeWords (m.writeWord a v) (a + 8) vs

/-- Writes bytes to consecutive byte elements: one byte at each element's word (rule R43). -/
def Memory.writeBytes : Memory → Nat → List Byte → Memory
  | m, _, [] => m
  | m, a, b :: bs => Memory.writeBytes (m.write a b) (a + 8) bs

/-! ### Fixed tables -/

/-- Element `i` of a fixed table, or `d` past its end. -/
def tableGet {α : Type} {n : Nat} (t : Vector α n) (i : Nat) (d : α) : α := t.toList.getD i d

/-- `X[0..len xs) <- xs`: the first elements replaced, the others kept. -/
def tableWrite {α : Type} {n : Nat} (t : Vector α n) (xs : List α) : Vector α n :=
  ⟨((xs ++ t.toList.drop xs.length).take n).toArray, by
    simp only [List.size_toArray, List.length_take, List.length_append, List.length_drop, Vector.length_toList]
    omega⟩

/-- `X[0..k)`. -/
def tableTake {α : Type} {n : Nat} (t : Vector α n) (k : Nat) : List α := t.toList.take k

/-! ### The address map -/

/-- The base address of a buffer (rule R43). -/
def Buf.base : Buf → Nat
  | .freq => 0x000800
  | .pay => 0x001000
  | .rxpay => 0x001800
  | .cw => 0x002000
  | .eras => 0x002800
  | .perm => 0x003000
  | .win => 0x100000
  | .obuf => 0x200000

/-- The bytes of the address range reserved for a buffer (rule R43). -/
def Buf.windowBytes : Buf → Nat
  | .freq => 0x800
  | .pay => 0x800
  | .rxpay => 0x800
  | .cw => 0x800
  | .eras => 0x800
  | .perm => 0x800
  | .win => 0x100000
  | .obuf => 0x100000

/-- The elements a buffer holds (rule R43). -/
def Buf.capacity (p : Params) : Buf → Nat
  | .freq => Config.numSlots
  | .pay => Config.bufBytes
  | .rxpay => Config.bufBytes
  | .cw => Config.bufBytes
  | .eras => Config.bufBytes
  | .perm => Config.bufBytes
  | .win => p.winMax
  | .obuf => p.winMax

/-- The address of element `i` (rule R43). -/
def Buf.elemAddr (b : Buf) (i : Nat) : Nat := b.base + 8 * i

/-! ### Operands from a buffer -/

/-- Sample `i` of WIN or OBUF, if it has been written since reset. -/
def State.sample (s : State) (b : Buf) (i : Nat) : Option F64 := s.mem.readWord (b.elemAddr i)

/-- Byte element `i` of PAY or CW, if it has been written since reset. -/
def State.byteElem (s : State) (b : Buf) (i : Nat) : Option Byte := s.mem.read (b.elemAddr i)

/-- Erasure flag `i`: bit 0 of the element (rule R43), if it has been written since reset. -/
def State.erasElem (s : State) (i : Nat) : Option Bool := (s.byteElem .eras i).map (·.getLsbD 0)

/-- The elements `i`, …, `i + k - 1`, or the index of the first that has no value. -/
def gather {α : Type} (f : Nat → Option α) : Nat → Nat → Except Nat (List α)
  | _, 0 => .ok []
  | i, k + 1 =>
    match f i with
    | none => .error i
    | some x =>
      match gather f (i + 1) k with
      | .error j => .error j
      | .ok xs => .ok (x :: xs)

/-- Goes on with elements 0 to `n - 1` of a buffer, or stops at the first that nothing has written since reset
(rule R364 (b)). -/
def withElems {α : Type} (b : Buf) (f : Nat → Option α) (n : Nat) (k : List α → Answer) : Answer :=
  match gather f 0 n with
  | .error i => .fault (.unwrittenElement b i)
  | .ok xs => k xs

/-- The byte an erasure flag is stored as. -/
def erasByte (e : Bool) : Byte := (BitVec.ofBool e).setWidth 8

/-- `OBUF[0..len xs) <- xs`. -/
def State.storeObuf (s : State) (xs : List F64) : State := { s with mem := s.mem.writeWords Buf.obuf.base xs }

/-- `B[0..len bs) <- bs` for a byte buffer (PAY or CW). -/
def State.storeBytes (s : State) (b : Buf) (bs : List Byte) : State :=
  { s with mem := s.mem.writeBytes b.base bs }

/-- `ERAS[0..len es) <- es`. -/
def State.storeEras (s : State) (es : List Bool) : State :=
  { s with mem := s.mem.writeBytes Buf.eras.base (es.map erasByte) }

/-! ### How a command and an access end -/

/-- `return`: the command ends with RESULT = OK (rules R12, R332). -/
def State.done (s : State) : State := { s with result := .ok }

/-- `return with RESULT = DECODE_FAIL` (rule R219): a status, no error. -/
def State.doneDecodeFail (s : State) : State := { s with result := .decodeFail }

/-- `raise E_X` (rule R333): RESULT, the sticky ERR bit and IRQ_PEND.ERROR, and nothing else. The block has no traps
(rule R342): this is what it has in place of taking an exception, and there is no return from one. -/
def State.raise (s : State) (c : ErrCode) : State :=
  { s with result := .error c, err := s.err ||| c.errBit, irqPend := s.irqPend ||| irqError }

/-- `BusError(addr)` (rules R86, R335): ERR.BUS and IRQ_PEND.ERROR, and nothing else. -/
def State.busError (s : State) : State :=
  { s with err := s.err ||| errBus, irqPend := s.irqPend ||| irqError }

/-- `require CFG_VALID` (rule R331): else E_NOCFG. -/
def State.requireCfg (s : State) (k : Answer) : Answer := if s.cfgValid then k else .next (s.raise .noCfg)

/-- The counter of free values moves on: an unwritten element may read otherwise from now on (log entry 6). -/
def State.advanceFree (s : State) : State := { s with freeEpoch := s.freeEpoch + 1 }

/-- The hardware reset input (rules R360, R361): every field of the block at its reset value. The parameters are fixed
for the block, and the host's own side of the bus is not part of it (log entry 13). -/
def State.hardReset (s : State) : State :=
  { State.reset with
    params := s.params
    hostQueue := s.hostQueue
    busData := s.busData
    freeEpoch := s.freeEpoch + 1 }

/-- `SessionReset()` (rule R300). -/
def State.sessionReset (s : State) : State := { s with ses := Session.initial }

end Sys2Proof.Machine
end

