-- ==== Sys2Proof/Machine/Operands.lean ====
section
/-! DEFINITION. Where operands live: the register block and its offsets, what a register or element reads as and
what a write to it does (rules R31 to R43), the window on the platform and the address map as a classification of
bus addresses (rule R80), and the stored values every command uses (rule R7). -/

namespace Sys2Proof.Machine

/-! ### The register block -/

/-- Byte offset of a register (rules R31 to R41). -/
def Reg.offset : Reg → Nat
  | .id => 0x000
  | .cmd => 0x008
  | .status => 0x010
  | .err => 0x018
  | .irqEn => 0x020
  | .irqPend => 0x028
  | .cfgSampleRate => 0x040
  | .cfgFirstFreq => 0x048
  | .cfgRatio => 0x050
  | .cfgIncrement => 0x058
  | .cfgWordTime => 0x060
  | .cfgPayloadLen => 0x068
  | .cfgTrig => 0x070
  | .cfgSnr => 0x078
  | .cfgErasureRatio => 0x080
  | .drvWindowLen => 0x088
  | .drvParityLen => 0x090
  | .drvCodewordLen => 0x098
  | .drvFrameWindows => 0x0A0
  | .drvNumSlots => 0x0A8
  | .cfgErr => 0x0B0
  | .drvWinMax => 0x0B8
  | .argFreq => 0x0C0
  | .argAmplitude => 0x0C8
  | .argOffset => 0x0D0
  | .winLen => 0x0D8
  | .payLen => 0x0E0
  | .resPower => 0x0E8
  | .resRms => 0x0F0
  | .resSymbol => 0x0F8
  | .resDecode => 0x100
  | .sesOffset => 0x108
  | .sesTrigIndex => 0x110
  | .sesAccCount => 0x118
  | .sesCandOffset => 0x120
  | .sesDecode => 0x128
  | .sesLastSymbol => 0x130

/-- Every register of the block, by offset. -/
def Reg.all : List Reg :=
  [.id, .cmd, .status, .err, .irqEn, .irqPend] ++
  [.cfgSampleRate, .cfgFirstFreq, .cfgRatio, .cfgIncrement, .cfgWordTime, .cfgPayloadLen, .cfgTrig, .cfgSnr,
    .cfgErasureRatio] ++
  [.drvWindowLen, .drvParityLen, .drvCodewordLen, .drvFrameWindows, .drvNumSlots, .cfgErr, .drvWinMax] ++
  [.argFreq, .argAmplitude, .argOffset, .winLen, .payLen, .resPower, .resRms, .resSymbol, .resDecode] ++
  [.sesOffset, .sesTrigIndex, .sesAccCount, .sesCandOffset, .sesDecode, .sesLastSymbol]

/-- The register at an offset; none at a reserved offset (rule R42). -/
def Reg.at? (offset : Nat) : Option Reg := Reg.all.find? (fun r => r.offset == offset)

/-- A derived register: it reads 0 while CFG_VALID is 0 (rule R37). -/
def State.derived (s : State) (v : Word) : Word := if s.cfgValid then v else 0

/-- What a host read of a register returns (rules R31 to R41). -/
def State.readReg (s : State) : Reg → Word
  | .id => Config.idValue
  | .cmd => s.cmd
  | .status => s.statusWord
  | .err => s.err.setWidth 64
  | .irqEn => s.irqEn.setWidth 64
  | .irqPend => s.irqPend.setWidth 64
  | .cfgSampleRate => s.cfg.sampleRate
  | .cfgFirstFreq => s.cfg.firstFreq
  | .cfgRatio => s.cfg.ratio
  | .cfgIncrement => s.cfg.increment
  | .cfgWordTime => s.cfg.wordTime
  | .cfgPayloadLen => s.cfg.payloadLen
  | .cfgTrig => s.cfg.trig
  | .cfgSnr => s.cfg.snr
  | .cfgErasureRatio => s.cfg.erasureRatio
  | .drvWindowLen => s.derived s.drv.windowLen
  | .drvParityLen => s.derived s.drv.parityLen
  | .drvCodewordLen => s.derived s.drv.codewordLen
  | .drvFrameWindows => s.derived s.drv.frameWindows
  | .drvNumSlots => BitVec.ofNat 64 Config.numSlots
  | .cfgErr => s.cfgErr.setWidth 64
  | .drvWinMax => BitVec.ofNat 64 s.params.winMax
  | .argFreq => s.arg.freq
  | .argAmplitude => s.arg.amplitude
  | .argOffset => s.arg.offset
  | .winLen => s.arg.winLen
  | .payLen => s.arg.payLen
  | .resPower => s.res.power
  | .resRms => s.res.rms
  | .resSymbol => s.res.symbol
  | .resDecode => s.res.decode
  | .sesOffset => s.ses.offset
  | .sesTrigIndex => s.ses.trigIndex
  | .sesAccCount => s.ses.accCount
  | .sesCandOffset => s.ses.candOffset
  | .sesDecode => s.ses.decode
  | .sesLastSymbol => s.ses.lastSymbol

/-- What a host write to a register does, but for the command a write to CMD executes (rules R32, R85): RW registers
store all 64 bits, ERR and IRQ_PEND clear the bits written 1, IRQ_EN keeps bits 3:0, read-only ones ignore it. -/
def State.writeReg (s : State) (v : Word) : Reg → State
  | .id => s
  | .cmd => { s with cmd := v }
  | .status => s
  | .err => { s with err := s.err &&& ~~~(v.setWidth 7) }
  | .irqEn => { s with irqEn := v.setWidth 4 }
  | .irqPend => { s with irqPend := s.irqPend &&& ~~~(v.setWidth 4) }
  | .cfgSampleRate => { s with cfg := { s.cfg with sampleRate := v } }
  | .cfgFirstFreq => { s with cfg := { s.cfg with firstFreq := v } }
  | .cfgRatio => { s with cfg := { s.cfg with ratio := v } }
  | .cfgIncrement => { s with cfg := { s.cfg with increment := v } }
  | .cfgWordTime => { s with cfg := { s.cfg with wordTime := v } }
  | .cfgPayloadLen => { s with cfg := { s.cfg with payloadLen := v } }
  | .cfgTrig => { s with cfg := { s.cfg with trig := v } }
  | .cfgSnr => { s with cfg := { s.cfg with snr := v } }
  | .cfgErasureRatio => { s with cfg := { s.cfg with erasureRatio := v } }
  | .drvWindowLen => s
  | .drvParityLen => s
  | .drvCodewordLen => s
  | .drvFrameWindows => s
  | .drvNumSlots => s
  | .cfgErr => s
  | .drvWinMax => s
  | .argFreq => { s with arg := { s.arg with freq := v } }
  | .argAmplitude => { s with arg := { s.arg with amplitude := v } }
  | .argOffset => { s with arg := { s.arg with offset := v } }
  | .winLen => { s with arg := { s.arg with winLen := v } }
  | .payLen => { s with arg := { s.arg with payLen := v } }
  | .resPower => s
  | .resRms => s
  | .resSymbol => s
  | .resDecode => s
  | .sesOffset => s
  | .sesTrigIndex => s
  | .sesAccCount => s
  | .sesCandOffset => s
  | .sesDecode => s
  | .sesLastSymbol => s

/-! ### The stored values every command uses -/

/-- N, the window length (rules R7, R143). -/
def State.windowLen (s : State) : Nat := s.drv.windowLen.toNat

/-- P, the parity length (rules R7, R210). -/
def State.parity (s : State) : Nat := s.drv.parityLen.toNat

/-- NCW, the codeword length (rules R7, R210). -/
def State.ncw (s : State) : Nat := s.drv.codewordLen.toNat

/-- A_L, the payload length (rule R44). -/
def State.len (s : State) : Nat := s.active.len.toNat

/-- `FREQ[i]` as the commands use it (rule R145). -/
def State.slotFreq (s : State) (i : Nat) : F64 := tableGet s.freq i 0

/-- `PERM[0..NCW)` (rule R240). -/
def State.permList (s : State) : List Nat := (tableTake s.perm s.ncw).map BitVec.toNat

/-- M, the number of valid samples in WIN (rule R38). -/
def State.winCount (s : State) : Nat := s.arg.winLen.toNat

/-- `1 ≤ WIN_LEN ≤ WIN_MAX`, the check of the analysis commands (rule R331). -/
def State.winLenOk (s : State) : Bool := decide (1 ≤ s.winCount) && decide (s.winCount ≤ s.params.winMax)

/-! ### Buffer elements on the bus -/

/-- What a host read of element `i` of a buffer returns, where `a` is the address read (rule R43): beyond capacity 0;
FREQ and PERM only under a valid configuration; RXPAY only while a payload is valid; an element never written a free
value (rule R364 (a), log entry 6). -/
def State.readElem (s : State) (b : Buf) (i : Nat) (a : Addr) : Word :=
  if b.capacity s.params ≤ i then 0
  else
    match b with
    | .freq => if s.cfgValid then tableGet s.freq i 0 else 0
    | .perm => if s.cfgValid && decide (i < s.ncw) then (tableGet s.perm i 0).setWidth 64 else 0
    | .rxpay => if s.ses.payloadValid && decide (i < s.len) then (tableGet s.rxpay i 0).setWidth 64 else 0
    | .pay => ((s.byteElem .pay i).map (·.setWidth 64)).getD (Config.freeRead s.freeEpoch a)
    | .cw => ((s.byteElem .cw i).map (·.setWidth 64)).getD (Config.freeRead s.freeEpoch a)
    | .eras => ((s.erasElem i).map (fun e => (BitVec.ofBool e).setWidth 64)).getD (Config.freeRead s.freeEpoch a)
    | .win => (s.sample .win i).getD (Config.freeRead s.freeEpoch a)
    | .obuf => (s.sample .obuf i).getD (Config.freeRead s.freeEpoch a)

/-- What a host write of element `i` of a buffer does (rules R43, R85): PAY and CW keep bits 7:0, ERAS bit 0, WIN all
64; beyond capacity and to a read-only buffer it is ignored. -/
def State.writeElem (s : State) (b : Buf) (i : Nat) (v : Word) : State :=
  if b.capacity s.params ≤ i then s
  else
    match b with
    | .freq => s
    | .perm => s
    | .rxpay => s
    | .obuf => s
    | .pay => { s with mem := s.mem.write (Buf.elemAddr .pay i) (v.setWidth 8) }
    | .cw => { s with mem := s.mem.write (Buf.elemAddr .cw i) (v.setWidth 8) }
    | .eras => { s with mem := s.mem.write (Buf.elemAddr .eras i) (erasByte (v.getLsbD 0)) }
    | .win => { s with mem := s.mem.writeWord (Buf.elemAddr .win i) v }

/-! ### The window on the platform -/

/-- The platform address of an offset into the window (rule R80: every address of the spec is relative to
PLATFORM_BASE). -/
def Params.platformAddr (p : Params) (a : Addr) : Nat := p.platformBase + a.toNat

/-- The offset into the window a platform address names; none outside the window (rule R80). -/
def Params.offsetOf? (p : Params) (n : Nat) : Option Addr :=
  if p.platformBase ≤ n ∧ n < p.platformBase + Config.platformWindow then
    some (BitVec.ofNat 22 (n - p.platformBase))
  else none

/-- The event on the block's inputs that an event of the host side makes; none for an access outside the window, which
does not reach the block (rule R80; log entry 11). -/
def HostAccess.toBus (p : Params) : HostAccess → Option BusAccess
  | .read width n => (Params.offsetOf? p n).map (.read width)
  | .write width n v => (Params.offsetOf? p n).map (.write width · v)
  | .reset => some .reset

/-! ### The address map -/

/-- What a bus address names (rules R80, R84). -/
inductive Place
  /-- A named register. -/
  | register (r : Reg)
  /-- A reserved offset of the register block (rule R42). -/
  | reserved
  /-- Word `i` of a buffer's window; it may lie beyond the capacity (rule R43). -/
  | element (b : Buf) (i : Nat)
  /-- A misaligned or unmapped address: a bus error (rule R86). -/
  | busError
  deriving DecidableEq, Repr

/-- The buffers, in the order of the map of rule R80. -/
def Buf.all : List Buf := [.freq, .pay, .rxpay, .cw, .eras, .perm, .win, .obuf]

/-- An address lies in a buffer's window (rule R43). -/
def Buf.holds (b : Buf) (n : Nat) : Bool := decide (b.base ≤ n) && decide (n < b.base + b.windowBytes)

/-- The place of a bus address (rules R80, R84, R86). -/
def placeOf (a : Addr) : Place :=
  let n := a.toNat
  if n % 8 ≠ 0 then .busError
  else if n < 0x800 then
    match Reg.at? n with
    | some r => .register r
    | none => .reserved
  else
    match Buf.all.find? (·.holds n) with
    | some b => .element b ((n - b.base) / 8)
    | none => .busError

end Sys2Proof.Machine
end

