-- ==== Sys2Proof/Machine/Interleaver.lean ====
section
/-! DEFINITION. The symbol interleaver (file 44): the permutation, Apply and Unapply, and the commands ILV and DILV. -/

namespace Sys2Proof.Machine

/-- Exchanges two entries. -/
def swapEntries (p : List Nat) (i j : Nat) : List Nat := (p.set i (p.getD j 0)).set j (p.getD i 0)

/-- One step of the generator: `(LCG_A·s + LCG_C) mod LCG_M` (rules R5, R240). -/
def lcgNext (s : Nat) : Nat := (Config.lcgA * s + Config.lcgC) % Config.lcgM

/-- The shuffle loop for `i` down to 1 (rule R240). -/
def shuffleFrom : Nat → Nat → List Nat → List Nat
  | 0, _, p => p
  | i + 1, s, p => shuffleFrom i (lcgNext s) (swapEntries p (i + 1) (lcgNext s % (i + 2)))

/-- `BuildShuffle(n)`, seeded with the length (rule R240). -/
def buildShuffle (n : Nat) : List Nat := shuffleFrom (n - 1) n (List.range n)

/-- `Apply(perm, c)`: `y[i] <- c[perm[i]]` (rule R241). -/
def applyPerm {α : Type} (d : α) (perm : List Nat) (c : List α) : List α := perm.map (fun j => c.getD j d)

/-- `Unapply(perm, y)`: `c[perm[i]] <- y[i]`, for `i` ascending (rule R241). -/
def unapplyPerm {α : Type} (perm : List Nat) (y : List α) : List α :=
  (perm.zip y).foldl (fun c jv => c.set jv.1 jv.2) y

/-- ILV (rule R243): all inputs are read first, and CW and ERAS are permuted together. -/
def execIlv (s : State) : Answer :=
  s.requireCfg <|
    withElems .cw (s.byteElem .cw) s.ncw fun c =>
      withElems .eras s.erasElem s.ncw fun e =>
        .next ((s.storeBytes .cw (applyPerm 0 s.permList c)).storeEras (applyPerm false s.permList e)).done

/-- DILV (rule R244). -/
def execDilv (s : State) : Answer :=
  s.requireCfg <|
    withElems .cw (s.byteElem .cw) s.ncw fun y =>
      withElems .eras s.erasElem s.ncw fun e =>
        .next ((s.storeBytes .cw (unapplyPerm s.permList y)).storeEras (unapplyPerm s.permList e)).done

end Sys2Proof.Machine
end

