-- ==== Sys2Proof/Machine/GaloisField.lean ====
section
/-! DEFINITION. The field GF(256) (rule R211) and polynomials over it. Addition is XOR. -/

namespace Sys2Proof.Machine

/-- Multiplication by α = 0x02: a shift, and the field polynomial subtracted where it overflows (rule R211). -/
def gfDouble (a : Byte) : Byte :=
  BitVec.ofNat 8 (if 0x100 ≤ 2 * a.toNat then (2 * a.toNat) ^^^ Config.gfPoly else 2 * a.toNat)

/-- The sum of `a · α^k` over the `n` low bits `k` of `b`: polynomial multiplication, reduced at each step. -/
def gfMulFrom : Nat → Byte → Nat → Byte
  | 0, _, _ => 0
  | n + 1, a, b => (if b % 2 = 1 then a else 0) ^^^ gfMulFrom n (gfDouble a) (b / 2)

/-- `gmul`: polynomial multiplication over GF(2) reduced modulo GF_POLY (rule R211; log entry 14). -/
def gfMul (a b : Byte) : Byte := gfMulFrom 8 a b.toNat

/-- `EXP[i]`, the power α^i (rule R211). -/
def gfExp : Nat → Byte
  | 0 => 1
  | i + 1 => gfDouble (gfExp i)

/-- The product of the squares `a^2`, `a^4`, … over `n` squarings. -/
def gfInvFrom : Nat → Byte → Byte
  | 0, _ => 1
  | n + 1, a => gfMul (gfMul a a) (gfInvFrom n (gfMul a a))

/-- `ginv`: the inverse of a nonzero element, as `a^254 = a^2 · a^4 · … · a^128` (rule R211; log entry 14). -/
def gfInv (a : Byte) : Byte := gfInvFrom 7 a

/-- The least `i` with `EXP[i] = a` from `i` on, where `cur = EXP[i]`, over `n` candidates. -/
def gfLogFrom : Nat → Byte → Nat → Byte → Nat
  | 0, _, i, _ => i
  | n + 1, cur, i, a => if cur = a then i else gfLogFrom n (gfDouble cur) (i + 1) a

/-- `LOG[a]` for a nonzero `a` (rule R211). -/
def gfLog (a : Byte) : Nat := gfLogFrom 255 1 0 a

/-! Polynomials below are coefficient lists, lowest degree first, as in rule R217. -/

/-- Sum of two polynomials; the shorter is padded with zeros. -/
def polyAdd : List Byte → List Byte → List Byte
  | [], q => q
  | p, [] => p
  | a :: p, b :: q => (a ^^^ b) :: polyAdd p q

/-- A polynomial times a constant. -/
def polyScale (k : Byte) (p : List Byte) : List Byte := p.map (gfMul k)

/-- Product of two polynomials. -/
def polyMul : List Byte → List Byte → List Byte
  | [], _ => []
  | a :: p, q => polyAdd (polyScale a q) (0 :: polyMul p q)

/-- The value of a polynomial at a point. -/
def polyEval (p : List Byte) (x : Byte) : Byte := p.foldr (fun c acc => c ^^^ gfMul acc x) 0

/-- The value at `x` of the polynomial whose highest-degree coefficient comes first: `c(x)` of rule R213. -/
def polyEvalHigh (c : List Byte) (x : Byte) : Byte := c.foldl (fun acc k => gfMul acc x ^^^ k) 0

/-- A polynomial without its zero leading coefficients. -/
def polyTrim (p : List Byte) : List Byte := (p.reverse.dropWhile (fun c => c == 0)).reverse

/-- The degree of a nonzero polynomial. -/
def polyDegree (p : List Byte) : Nat := (polyTrim p).length - 1

/-- The formal derivative: in characteristic 2 it keeps the odd-degree terms (rule R217). -/
def polyDeriv : List Byte → List Byte
  | [] => []
  | _ :: [] => []
  | _ :: c :: p => c :: 0 :: polyDeriv p

end Sys2Proof.Machine
end

