-- ==== Sys2Proof/Machine/ReedSolomon.lean ====
section
/-! DEFINITION. The Reed-Solomon codec (file 43): code parameters, RsEncode, RsDecode, and the commands RSENC and
RSDEC. -/

namespace Sys2Proof.Machine

/-! ### Code parameters and encoding -/

/-- `ParityLen(L) = 2·t` with `t = min(16, max(1, ceil(L/4)))` (rule R210). -/
def parityLen (len : Nat) : Nat := 2 * min 16 (max 1 ((len + 3) / 4))

/-- Multiplies a polynomial, highest-degree coefficient first, by `(x - α^i)`. -/
def genTimesRoot (g : List Byte) (i : Nat) : List Byte :=
  List.zipWith (· ^^^ ·) (g ++ [0]) (0 :: polyScale (gfExp i) g)

/-- The generator polynomial `g_P`, coefficients from `x^P` down to `x^0` (rule R212). -/
def genPoly (p : Nat) : List Byte := (List.range p).foldl genTimesRoot [1]

/-- XORs a short list onto the front of a longer one. -/
def xorFront : List Byte → List Byte → List Byte
  | [], r => r
  | _, [] => []
  | a :: g, b :: r => (a ^^^ b) :: xorFront g r

/-- The division loop of RsEncode (rule R214): for each of the first `n` positions, the coefficient there times the
generator's lower coefficients is subtracted from the positions after it. What is left is the remainder. -/
def rsRemainder (gLow : List Byte) : Nat → List Byte → List Byte
  | 0, r => r
  | _ + 1, [] => []
  | n + 1, c :: r => rsRemainder gLow n (xorFront (polyScale c gLow) r)

/-- `RsEncode(m)`: the payload followed by the remainder of `m(x)·x^P` divided by `g_P(x)` (rule R214). -/
def rsEncode (p : Nat) (m : List Byte) : List Byte :=
  m ++ rsRemainder (genPoly p).tail m.length (m ++ List.replicate p 0)

/-- The syndromes `c(α^j)`, `j = 0..P-1` (rules R213, R217). -/
def syndromes (p : Nat) (c : List Byte) : List Byte := (List.range p).map (fun j => polyEvalHigh c (gfExp j))

/-! ### The decoding algorithm of rule R217, which returns the result rule R215 defines (log entry 10) -/

/-- The running state of the Berlekamp-Massey algorithm: the connection polynomial, the one before the last length
change with its discrepancy, the register length, the distance to that change, and the inputs seen, last first. -/
structure BmState where
  conn : List Byte
  prevConn : List Byte
  prevDisc : Byte
  len : Nat
  gap : Nat
  seen : List Byte
  deriving DecidableEq, Repr

/-- The state before the first input. -/
def bmInit : BmState := { conn := [1], prevConn := [1], prevDisc := 1, len := 0, gap := 1, seen := [] }

/-- The discrepancy at input `t`: `t + Σ_{i=1}^{len} conn[i]·(input i places back)`. -/
def bmDisc (b : BmState) (t : Byte) : Byte :=
  (List.zipWith gfMul (b.conn.tail.take b.len) b.seen).foldl (· ^^^ ·) t

/-- One input. -/
def bmStep (b : BmState) (t : Byte) : BmState :=
  let d := bmDisc b t
  let fixed := polyAdd b.conn (List.replicate b.gap 0 ++ polyScale (gfMul d (gfInv b.prevDisc)) b.prevConn)
  if d = 0 then { b with gap := b.gap + 1, seen := t :: b.seen }
  else if 2 * b.len ≤ b.seen.length then
    { conn := fixed, prevConn := b.conn, prevDisc := d, len := b.seen.length + 1 - b.len, gap := 1,
      seen := t :: b.seen }
  else { b with conn := fixed, gap := b.gap + 1, seen := t :: b.seen }

/-- `BerlekampMassey(t_0, t_1, …)`: the connection polynomial of the shortest register, lowest degree first. -/
def berlekampMassey (ts : List Byte) : List Byte := polyTrim (ts.foldl bmStep bmInit).conn

/-- The locator of position `i` of `n`: `X_i = α^(n-1-i)` (rule R213). -/
def locator (n i : Nat) : Byte := gfExp (n - 1 - i)

/-- The erasure locator `Γ(x) = Π_{i in E} (1 + X_i·x)` (rule R217). -/
def erasureLocator (n : Nat) (positions : List Nat) : List Byte :=
  positions.foldl (fun g i => polyMul g [1, locator n i]) [1]

/-- The positions whose flag is set. -/
def flagged (era : List Bool) : List Nat := (List.range era.length).filter (fun i => era.getD i false)

/-- The number of positions outside the erasures at which two words differ: `e(c)` of rule R215. -/
def errorsOutside (r : List Byte) (era : List Bool) (c : List Byte) : Nat :=
  ((List.range r.length).filter (fun i => !era.getD i false && (c.getD i 0 != r.getD i 0))).length

/-- The corrected word: at each position of `roots` Forney's value `X·Ω(X⁻¹)/Ψ'(X⁻¹)` is added (rule R217). -/
def forneyCorrect (n : Nat) (omega dpsi : List Byte) (roots : List Nat) (r : List Byte) : List Byte :=
  (List.range n).map fun i =>
    if roots.contains i then
      let x := locator n i
      let xi := gfInv x
      r.getD i 0 ^^^ gfMul (gfMul x (polyEval omega xi)) (gfInv (polyEval dpsi xi))
    else r.getD i 0

/-- The final checks of rule R217: a corrected word counts only if it is a codeword within the radius. -/
def rsAccept (len p s : Nat) (r : List Byte) (era : List Bool) (c : List Byte) : RsResult :=
  if (syndromes p c).any (fun y => y != 0) then .failure s
  else if p < 2 * errorsOutside r era c + s then .failure s
  else .success (c.take len) (errorsOutside r era c) s

/-- The steps of rule R217 from the error-and-erasure locator `psi` on. -/
def rsCorrect (len p s : Nat) (r : List Byte) (era : List Bool) (rz synd psi : List Byte) : RsResult :=
  let n := r.length
  let roots := (List.range n).filter (fun i => polyEval psi (gfInv (locator n i)) == 0)
  let omega := (polyMul synd psi).take p
  let dpsi := polyDeriv psi
  if roots.length ≠ polyDegree psi then .failure s
  else if roots.any (fun i => polyEval dpsi (gfInv (locator n i)) == 0) then .failure s
  else rsAccept len p s r era (forneyCorrect n omega dpsi roots rz)

/-- `RsDecode(r, E)` for payload length `len` and parity length `p`: the unique codeword within `2e + s ≤ P`, or
DecodeFailure (rule R215), by the algorithm of rule R217. -/
def rsDecode (len p : Nat) (r : List Byte) (era : List Bool) : RsResult :=
  let n := r.length
  let positions := flagged era
  let s := positions.length
  if p < s then .failure s
  else
    let rz := (List.range n).map (fun i => if era.getD i false then 0 else r.getD i 0)
    let synd := syndromes p rz
    let gamma := erasureLocator n positions
    let forney := (polyMul synd gamma).take p
    let lambda := berlekampMassey (forney.drop s)
    if p < 2 * polyDegree lambda + s then .failure s
    else rsCorrect len p s r era rz synd (polyMul lambda gamma)

/-! ### The commands -/

/-- RSENC (rule R216). -/
def execRsenc (s : State) : Answer :=
  s.requireCfg <|
    if s.arg.payLen ≠ s.active.len then .next (s.raise .payLen)
    else withElems .pay (s.byteElem .pay) s.len fun m => .next (s.storeBytes .cw (rsEncode s.parity m)).done

/-- The effect of RSDEC for each result of the decoder (rule R219). -/
def rsdecFinish (s : State) (res : RsResult) : State :=
  match res with
  | .success m e n =>
    State.done { s.storeBytes .pay m with res := { s.res with decode := (RsResult.success m e n).word } }
  | .failure n =>
    State.doneDecodeFail { s with res := { s.res with decode := (RsResult.failure n).word } }

/-- RSDEC (rule R219). -/
def execRsdec (s : State) : Answer :=
  s.requireCfg <|
    withElems .cw (s.byteElem .cw) s.ncw fun r =>
      withElems .eras s.erasElem s.ncw fun era =>
        .next (rsdecFinish s (rsDecode s.len s.parity r era))

end Sys2Proof.Machine
end

