-- ==== Sys2Proof/Machine/Configuration.lean ====
section
/-! DEFINITION. The configuration commands NOP and CONFIG (file 40). -/

namespace Sys2Proof.Machine

/-- NOP (rule R140). -/
def execNop (s : State) : Answer := .next s.done

/-- `x = fs · tw`, one binary64 multiplication (rule R143). -/
def windowProduct (c : CfgRegs) : F64 := fMul c.sampleRate c.wordTime

/-- `N = floor(x + 1/2)` on the exact value of x (rule R143). -/
def windowLenOf (c : CfgRegs) : Nat := fRoundHalfUp (windowProduct c)

/-- `finite(v) and v > 0` (rule R146). -/
def finitePositive (v : F64) : Bool := fFinite v && fGt v fZero

/-- The series selection: ratio 1 with a positive increment, or a ratio above 1 with a zero increment, both finite
(rule R144). -/
def seriesOk (c : CfgRegs) : Bool :=
  fFinite c.ratio && fFinite c.increment &&
    ((fEq c.ratio fOne && fGt c.increment fZero) || (fGt c.ratio fOne && fEq c.increment fZero))

/-- The geometric series from `f` on: one multiplication a step (rule R145). -/
def geometricFrom (ratio : F64) : Nat → F64 → List F64
  | 0, _ => []
  | n + 1, f => f :: geometricFrom ratio n (fMul f ratio)

/-- The Frequency Table (rule R145). -/
def freqTable (c : CfgRegs) : List F64 :=
  if fEq c.ratio fOne then
    (List.range Config.numSlots).map (fun i => fAdd c.firstFreq (fMul (fOfNat i) c.increment))
  else geometricFrom c.ratio Config.numSlots c.firstFreq

/-- Every entry finite, the sequence strictly increasing, and `FREQ[31] < fs · 0.5` (rule R145). -/
def freqTableOk (fs : F64) (t : List F64) : Bool :=
  t.all fFinite && (t.zip t.tail).all (fun p => fLt p.1 p.2) && fLt (t.getD 31 fZero) (fMul fs fHalf)

/-- TA of CFG_TRIG, bits 7:0 (rule R36). -/
def trigA (v : Word) : Byte := v.extractLsb' 0 8

/-- TB of CFG_TRIG, bits 15:8 (rule R36). -/
def trigB (v : Word) : Byte := v.extractLsb' 8 8

/-- CFG_TRIG names two distinct slots and nothing else (rule R146, code 8). -/
def trigOk (v : Word) : Bool :=
  decide (v.extractLsb' 16 48 = 0) && decide ((trigA v).toNat ≤ 31) && decide ((trigB v).toNat ≤ 31)
    && decide (trigA v ≠ trigB v)

/-- `Validate()`: the code of the first check that fails, 0 if none does (rule R146). -/
def validateCode (p : Params) (c : CfgRegs) : Byte :=
  if finitePositive c.sampleRate = false then 1
  else if finitePositive c.wordTime = false then 2
  else if fFinite (windowProduct c) = false ∨ windowLenOf c < 1 ∨ p.winMax < windowLenOf c then 3
  else if finitePositive c.firstFreq = false then 4
  else if seriesOk c = false then 5
  else if freqTableOk c.sampleRate (freqTable c) = false then 6
  else if c.payloadLen.toNat < 1 ∨ Config.lMax < c.payloadLen.toNat then 7
  else if trigOk c.trig = false then 8
  else if finitePositive c.snr = false then 9
  else if (fFinite c.erasureRatio && fGe c.erasureRatio fZero) = false then 10
  else 0

/-- The configuration CONFIG captures (rule R142). -/
def captureConfig (c : CfgRegs) : ActiveConfig :=
  { fs := c.sampleRate, f0 := c.firstFreq, ratio := c.ratio, inc := c.increment, tw := c.wordTime,
    len := c.payloadLen, ta := trigA c.trig, tb := trigB c.trig, snr := c.snr, er := c.erasureRatio }

/-- The derived registers CONFIG computes (rules R7, R142). -/
def derivedRegs (c : CfgRegs) : DrvRegs :=
  let l := c.payloadLen.toNat
  let p := parityLen l
  { windowLen := BitVec.ofNat 64 (windowLenOf c), parityLen := BitVec.ofNat 64 p,
    codewordLen := BitVec.ofNat 64 (l + p), frameWindows := BitVec.ofNat 64 (l + p + 2) }

/-- `PERM[0..A_L+P)` as bytes (rules R142, R240). -/
def permBytes (n : Nat) : List Byte := (buildShuffle n).map (BitVec.ofNat 8)

/-- The failure path of CONFIG (rule R142): its writes persist, and then it raises E_CONFIG. -/
def State.configFail (s : State) (code : Byte) : State :=
  State.raise (State.sessionReset { s with cfgValid := false, drv := DrvRegs.zero, cfgErr := code }) .config

/-- The success path of CONFIG (rule R142). -/
def State.configure (s : State) : State :=
  let l := s.cfg.payloadLen.toNat
  State.done (State.sessionReset
    { s with
      active := captureConfig s.cfg
      drv := derivedRegs s.cfg
      freq := tableWrite s.freq (freqTable s.cfg)
      perm := tableWrite s.perm (permBytes (l + parityLen l))
      cfgErr := 0
      cfgValid := true })

/-- CONFIG (rule R142). -/
def execConfig (s : State) : Answer :=
  if validateCode s.params s.cfg ≠ 0 then .next (s.configFail (validateCode s.params s.cfg)) else .next s.configure

end Sys2Proof.Machine
end

