-- ==== Sys2Proof/Machine/Spectral.lean ====
section
/-! DEFINITION. The Goertzel magnitude detector (file 41): Power, MeanSq, Rms, and the commands GPWR, GPWRS and RMS. -/

namespace Sys2Proof.Machine

/-- The angular step `(TWO_PI · f) / fs`, shared by the detector and the synthesizer (rules R171, R282). -/
def angStep (fs f : F64) : F64 := fDiv (fMul Config.twoPi f) fs

/-- One sample of the Goertzel recursion on `(s1, s2)`: `s0 <- (x + (c · s1)) - s2` (rule R171). -/
def goertzelStep (c : F64) (st : F64 × F64) (x : F64) : F64 × F64 :=
  (fSub (fAdd x (fMul c st.1)) st.2, st.1)

/-- `q <- ((s1 · s1) + (s2 · s2)) - ((c · s1) · s2)` (rule R171). -/
def goertzelQ (c : F64) (st : F64 × F64) : F64 :=
  fSub (fAdd (fMul st.1 st.1) (fMul st.2 st.2)) (fMul (fMul c st.1) st.2)

/-- A negative value becomes +0.0; a NaN is kept (rules R171, R261). -/
def clampNegative (q : F64) : F64 := if fLt q fZero then fZero else q

/-- Power for the recursion coefficient `c` (rule R171). -/
def powerOfCoef (c : F64) (x : List F64) : F64 :=
  let m := fOfNat x.length
  fDiv (fMul fTwo (clampNegative (goertzelQ c (x.foldl (goertzelStep c) (fZero, fZero))))) (fMul m m)

/-- `Power(x, fs, f)` (rule R171). -/
def power (x : List F64) (fs f : F64) : F64 := powerOfCoef (fMul fTwo (Config.cos64 (angStep fs f))) x

/-- `MeanSq(x)` (rule R172). -/
def meanSq (x : List F64) : F64 := fDiv (x.foldl (fun acc v => fAdd acc (fMul v v)) fZero) (fOfNat x.length)

/-- `Rms(x)` (rule R172). -/
def rmsOf (x : List F64) : F64 := fSqrt (meanSq x)

/-- `f` is finite and in the open interval (0, fs/2) (rule R173). -/
def gpwrFreqOk (fs f : F64) : Bool := fFinite f && fGt f fZero && fLt f (fMul fs fHalf)

/-- Ends a power command with its result (rules R173, R174). -/
def State.donePower (s : State) (p : F64) : State := State.done { s with res := { s.res with power := p } }

/-- GPWR (rule R173). -/
def execGpwr (s : State) : Answer :=
  s.requireCfg <|
    if s.winLenOk = false then .next (s.raise .winLen)
    else if gpwrFreqOk s.active.fs s.arg.freq = false then .next (s.raise .range)
    else withElems .win (s.sample .win) s.winCount fun x => .next (s.donePower (power x s.active.fs s.arg.freq))

/-- GPWRS (rule R174). -/
def execGpwrs (slot : Nat) (s : State) : Answer :=
  s.requireCfg <|
    if s.winLenOk = false then .next (s.raise .winLen)
    else if 31 < slot then .next (s.raise .range)
    else withElems .win (s.sample .win) s.winCount fun x => .next (s.donePower (power x s.active.fs (s.slotFreq slot)))

/-- RMS (rule R175): it needs no configuration. -/
def execRms (s : State) : Answer :=
  if s.winLenOk = false then .next (s.raise .winLen)
  else
    withElems .win (s.sample .win) s.winCount fun x =>
      .next (State.done { s with res := { s.res with rms := rmsOf x } })

end Sys2Proof.Machine
end

