-- ==== Sys2Proof/Machine/ToneCodec.lean ====
section
/-! DEFINITION. The tone symbol mapper (file 42): Map, Detect, and the commands MAP and DETECT. -/

namespace Sys2Proof.Machine

/-- `Map(v) = (v mod 16, 16 + (v div 16))` (rule R191). -/
def mapSlots (v : Nat) : Nat × Nat := (v % 16, 16 + v / 16)

/-- A symbol value as a symbol that is no erasure (rule R195). -/
def mapSymbol (v : Nat) : Symbol :=
  { value := BitVec.ofNat 8 v, erasure := false, slot0 := BitVec.ofNat 8 (mapSlots v).1,
    slot1 := BitVec.ofNat 8 (mapSlots v).2 }

/-- The winner among the powers of a lane: the lowest slot with the greatest power (rule R193). -/
def laneWinner (pw : List F64) : Nat :=
  (List.range' 1 15).foldl (fun w v => if fGt (pw.getD v fZero) (pw.getD w fZero) then v else w) 0

/-- The sum of the losing powers, in ascending order of slot (rule R194). -/
def losersSum (pw : List F64) (w : Nat) : F64 :=
  (List.range 16).foldl (fun rest v => if v = w then rest else fAdd rest (pw.getD v fZero)) fZero

/-- The mean losing power, raised to `bmin` (rule R194). -/
def laneBase (pw : List F64) (w : Nat) (bmin : F64) : F64 :=
  let base := fDiv (losersSum pw w) fFifteen
  if fLt base bmin then bmin else base

/-- A lane is reliable when its winning power is strictly greater than its floor (rule R194). -/
def laneReliable (pw : List F64) (bmin er : F64) : Bool :=
  fGt (pw.getD (laneWinner pw) fZero) (fMul er (laneBase pw (laneWinner pw) bmin))

/-- The symbol two lanes' powers give (rule R194). -/
def symbolOfLanes (pw0 pw1 : List F64) (bmin er : F64) : Symbol :=
  { value := BitVec.ofNat 8 (laneWinner pw0 + 16 * laneWinner pw1)
    erasure := !(laneReliable pw0 bmin er && laneReliable pw1 bmin er)
    slot0 := BitVec.ofNat 8 (laneWinner pw0)
    slot1 := BitVec.ofNat 8 (16 + laneWinner pw1) }

/-- The 16 powers of lane `j` (rules R190, R193). -/
def lanePowers (x : List F64) (fs : F64) (freq : Nat → F64) (j : Nat) : List F64 :=
  (List.range Config.slotsPerLane).map (fun v => power x fs (freq (Config.slotsPerLane * j + v)))

/-- `Detect(x)`, the demodulation of one window (rule R194). -/
def detectSymbol (x : List F64) (fs er : F64) (freq : Nat → F64) : Symbol :=
  symbolOfLanes (lanePowers x fs freq 0) (lanePowers x fs freq 1) (fDiv (meanSq x) (fOfNat x.length)) er

/-- `Detect(x)` under the active configuration. -/
def State.detect (s : State) (x : List F64) : Symbol := detectSymbol x s.active.fs s.active.er s.slotFreq

/-- DETECT (rule R196). -/
def execDetect (s : State) : Answer :=
  s.requireCfg <|
    if s.winLenOk = false then .next (s.raise .winLen)
    else
      withElems .win (s.sample .win) s.winCount fun x =>
        .next (State.done { s with res := { s.res with symbol := (s.detect x).word } })

/-- MAP (rule R195): it needs no configuration. -/
def execMap (v : Nat) (s : State) : Answer :=
  if 255 < v then .next (s.raise .range)
  else .next (State.done { s with res := { s.res with symbol := (mapSymbol v).word } })

end Sys2Proof.Machine
end

