-- ==== Sys2Proof/Machine/Trigger.lean ====
section
/-! DEFINITION. The synchronization correlator (file 45): the match test and the state machine. It has no command; it
runs inside FEED. -/

namespace Sys2Proof.Machine

/-- `TrigDecide(P, ms)` for threshold `snr` (rule R261). -/
def trigDecide (snr p ms : F64) : Bool :=
  fGt p fZero && fGe p (fMul snr (clampNegative (fSub ms p)))

/-- `TrigMatch(x, slot)` (rule R261). -/
def State.trigMatch (s : State) (x : List F64) (slot : Nat) : Bool :=
  trigDecide s.active.snr (power x s.active.fs (s.slotFreq slot)) (meanSq x)

/-- `TriggerStep` (rule R262) for a window that starts at stream index `start` and whose tests against TA and TB gave
`ma` and `mb`: the session after it, and the accepted index if the preamble is complete. -/
def triggerStep (ma mb : Bool) (start : Word) (u : Session) : Session × Option Word :=
  match u.trigSub with
  | .searching => if ma then ({ u with trigSub := .candidate, candOffset := start }, none) else (u, none)
  | .candidate =>
    if mb then ({ u with trigSub := .searching }, some u.candOffset)
    else if ma then ({ u with candOffset := start }, none)
    else ({ u with trigSub := .searching }, none)

end Sys2Proof.Machine
end

