-- ==== Sys2Proof/Machine/FeedEngine.lean ====
section
/-! DEFINITION. The windowed streaming frame controller (file 47): the commands FEED and SRESET. -/

namespace Sys2Proof.Machine

/-- SRESET (rule R301). -/
def execSreset (s : State) : Answer := .next s.sessionReset.done

/-- The previous result is consumed: COMPLETE or FAILED gives way to IDLE/SEARCHING (rules R302, R303). -/
def Session.consumed (u : Session) : Session :=
  match u.engine with
  | .idle => u
  | .triggered => u
  | .complete => { u with engine := .idle, trigSub := .searching }
  | .failed => { u with engine := .idle, trigSub := .searching }

/-- FEED while IDLE (rule R303): one step of the trigger detector; on acceptance the engine is TRIGGERED, the session
records the index, and IRQ_PEND.TRIGGER is set. The status is processing. -/
def feedIdle (ma mb : Bool) (start : Word) (s : State) : State :=
  match triggerStep ma mb start s.ses with
  | (u, none) => { s with ses := { u with feedStatus := .processing } }
  | (u, some idx) =>
    { s with
      ses := { u with
        engine := .triggered, trigIndex := idx, trigValid := true, accCount := 0, payloadValid := false,
        decode := 0, feedStatus := .processing }
      irqPend := s.irqPend ||| irqTrigger }

/-- The body symbol of a window goes into the accumulator, an erasure included (rule R303). -/
def feedAccumulate (y : Symbol) (s : State) : State :=
  { s with
    acc := s.acc.setIfInBounds s.ses.accCount.toNat y.value
    acce := s.acce.setIfInBounds s.ses.accCount.toNat y.erasure
    ses := { s.ses with lastSymbol := y.word, accCount := s.ses.accCount + 1, feedStatus := .processing } }

/-- The end of a body (rule R303): the accumulator de-interleaved and decoded. -/
def feedDecode (s : State) : RsResult :=
  rsDecode s.len s.parity (unapplyPerm s.permList (tableTake s.acc s.ncw))
    (unapplyPerm s.permList (tableTake s.acce s.ncw))

/-- What the decode of a body does (rule R303): message_complete with its payload, or message_failed. -/
def feedFinish (res : RsResult) (s : State) : State :=
  match res with
  | .success m e n =>
    { s with
      rxpay := tableWrite s.rxpay m
      ses := { s.ses with
        payloadValid := true, decode := (RsResult.success m e n).word, engine := .complete,
        feedStatus := .messageComplete }
      irqPend := s.irqPend ||| irqComplete }
  | .failure n =>
    { s with
      ses := { s.ses with
        decode := (RsResult.failure n).word, engine := .failed, feedStatus := .messageFailed }
      irqPend := s.irqPend ||| irqFailed }

/-- FEED while TRIGGERED, for the symbol its window demodulates to (rule R303). -/
def feedBody (y : Symbol) (s : State) : State :=
  let t := feedAccumulate y s
  if t.ses.accCount = t.drv.codewordLen then feedFinish (feedDecode t) t else t

/-- FEED's effect for its window `x` (rule R303). `start` is the stream index of the window: ARG_OFFSET when F = 1. -/
def feedWindow (offset : Bool) (x : List F64) (s : State) : State :=
  let start := if offset then s.arg.offset else s.ses.offset
  let t : State := { s with ses := s.ses.consumed }
  let r :=
    if t.ses.engine = .triggered then feedBody (s.detect x) t
    else feedIdle (s.trigMatch x s.active.ta.toNat) (s.trigMatch x s.active.tb.toNat) start t
  State.done { r with ses := { r.ses with offset := start + s.drv.windowLen } }

/-- FEED and FEED.o (rule R303). -/
def execFeed (offset : Bool) (s : State) : Answer :=
  s.requireCfg <|
    if s.arg.winLen ≠ s.drv.windowLen then .next (s.raise .winLen)
    else withElems .win (s.sample .win) s.windowLen fun x => .next (feedWindow offset x s)

end Sys2Proof.Machine
end

