-- ==== Sys2Proof/Machine/Synthesizer.lean ====
section
/-! DEFINITION. The waveform synthesizer (file 46) and the command SYNTH. -/

namespace Sys2Proof.Machine

/-- `A · SIN64(Step(f) · float(k))` (rule R282). -/
def toneSample (fs f a : F64) (k : Nat) : F64 := fMul a (Config.sin64 (fMul (angStep fs f) (fOfNat k)))

/-- `Tone1(f, A)` over `n` samples (rule R282). -/
def tone1 (fs f a : F64) (n : Nat) : List F64 := (List.range n).map (toneSample fs f a)

/-- `Tone2(fa, fb, A)` over `n` samples: each lane at half the amplitude (rule R282). -/
def tone2 (fs fa fb a : F64) (n : Nat) : List F64 :=
  (List.range n).map fun k => fAdd (toneSample fs fa (fMul a fHalf) k) (toneSample fs fb (fMul a fHalf) k)

/-- The interleaved codeword `Apply(PERM, RsEncode(m))` (rule R281). -/
def State.frameSymbols (s : State) (m : List Byte) : List Byte := applyPerm 0 s.permList (rsEncode s.parity m)

/-- The window of a body symbol (rule R281). -/
def State.symbolWindow (s : State) (y : Byte) : List F64 :=
  tone2 s.active.fs (s.slotFreq (mapSlots y.toNat).1) (s.slotFreq (mapSlots y.toNat).2) s.arg.amplitude s.windowLen

/-- The window of a preamble tone (rule R281). -/
def State.preambleWindow (s : State) (slot : Byte) : List F64 :=
  tone1 s.active.fs (s.slotFreq slot.toNat) s.arg.amplitude s.windowLen

/-- `finite(A) and A > 0.0` (rules R283, R284). -/
def amplitudeOk (a : F64) : Bool := fFinite a && fGt a fZero

/-- SYNTH (rule R284). -/
def execSynth (k : Nat) (s : State) : Answer :=
  s.requireCfg <|
    if s.arg.payLen ≠ s.active.len then .next (s.raise .payLen)
    else if s.len + s.parity + 2 ≤ k then .next (s.raise .range)
    else if amplitudeOk s.arg.amplitude = false then .next (s.raise .range)
    else if k = 0 then .next (s.storeObuf (s.preambleWindow s.active.ta)).done
    else if k = 1 then .next (s.storeObuf (s.preambleWindow s.active.tb)).done
    else
      withElems .pay (s.byteElem .pay) s.len fun m =>
        .next (s.storeObuf (s.symbolWindow ((s.frameSymbols m).getD (k - 2) 0))).done

end Sys2Proof.Machine
end

