-- ==== Sys2Proof/Machine/Dispatch.lean ====
section
/-! DEFINITION. The dispatch from a command to its meaning: one arm per constructor (rules R110, R113). -/

namespace Sys2Proof.Machine

def exec (i : Instr) (s : State) : Host.Outcome State Fault Refusal :=
  match i with
  | .nop => Sys2Proof.Machine.execNop s
  | .config => Sys2Proof.Machine.execConfig s
  | .sreset => Sys2Proof.Machine.execSreset s
  | .feed offset => Sys2Proof.Machine.execFeed offset s
  | .synth k => Sys2Proof.Machine.execSynth k s
  | .rsenc => Sys2Proof.Machine.execRsenc s
  | .rsdec => Sys2Proof.Machine.execRsdec s
  | .ilv => Sys2Proof.Machine.execIlv s
  | .dilv => Sys2Proof.Machine.execDilv s
  | .gpwr => Sys2Proof.Machine.execGpwr s
  | .gpwrs slot => Sys2Proof.Machine.execGpwrs slot s
  | .rms => Sys2Proof.Machine.execRms s
  | .detect => Sys2Proof.Machine.execDetect s
  | .map v => Sys2Proof.Machine.execMap v s

end Sys2Proof.Machine
end

