-- ==== Sys2Proof/Machine/Bus.lean ====
section
/-! DEFINITION. The host bus (file 20): reads, writes, the execution of a command word, and the one event a step
performs. -/

namespace Sys2Proof.Machine

/-- `Execute(v)`: the command the word decodes to, or E_ILLEGAL (rules R110, R114). -/
def execute (s : State) (v : Word) : Answer :=
  match decode v with
  | .ok i => exec i s
  | .error _ => .next (s.raise .illegal)

/-- `MemRead(addr, width)`: the state after the read and the word it returns (rules R84, R86). A read that is not 64
bits wide, misaligned or unmapped is a bus error and returns 0; any other changes no state. -/
def memRead (s : State) (width : Nat) (a : Addr) : State × Word :=
  if width ≠ 64 then (s.busError, 0)
  else
    match placeOf a with
    | .busError => (s.busError, 0)
    | .reserved => (s, 0)
    | .register r => (s, s.readReg r)
    | .element b i => (s, s.readElem b i a)

/-- `MemWrite(addr, width, v)` (rules R85, R86): a bus error performs nothing else; a write to CMD stores the word and
executes it; any other write has the effect of its register or element. -/
def memWrite (s : State) (width : Nat) (a : Addr) (v : Word) : Answer :=
  if width ≠ 64 then .next s.busError
  else
    match placeOf a with
    | .busError => .next s.busError
    | .reserved => .next s.advanceFree
    | .register r =>
      if r = .cmd then execute (s.advanceFree.writeReg v .cmd) v else .next (s.advanceFree.writeReg v r)
    | .element b i => .next (s.advanceFree.writeElem b i v)

/-- One event on the block's inputs (rules R82, R90, R360). -/
def perform (s : State) : BusAccess → Answer
  | .read width a => .next { (memRead s width a).1 with busData := (memRead s width a).2 }
  | .write width a v => memWrite s width a v
  | .reset => .next s.hardReset

/-- The next event of the host side: performed by the block when it is the hardware reset or an access in the window,
and without effect on the block otherwise (rule R80; log entry 11). -/
def performHost (s : State) (h : HostAccess) : Answer :=
  match h.toBus s.params with
  | some access => perform s access
  | none => .next s

/-- The bus address of the CMD register (rule R32). -/
def cmdAddr : Addr := 0x008#22

/-- The access that issues a command word: a 64-bit write to CMD (rules R32, R110). -/
def issue (v : Word) : BusAccess := .write 64 cmdAddr v

/-- The same as the host side issues it, at CMD's address on the platform (rule R80). -/
def issueAt (p : Params) (v : Word) : HostAccess := .write 64 (Params.platformAddr p cmdAddr) v

end Sys2Proof.Machine
end

