-- ==== Sys2Proof/Machine/Step.lean ====
section
/-! DEFINITION. One step: the block performs the next access the host has issued, a command included as a whole
(rules R80, R82, R90). With none pending it is idle and holds its state (rule R347). -/

namespace Sys2Proof.Machine

/-- One step (log entry 1). -/
def step (s : State) : Host.Outcome State Fault Refusal :=
  match s.hostQueue with
  | [] => .next s
  | access :: rest => performHost { s with hostQueue := rest } access

/-- The state in which the very next step writes the command word of a table entry to CMD and so runs it: the block
fetches nothing (rule R81), and a command arrives as a host write to CMD (rules R32, R46; log entry 1). -/
def State.withFetchWord (s : State) (nbits w : Nat) : State :=
  { s with hostQueue := issueAt s.params (tableWord nbits w) :: s.hostQueue }

end Sys2Proof.Machine
end

