-- ==== Sys2Proof/Safety.lean ====
section
/-! DEFINITION. The terms claims are stated in: which steps and runs are safe, which operands are present, the register
block's layout, the checks of each command in their order, the Reed-Solomon code as rules R213 and R215 define it, and the
invariant of the state. -/

namespace Sys2Proof.Machine

/-! ### Safe steps -/

/-- A step that neither faults nor refuses. -/
def StepSafe (s : State) : Prop := ∃ t, step s = .next t

/-- `k` steps, none of which faults or refuses. -/
def RunSafe (k : Nat) (s : State) : Prop := ∃ t, Host.Core.run Sys2Proof.core k s = .next t

/-- An answer with its next state changed by `g`; a fault or a refusal stays. -/
def mapState (g : State → State) : Answer → Answer
  | .next t => .next (g t)
  | .fault r => .fault r
  | .refused r => .refused r

/-! ### Operands present and their values -/

/-- The first `n` elements have been written since reset. -/
def Ready {α : Type} (f : Nat → Option α) (n : Nat) : Prop := ∀ i, i < n → (f i).isSome = true

/-- The values of the first `n` elements, `d` standing for one that has none. -/
def values {α : Type} (f : Nat → Option α) (d : α) (n : Nat) : List α := (List.range n).map (fun i => (f i).getD d)

/-- `WIN[0..n)` has been written. -/
abbrev State.winReady (s : State) (n : Nat) : Prop := Ready (s.sample .win) n

/-- `WIN[0..n)`. -/
abbrev State.window (s : State) (n : Nat) : List F64 := values (s.sample .win) fZero n

/-- `PAY[0..n)` has been written. -/
abbrev State.payReady (s : State) (n : Nat) : Prop := Ready (s.byteElem .pay) n

/-- `PAY[0..n)`. -/
abbrev State.payload (s : State) (n : Nat) : List Byte := values (s.byteElem .pay) 0 n

/-- `CW[0..n)` and `ERAS[0..n)` have been written. -/
abbrev State.cwReady (s : State) (n : Nat) : Prop := Ready (s.byteElem .cw) n ∧ Ready s.erasElem n

/-- `CW[0..n)`. -/
abbrev State.cwBytes (s : State) (n : Nat) : List Byte := values (s.byteElem .cw) 0 n

/-- `ERAS[0..n)`. -/
abbrev State.erasBits (s : State) (n : Nat) : List Bool := values s.erasElem false n

/-- Address `a` is the byte of one of the first `n` elements of a byte buffer. -/
def inByteElems (b : Buf) (n a : Nat) : Prop := ∃ i, i < n ∧ a = b.elemAddr i

/-- Address `a` is one of the bytes of the first `n` words of a buffer. -/
def inWords (b : Buf) (n a : Nat) : Prop := b.base ≤ a ∧ a < b.base + 8 * n

/-! ### The register block -/

/-- The named registers at their offsets, as rules R31 to R41 lay them out. -/
def registerMap : List (Nat × Reg) :=
  [(0x000, .id), (0x008, .cmd), (0x010, .status), (0x018, .err), (0x020, .irqEn), (0x028, .irqPend)] ++
  [(0x040, .cfgSampleRate), (0x048, .cfgFirstFreq), (0x050, .cfgRatio), (0x058, .cfgIncrement), (0x060, .cfgWordTime),
    (0x068, .cfgPayloadLen), (0x070, .cfgTrig), (0x078, .cfgSnr), (0x080, .cfgErasureRatio)] ++
  [(0x088, .drvWindowLen), (0x090, .drvParityLen), (0x098, .drvCodewordLen), (0x0A0, .drvFrameWindows),
    (0x0A8, .drvNumSlots), (0x0B0, .cfgErr), (0x0B8, .drvWinMax)] ++
  [(0x0C0, .argFreq), (0x0C8, .argAmplitude), (0x0D0, .argOffset), (0x0D8, .winLen), (0x0E0, .payLen)] ++
  [(0x0E8, .resPower), (0x0F0, .resRms), (0x0F8, .resSymbol), (0x100, .resDecode)] ++
  [(0x108, .sesOffset), (0x110, .sesTrigIndex), (0x118, .sesAccCount), (0x120, .sesCandOffset), (0x128, .sesDecode),
    (0x130, .sesLastSymbol)]

/-! ### The checks of each command -/

/-- The ten checks of rule R146 as the rule lists them; the check at index `k` has the code `k + 1`. -/
def configChecks (p : Params) (c : CfgRegs) : List Bool :=
  let x := fMul c.sampleRate c.wordTime
  let table := freqTable c
  [ fFinite c.sampleRate && fGt c.sampleRate fZero,
    fFinite c.wordTime && fGt c.wordTime fZero,
    fFinite x && decide (1 ≤ fRoundHalfUp x) && decide (fRoundHalfUp x ≤ p.winMax),
    fFinite c.firstFreq && fGt c.firstFreq fZero,
    fFinite c.ratio && fFinite c.increment &&
      ((fEq c.ratio fOne && fGt c.increment fZero) || (fGt c.ratio fOne && fEq c.increment fZero)) ] ++
  [ (List.range 32).all (fun i => fFinite (table.getD i fZero)) &&
      (List.range 31).all (fun i => fGt (table.getD (i + 1) fZero) (table.getD i fZero)) &&
      fLt (table.getD 31 fZero) (fMul c.sampleRate fHalf),
    decide (1 ≤ c.payloadLen.toNat) && decide (c.payloadLen.toNat ≤ 223),
    decide (c.trig.extractLsb' 16 48 = 0) && decide ((c.trig.extractLsb' 0 8).toNat ≤ 31) &&
      decide ((c.trig.extractLsb' 8 8).toNat ≤ 31) && decide (c.trig.extractLsb' 0 8 ≠ c.trig.extractLsb' 8 8),
    fFinite c.snr && fGt c.snr fZero,
    fFinite c.erasureRatio && fGe c.erasureRatio fZero ]

/-- `1 ≤ WIN_LEN ≤ WIN_MAX` (rule R331). -/
def winLenInRange (s : State) : Bool :=
  decide (1 ≤ s.arg.winLen.toNat) && decide (s.arg.winLen.toNat ≤ s.params.winMax)

/-- The checks after decode, in order and written out, each with the error it raises when it fails (rule R331). -/
def checksOf (s : State) : Instr → List (Bool × ErrCode)
  | .nop => []
  | .sreset => []
  | .config => [((configChecks s.params s.cfg).all id, .config)]
  | .feed _ => [(s.cfgValid, .noCfg), (s.arg.winLen == s.drv.windowLen, .winLen)]
  | .synth k =>
    [(s.cfgValid, .noCfg), (s.arg.payLen == s.active.len, .payLen), (decide (k < s.len + s.parity + 2), .range),
      (fFinite s.arg.amplitude && fGt s.arg.amplitude fZero, .range)]
  | .rsenc => [(s.cfgValid, .noCfg), (s.arg.payLen == s.active.len, .payLen)]
  | .rsdec => [(s.cfgValid, .noCfg)]
  | .ilv => [(s.cfgValid, .noCfg)]
  | .dilv => [(s.cfgValid, .noCfg)]
  | .gpwr => [(s.cfgValid, .noCfg), (winLenInRange s, .winLen),
      (fFinite s.arg.freq && fGt s.arg.freq fZero && fLt s.arg.freq (fMul s.active.fs fHalf), .range)]
  | .gpwrs slot => [(s.cfgValid, .noCfg), (winLenInRange s, .winLen), (decide (slot ≤ 31), .range)]
  | .rms => [(winLenInRange s, .winLen)]
  | .detect => [(s.cfgValid, .noCfg), (winLenInRange s, .winLen)]
  | .map v => [(decide (v ≤ 255), .range)]

/-- The error of the first check that fails (rule R331). -/
def firstFailing (s : State) (i : Instr) : Option ErrCode := ((checksOf s i).find? (fun c => !c.1)).map (·.2)

/-- The elements of the buffers a command's rule reads once its checks have passed, as (buffer, count) pairs in the
order it reads them (rule R364 (b)); SYNTH reads PAY only for `k ≥ 2` (rule R284). -/
def readsOf (s : State) : Instr → List (Buf × Nat)
  | .nop => []
  | .sreset => []
  | .config => []
  | .map _ => []
  | .feed _ => [(.win, s.windowLen)]
  | .synth k => if k < 2 then [] else [(.pay, s.len)]
  | .rsenc => [(.pay, s.len)]
  | .rsdec => [(.cw, s.ncw), (.eras, s.ncw)]
  | .ilv => [(.cw, s.ncw), (.eras, s.ncw)]
  | .dilv => [(.cw, s.ncw), (.eras, s.ncw)]
  | .gpwr => [(.win, s.winCount)]
  | .gpwrs _ => [(.win, s.winCount)]
  | .rms => [(.win, s.winCount)]
  | .detect => [(.win, s.winCount)]

/-- Element `i` of a storage buffer has been written since reset; the tables always hold a value. -/
def State.written (s : State) (b : Buf) (i : Nat) : Bool :=
  match b with
  | .freq => true
  | .perm => true
  | .rxpay => true
  | .pay => (s.byteElem .pay i).isSome
  | .cw => (s.byteElem .cw i).isSome
  | .eras => (s.erasElem i).isSome
  | .win => (s.sample .win i).isSome
  | .obuf => (s.sample .obuf i).isSome

/-- Every element a command reads has been written. -/
def operandsWritten (s : State) (i : Instr) : Prop :=
  ∀ bn ∈ readsOf s i, ∀ k, k < bn.2 → s.written bn.1 k = true

/-! ### The Reed-Solomon code -/

/-- A codeword of length `n` for parity length `p`: `c(α^j) = 0` for `j = 0..P-1` (rule R213). -/
def IsCodeword (p n : Nat) (c : List Byte) : Prop := c.length = n ∧ ∀ j, j < p → polyEvalHigh c (gfExp j) = 0

/-- The number of erasures. -/
def erasureCount (era : List Bool) : Nat := (flagged era).length

/-- Codeword `c` lies within the radius of the received word: `2·e(c) + s ≤ P` (rule R215). -/
def WithinRadius (p : Nat) (r : List Byte) (era : List Bool) (c : List Byte) : Prop :=
  IsCodeword p r.length c ∧ 2 * errorsOutside r era c + erasureCount era ≤ p

/-- Lengths a valid configuration gives: payload, parity, received word and flags (rules R210, R213, R215). -/
def RsShape (len p : Nat) (r : List Byte) (era : List Bool) : Prop :=
  1 ≤ len ∧ len ≤ Config.lMax ∧ p = parityLen len ∧ r.length = len + p ∧ era.length = len + p

/-! ### What a finite `f64` stands for -/

/-- The rational a finite value stands for (rule R10); 0 for the others. -/
def fRat (x : F64) : ℚ :=
  match fUnpack x with
  | .nan => 0
  | .inf _ => 0
  | .fin neg m e => (signedMant neg m : ℚ) * (2 : ℚ) ^ e

/-- `r` is the finite `f64` nearest to `v`, and where another is as near `r` is the even one (rule R10: to nearest, ties
to even). -/
def NearestEven (r : F64) (v : ℚ) : Prop :=
  ∀ z : F64, fFinite z = true →
    |fRat r - v| ≤ |fRat z - v| ∧ (|fRat r - v| = |fRat z - v| → fRat z ≠ fRat r → r.getLsbD 0 = false)

/-- The least magnitude that rounds to an infinity: halfway from the largest finite value to 2^1024. -/
def overflowBound : ℚ := 2 ^ 1024 - 2 ^ 970

/-- `r` is the correctly rounded result of an operation whose exact result is `v` (rule R10). -/
def RoundsTo (r : F64) (v : ℚ) : Prop :=
  if |v| < overflowBound then fFinite r = true ∧ NearestEven r v
  else r = fPack (decide (v < 0)) fInfMag

/-! ### The invariant -/

/-- A byte cell lies in an element a buffer has: the byte of a PAY, CW or ERAS element, or a byte of a WIN or OBUF
element below WIN_MAX (rule R43). -/
def cellPlaced (p : Params) (a : Nat) : Prop :=
  inByteElems .pay Config.bufBytes a ∨ inByteElems .cw Config.bufBytes a ∨ inByteElems .eras Config.bufBytes a
    ∨ inWords .win p.winMax a ∨ inWords .obuf p.winMax a

/-- A buffer of words holds whole words: a listed byte has the seven others of its element beside it (rule R86: no
access is performed partially). -/
def wholeWords (m : Memory) (b : Buf) (n : Nat) : Prop :=
  ∀ i, i < n → ∀ k, k < 8 → (m.read (b.elemAddr i + k)).isSome = (m.read (b.elemAddr i)).isSome

/-- The stored buffers: canonical, placed, in whole words, and every ERAS element a single bit (rule R43). -/
structure StorageOk (s : State) : Prop where
  canonical : Memory.wf s.mem
  placed : ∀ c ∈ s.mem, cellPlaced s.params c.1
  winWhole : wholeWords s.mem .win s.params.winMax
  obufWhole : wholeWords s.mem .obuf s.params.winMax
  erasBit : ∀ i, i < Config.bufBytes → ∀ b, s.byteElem .eras i = some b → b = 0 ∨ b = 1

/-- The configuration state is what CONFIG makes of configuration registers `c` that pass validation (rules R142, R363). -/
structure ConfiguredBy (s : State) (c : CfgRegs) : Prop where
  valid : validateCode s.params c = 0
  active : s.active = captureConfig c
  derived : s.drv = derivedRegs c
  freq : s.freq.toList = freqTable c
  perm : tableTake s.perm s.ncw = permBytes s.ncw

/-- The configuration state: built by a successful CONFIG while CFG_VALID is 1, and no derived value nor session while it
is 0 (rules R37, R363, R366). -/
structure ConfigOk (s : State) : Prop where
  winMax : s.params.inRange
  built : s.cfgValid = true → ∃ c, ConfiguredBy s c
  cleared : s.cfgValid = false → s.drv = DrvRegs.zero ∧ s.ses = Session.initial

/-- The session: the counts of rule R304, the sub-state of rule R33, and the flags of rules R302, R303 and R305. -/
structure SessionOk (s : State) : Prop where
  subIdle : s.ses.engine ≠ .idle → s.ses.trigSub = .searching
  countIdle : s.ses.engine = .idle → s.ses.accCount.toNat ≤ s.ncw
  countTriggered : s.ses.engine = .triggered → s.ses.accCount.toNat < s.ncw
  countDone : s.ses.engine = .complete ∨ s.ses.engine = .failed → s.ses.accCount = s.drv.codewordLen
  completeStatus : s.ses.engine = .complete ↔ s.ses.feedStatus = .messageComplete
  failedStatus : s.ses.engine = .failed ↔ s.ses.feedStatus = .messageFailed
  completePayload : s.ses.engine = .complete → s.ses.payloadValid = true
  noPayload : s.ses.engine = .triggered ∨ s.ses.engine = .failed → s.ses.payloadValid = false
  payloadTrigger : s.ses.payloadValid = true → s.ses.trigValid = true
  triggered : s.ses.engine ≠ .idle → s.ses.trigValid = true

/-- The invariant of the state. -/
structure Inv (s : State) : Prop where
  storage : StorageOk s
  config : ConfigOk s
  session : SessionOk s

end Sys2Proof.Machine
end

