-- ==== Sys2Proof/Certificates/Slice0/Obligations.lean ====
section
/-! DEFINITION. The statements for the provers. Each docstring names the rules of the spec the statement rests on; a
statement that rests on a choice of this model says so and names the log entry. -/

open Sys2Proof Sys2Proof.Machine

/-! ### Encoding (file 30) -/

/-- Decoding the encoding of a well-formed command gives it back: no operand bit is dropped (rules R111, R113, R117). -/
def Obligations.EncodeThenDecode : Prop :=
  ∀ i : Instr, i.wellFormed = true → decode (encode i) = .ok i

/-- A legal word encodes the command it decodes to, and that command is well-formed: each word has one meaning (rules
R110, R113). -/
def Obligations.DecodeThenEncode : Prop :=
  ∀ (v : Word) (i : Instr), decode v = .ok i → i.wellFormed = true ∧ encode i = v

/-- Rule R114: the illegal words are exactly those of cases (a) to (d), and executing one raises E_ILLEGAL and changes
nothing else. -/
def Obligations.IllegalWordsAreExactlyTheReservedOnes : Prop :=
  ∀ v : Word,
    ((∃ r, decode v = .error r) ↔
      (0x0D ≤ (fieldOp v).toNat ∨ (fieldRsvh v ≠ 0 ∨ fieldRsv0 v ≠ 0) ∨
        (fieldF v = true ∧ fieldOp v ≠ 0x03#8 ∧ fieldOp v ≠ 0x09#8) ∨
        (fieldImm v ≠ 0 ∧
          ¬ (fieldOp v = 0x04#8 ∨ fieldOp v = 0x0C#8 ∨ (fieldOp v = 0x09#8 ∧ fieldF v = true))))) ∧
    ∀ s : State, (∃ r, decode v = .error r) →
      execute s v =
        .next { s with
          result := .error .illegal
          err := s.err ||| 0b0000001#7
          irqPend := s.irqPend ||| 0b1000#4 }

/-- Rule R110: no word selects two rows of the opcode map. -/
def Obligations.OpcodeRowsAreDisjoint : Prop :=
  opRows.Pairwise (fun r q => ∀ v : Word, ¬ (r.selects v = true ∧ q.selects v = true))

/-- One word of each row of the opcode map, written out from rules R113 and R117, decodes to its command. -/
def Obligations.SampleWordsDecode : Prop :=
  decode 0x0000000000000000#64 = .ok .nop ∧ decode 0x0000000000000001#64 = .ok .config ∧
  decode 0x0000000000000002#64 = .ok .sreset ∧ decode 0x0000000000000003#64 = .ok (.feed false) ∧
  decode 0x0000000000000103#64 = .ok (.feed true) ∧ decode 0x0000000000050004#64 = .ok (.synth 5) ∧
  decode 0x0000000000000005#64 = .ok .rsenc ∧ decode 0x0000000000000006#64 = .ok .rsdec ∧
  decode 0x0000000000000007#64 = .ok .ilv ∧ decode 0x0000000000000008#64 = .ok .dilv ∧
  decode 0x0000000000000009#64 = .ok .gpwr ∧ decode 0x0000000000120109#64 = .ok (.gpwrs 18) ∧
  decode 0x000000000000000A#64 = .ok .rms ∧ decode 0x000000000000000B#64 = .ok .detect ∧
  decode 0x0000000000A5000C#64 = .ok (.map 0xA5)

/-! ### A step (rules R32, R82, R110, R347) -/

/-- When the next pending access writes a word to CMD, the step runs exactly the command it decodes to, or raises E_ILLEGAL
for a word that decodes to none, with CMD holding the word either way; `withFetchWord` makes any table word that access; an
access at PLATFORM_BASE plus an offset is performed at the offset; and with no access pending the block holds its state
(rules R32, R80, R82, R110, R347). The pending queue, the counter of free values and the access outside the window, which
leaves the block as it is, are the model's own (log entries 1, 6, 11). -/
def Obligations.StepRunsTheIssuedCommand : Prop :=
  (∀ (s : State) (v : Word) (rest : List HostAccess),
    s.hostQueue = .write 64 (s.params.platformBase + 0x008) v :: rest →
      (∀ i, decode v = .ok i →
        step s = exec i { s with hostQueue := rest, cmd := v, freeEpoch := s.freeEpoch + 1 }) ∧
      ∀ r, decode v = .error r →
        step s = .next { s with
          hostQueue := rest
          cmd := v
          freeEpoch := s.freeEpoch + 1
          result := .error .illegal
          err := s.err ||| 0b0000001#7
          irqPend := s.irqPend ||| 0b1000#4 }) ∧
  (∀ (s : State) (w : Nat) (i : Instr), decodeTableWord 64 w = some i →
      step (s.withFetchWord 64 w) =
        exec i { s with cmd := BitVec.ofNat 64 w, freeEpoch := s.freeEpoch + 1 }) ∧
  (∀ (s : State) (rest : List HostAccess) (w : Nat) (a : Addr) (v : Word),
    (s.hostQueue = .read w (s.params.platformBase + a.toNat) :: rest →
      step s = perform { s with hostQueue := rest } (.read w a)) ∧
    (s.hostQueue = .write w (s.params.platformBase + a.toNat) v :: rest →
      step s = perform { s with hostQueue := rest } (.write w a v)) ∧
    (s.hostQueue = .reset :: rest → step s = perform { s with hostQueue := rest } .reset)) ∧
  (∀ (s : State) (rest : List HostAccess) (w n : Nat) (v : Word),
    ¬ (s.params.platformBase ≤ n ∧ n < s.params.platformBase + 0x400000) →
    (s.hostQueue = .read w n :: rest ∨ s.hostQueue = .write w n v :: rest) →
      step s = .next { s with hostQueue := rest }) ∧
  (∀ s : State, s.hostQueue = [] → step s = .next s)

/-! ### The host bus (file 20) -/

/-- Rules R86 and R335: an access that is not 64 bits wide, not aligned or not mapped sets ERR.BUS and IRQ_PEND.ERROR and
does nothing else, a read returning 0; and no other access is a bus error, those to reserved offsets and beyond a buffer's
capacity included. -/
def Obligations.BusErrorsReportAndDoNothingElse : Prop :=
  ∀ (s : State) (w : Nat) (a : Addr) (v : Word),
    ((w ≠ 64 ∨ a.toNat % 8 ≠ 0 ∨ (0x003800 ≤ a.toNat ∧ a.toNat ≤ 0x0FFFFF) ∨ 0x300000 ≤ a.toNat) →
      perform s (.read w a) =
          .next { s with err := s.err ||| 0b1000000#7, irqPend := s.irqPend ||| 0b1000#4, busData := 0 } ∧
        perform s (.write w a v) =
          .next { s with err := s.err ||| 0b1000000#7, irqPend := s.irqPend ||| 0b1000#4 }) ∧
    (¬ (w ≠ 64 ∨ a.toNat % 8 ≠ 0 ∨ (0x003800 ≤ a.toNat ∧ a.toNat ≤ 0x0FFFFF) ∨ 0x300000 ≤ a.toNat) →
      (∃ d, perform s (.read w a) = .next { s with busData := d }) ∧
        ∀ t, a ≠ 0x008#22 → perform s (.write w a v) = .next t →
          t.err ||| s.err = s.err ∧ t.irqPend ||| s.irqPend = s.irqPend ∧ t.result = s.result)

/-- Rules R31 to R41 and R84: a 64-bit read at a register's offset returns the register's read value and changes nothing
else. Rules R36, R38 and R85: an RW register holds all 64 bits written, every other register reads as before, and nothing
else in the state changes but the model's counter of free values (log entry 6). -/
def Obligations.ReadWriteRegistersHoldWhatIsWritten : Prop :=
  (∀ (r : Reg) (s : State),
    perform s (.read 64 (BitVec.ofNat 22 r.offset)) = .next { s with busData := s.readReg r }) ∧
  (∀ nr ∈ registerMap, ∀ s : State,
    perform s (.read 64 (BitVec.ofNat 22 nr.1)) = .next { s with busData := s.readReg nr.2 }) ∧
  ∀ r ∈ [Reg.cfgSampleRate, .cfgFirstFreq, .cfgRatio, .cfgIncrement, .cfgWordTime, .cfgPayloadLen, .cfgTrig, .cfgSnr,
      .cfgErasureRatio, .argFreq, .argAmplitude, .argOffset, .winLen, .payLen],
    ∀ (s : State) (v : Word), ∃ t, perform s (.write 64 (BitVec.ofNat 22 r.offset) v) = .next t ∧ t.readReg r = v ∧
      (∀ q, q ≠ r → t.readReg q = s.readReg q) ∧
      t = { s with cfg := t.cfg, arg := t.arg, freeEpoch := s.freeEpoch + 1 }

/-- Rules R34, R35, R42, R85 and R88: ERR and IRQ_PEND clear exactly the bits written 1, IRQ_EN keeps bits 3:0, and a
write to a read-only register or a reserved offset is ignored. -/
def Obligations.FlagAndReadOnlyRegisterWrites : Prop :=
  (∀ (s : State) (v : Word), ∃ t, perform s (.write 64 0x018#22 v) = .next t ∧
      (∀ k, k < 7 → t.err.getLsbD k = (s.err.getLsbD k && !v.getLsbD k)) ∧
      t = { s with err := t.err, freeEpoch := s.freeEpoch + 1 }) ∧
  (∀ (s : State) (v : Word), ∃ t, perform s (.write 64 0x028#22 v) = .next t ∧
      (∀ k, k < 4 → t.irqPend.getLsbD k = (s.irqPend.getLsbD k && !v.getLsbD k)) ∧
      t = { s with irqPend := t.irqPend, freeEpoch := s.freeEpoch + 1 }) ∧
  (∀ (s : State) (v : Word), ∃ t, perform s (.write 64 0x020#22 v) = .next t ∧
      (∀ k, k < 4 → t.irqEn.getLsbD k = v.getLsbD k) ∧
      t = { s with irqEn := t.irqEn, freeEpoch := s.freeEpoch + 1 }) ∧
  (∀ r ∈ [Reg.id, .status, .drvWindowLen, .drvParityLen, .drvCodewordLen, .drvFrameWindows, .drvNumSlots, .cfgErr,
      .drvWinMax, .resPower, .resRms, .resSymbol, .resDecode, .sesOffset, .sesTrigIndex, .sesAccCount, .sesCandOffset,
      .sesDecode, .sesLastSymbol],
    ∀ (s : State) (v : Word),
      perform s (.write 64 (BitVec.ofNat 22 r.offset) v) = .next { s with freeEpoch := s.freeEpoch + 1 }) ∧
  (∀ n, n < 0x800 → n % 8 = 0 → (∀ r : Reg, r.offset ≠ n) → ∀ (s : State) (v : Word),
      perform s (.write 64 (BitVec.ofNat 22 n) v) = .next { s with freeEpoch := s.freeEpoch + 1 } ∧
      perform s (.read 64 (BitVec.ofNat 22 n)) = .next { s with busData := 0 })

/-- Rules R43, R85 and R90: a WIN, PAY, CW or ERAS element below capacity reads back what was written (PAY and CW bits
7:0, ERAS bit 0, WIN all 64), no byte outside the element changes, and a write to a read-only buffer or beyond the
capacity is ignored. Each such write moves the model's counter of free values on, its own field (log entry 6). -/
def Obligations.BufferElementsHoldWhatIsWritten : Prop :=
  (∀ (s : State) (b : Buf) (i : Nat) (v : Word), s.params.inRange → i < b.capacity s.params →
    b = .win ∨ b = .pay ∨ b = .cw ∨ b = .eras →
    ∃ t, perform s (.write 64 (BitVec.ofNat 22 (b.elemAddr i)) v) = .next t ∧
      perform t (.read 64 (BitVec.ofNat 22 (b.elemAddr i))) =
        .next { t with busData :=
          if b = .win then v else if b = .eras then v &&& 0x1#64 else v &&& 0xFF#64 } ∧
      t = { s with mem := t.mem, freeEpoch := s.freeEpoch + 1 } ∧
      ∀ a, ¬ (b.elemAddr i ≤ a ∧ a < b.elemAddr i + (if b = .win then 8 else 1)) → t.mem.read a = s.mem.read a) ∧
  (∀ (s : State) (b : Buf) (i : Nat) (v : Word), 8 * i < b.windowBytes →
    (b.capacity s.params ≤ i ∨ b = .freq ∨ b = .perm ∨ b = .rxpay ∨ b = .obuf) →
    perform s (.write 64 (BitVec.ofNat 22 (b.elemAddr i)) v) = .next { s with freeEpoch := s.freeEpoch + 1 })

/-- Rules R43 and R84: what a host read of a buffer returns in every state. A word beyond the capacity reads 0, a table its
stored value while it is exposed, a written element of WIN, OBUF, PAY, CW or ERAS the value it holds, and one never written
the model's free value of its address and of the counter only writes advance (rule R364 (a); log entry 6). -/
def Obligations.BufferReadValues : Prop :=
  Buf.all.map Buf.base = [0x000800, 0x001000, 0x001800, 0x002000, 0x002800, 0x003000, 0x100000, 0x200000] ∧
  ∀ (s : State) (i : Nat),
    (∀ b : Buf, 8 * i < b.windowBytes → b.capacity s.params ≤ i →
      perform s (.read 64 (BitVec.ofNat 22 (b.elemAddr i))) = .next { s with busData := 0 }) ∧
    (i < 32 → perform s (.read 64 (BitVec.ofNat 22 (Buf.elemAddr .freq i))) =
      .next { s with busData := if s.cfgValid = true then tableGet s.freq i 0 else 0 }) ∧
    (i < 255 → perform s (.read 64 (BitVec.ofNat 22 (Buf.elemAddr .perm i))) =
      .next { s with busData :=
        if s.cfgValid = true ∧ i < s.drv.codewordLen.toNat then (tableGet s.perm i 0).setWidth 64 else 0 }) ∧
    (i < 255 → perform s (.read 64 (BitVec.ofNat 22 (Buf.elemAddr .rxpay i))) =
      .next { s with busData :=
        if s.ses.payloadValid = true ∧ i < s.active.len.toNat then (tableGet s.rxpay i 0).setWidth 64 else 0 }) ∧
    (∀ b : Buf, b = .win ∨ b = .obuf → 8 * i < b.windowBytes → i < b.capacity s.params → ∀ v, s.sample b i = some v →
      perform s (.read 64 (BitVec.ofNat 22 (b.elemAddr i))) = .next { s with busData := v }) ∧
    (∀ b : Buf, b = .pay ∨ b = .cw → i < 255 → ∀ v, s.byteElem b i = some v →
      perform s (.read 64 (BitVec.ofNat 22 (b.elemAddr i))) = .next { s with busData := v.setWidth 64 }) ∧
    (i < 255 → ∀ e, s.erasElem i = some e →
      perform s (.read 64 (BitVec.ofNat 22 (Buf.elemAddr .eras i))) =
        .next { s with busData := if e = true then 1 else 0 }) ∧
    (∀ b : Buf, 8 * i < b.windowBytes → i < b.capacity s.params → s.written b i = false →
      perform s (.read 64 (BitVec.ofNat 22 (b.elemAddr i))) =
        .next { s with busData := Config.freeRead s.freeEpoch (BitVec.ofNat 22 (b.elemAddr i)) })

/-! ### Status, flags and interrupts (files 10 and 60) -/

/-- Rules R33, R330 and R341: the fields of STATUS and their encodings; BUSY reads 0, bits 63:14 read 0, and bit 13 is the
level of the irq output, high exactly when some bit is both pending and enabled. -/
def Obligations.StatusWordFields : Prop :=
  ∀ s : State,
    (s.readReg .status).extractLsb' 0 4 =
      (match s.result with
        | .ok => 0#4
        | .error .illegal => 1#4
        | .error .noCfg => 2#4
        | .error .config => 3#4
        | .error .winLen => 4#4
        | .error .payLen => 5#4
        | .error .range => 6#4
        | .decodeFail => 7#4) ∧
    (s.readReg .status).extractLsb' 4 2 =
      (match s.ses.feedStatus with
        | .processing => 0#2
        | .messageComplete => 1#2
        | .messageFailed => 2#2) ∧
    (s.readReg .status).extractLsb' 6 2 =
      (match s.ses.engine with
        | .idle => 0#2
        | .triggered => 1#2
        | .complete => 2#2
        | .failed => 3#2) ∧
    (s.readReg .status).extractLsb' 8 1 =
      (match s.ses.trigSub with
        | .searching => 0#1
        | .candidate => 1#1) ∧
    (s.readReg .status).getLsbD 9 = s.cfgValid ∧
    (s.readReg .status).getLsbD 10 = s.ses.payloadValid ∧
    (s.readReg .status).getLsbD 11 = s.ses.trigValid ∧
    (s.readReg .status).getLsbD 12 = false ∧
    (s.readReg .status).getLsbD 13 = s.irq ∧
    (s.readReg .status).extractLsb' 14 50 = 0 ∧
    (s.irq = true ↔ ∃ k, k < 4 ∧ s.irqPend.getLsbD k = true ∧ s.irqEn.getLsbD k = true)

/-- Rules R34, R35 and R340: no command clears an ERR or IRQ_PEND bit or writes IRQ_EN, and one command sets at most one
IRQ_PEND bit. -/
def Obligations.CommandsNeverClearFlags : Prop :=
  ∀ (i : Instr) (s t : State), exec i s = .next t →
    s.err &&& t.err = s.err ∧ t.irqEn = s.irqEn ∧
      ∃ bit ∈ [0b0000#4, 0b0001#4, 0b0010#4, 0b0100#4, 0b1000#4], t.irqPend = s.irqPend ||| bit

/-- Rules R330 and R333: the six error codes; a command word that raises writes RESULT, the ERR bit of its code (bit
`c - 1`) and IRQ_PEND.ERROR and nothing else; the one exception is CONFIG, whose failure path's writes persist. -/
def Obligations.RaiseIsPrecise : Prop :=
  (ErrCode.code .illegal = 1#4 ∧ ErrCode.code .noCfg = 2#4 ∧ ErrCode.code .config = 3#4 ∧ ErrCode.code .winLen = 4#4 ∧
    ErrCode.code .payLen = 5#4 ∧ ErrCode.code .range = 6#4) ∧
  (∀ c : ErrCode, c.errBit = 1#7 <<< (c.code.toNat - 1)) ∧
  (∀ (s : State) (v : Word) (r : IllegalWord), decode v = .error r →
    execute s v = .next { s with
      result := .error .illegal, err := s.err ||| ErrCode.errBit .illegal, irqPend := s.irqPend ||| 0b1000#4 }) ∧
  ∀ (i : Instr) (s t : State) (c : ErrCode), exec i s = .next t → t.result = .error c →
    (i ≠ .config →
      t = { s with result := .error c, err := s.err ||| c.errBit, irqPend := s.irqPend ||| 0b1000#4 }) ∧
    (i = .config → c = .config ∧
      t = { s with
        result := .error .config
        err := s.err ||| 0b0000100#7
        irqPend := s.irqPend ||| 0b1000#4
        cfgValid := false
        drv := { windowLen := 0, parityLen := 0, codewordLen := 0, frameWindows := 0 }
        cfgErr := validateCode s.params s.cfg
        ses := Session.initial })

/-- Rule R332: every executed word writes RESULT (what it held before makes no difference), a raise the error, a decode
failure of RSDEC 7, a success 0; and no bus access but a write to CMD changes it (the hardware reset apart). -/
def Obligations.EveryCommandWordWritesResult : Prop :=
  (∀ (s : State) (v : Word) (r : ResultCode) (t : State), execute s v = .next t →
    execute { s with result := r } v = .next t) ∧
  (∀ (i : Instr) (s t : State), exec i s = .next t →
    (∀ c, firstFailing s i = some c → t.result = .error c) ∧
    (firstFailing s i = none → t.result = .ok ∨ (i = .rsdec ∧ t.result = .decodeFail))) ∧
  (ResultCode.code .ok = 0#4 ∧ ResultCode.code .decodeFail = 7#4) ∧
  (∀ (s : State) (w : Nat) (a : Addr) (v : Word) (t : State), a ≠ 0x008#22 ∨ w ≠ 64 →
    perform s (.write w a v) = .next t → t.result = s.result) ∧
  (∀ (s : State) (w : Nat) (a : Addr) (t : State), perform s (.read w a) = .next t → t.result = s.result)

/-- Rule R331: decode first, then the configuration, then the command's own checks in the listed order, each written
out (`checksOf`); the first that fails decides the code, and with none failing no error is raised. -/
def Obligations.ChecksDecideTheErrorInOrder : Prop :=
  (∀ (s : State) (v : Word) (r : IllegalWord), decode v = .error r →
    ∃ t, execute s v = .next t ∧ t.result = .error .illegal) ∧
  ∀ (i : Instr) (s : State),
    (∀ c, firstFailing s i = some c → ∃ t, exec i s = .next t ∧ t.result = .error c) ∧
    (firstFailing s i = none → ∀ t, exec i s = .next t → ∀ c, t.result ≠ .error c)

/-- Rule R362: while CFG_VALID is 0 only NOP, CONFIG, SRESET, RMS and MAP execute, and every other command raises
E_NOCFG. -/
def Obligations.OnlyFiveCommandsExecuteWithoutAConfiguration : Prop :=
  ∀ (i : Instr) (s : State), s.cfgValid = false →
    ((i = .nop ∨ i = .config ∨ i = .sreset ∨ i = .rms ∨ ∃ v, i = .map v) →
      ∀ t, exec i s = .next t → t.result ≠ .error .noCfg) ∧
    (¬ (i = .nop ∨ i = .config ∨ i = .sreset ∨ i = .rms ∨ ∃ v, i = .map v) →
      exec i s =
        .next { s with
          result := .error .noCfg
          err := s.err ||| 0b0000010#7
          irqPend := s.irqPend ||| 0b1000#4 })

/-- Every command completes: with its checks passed and the elements it reads written, it answers a next state whose
RESULT is OK, or DECODE_FAIL for RSDEC (rules R331, R332, R364). -/
def Obligations.CommandsCompleteOnWrittenOperands : Prop :=
  ∀ (i : Instr) (s : State), firstFailing s i = none → operandsWritten s i →
    ∃ t, exec i s = .next t ∧ (t.result = .ok ∨ (i = .rsdec ∧ t.result = .decodeFail))

/-- Rule R364 (b): with its checks passed, a command faults exactly when an element its rule reads has not been written
since reset, and the fault names such an element; nothing else faults, and no command is refused. -/
def Obligations.CommandsFaultExactlyOnUnwrittenOperands : Prop :=
  (∀ (i : Instr) (s : State), firstFailing s i = none → ¬ operandsWritten s i →
    ∃ b n k, (b, n) ∈ readsOf s i ∧ k < n ∧ s.written b k = false ∧
      exec i s = .fault (.unwrittenElement b k)) ∧
  (∀ (i : Instr) (s : State) (f : Fault), exec i s = .fault f → firstFailing s i = none ∧ ¬ operandsWritten s i) ∧
  (∀ (i : Instr) (s : State) (r : Refusal), exec i s ≠ .refused r)

/-! ### Configuration (file 40) -/

/-- Rule R140: NOP writes RESULT and nothing else, in every state, and a word with OP 0x00 and any other bit set is
illegal. -/
def Obligations.NopWritesOnlyResult : Prop :=
  (∀ s : State, exec .nop s = .next { s with result := .ok }) ∧
  decode 0#64 = .ok .nop ∧
  ∀ v : Word, fieldOp v = 0 → v ≠ 0 → ∃ r, decode v = .error r

/-- Rules R37, R142, R145 and R240: a CONFIG whose registers validate captures them, computes the derived registers, the
table and the permutation, resets the session, and leaves everything else as it was; FREQ and PERM then read as the
tables. -/
def Obligations.ConfigCapturesAValidConfiguration : Prop :=
  ∀ s : State, validateCode s.params s.cfg = 0 →
    ∃ t, exec .config s = .next t ∧
      t = { s with
        active :=
          { fs := s.cfg.sampleRate, f0 := s.cfg.firstFreq, ratio := s.cfg.ratio, inc := s.cfg.increment,
            tw := s.cfg.wordTime, len := s.cfg.payloadLen, ta := s.cfg.trig.extractLsb' 0 8,
            tb := s.cfg.trig.extractLsb' 8 8, snr := s.cfg.snr, er := s.cfg.erasureRatio }
        drv :=
          { windowLen := BitVec.ofNat 64 (fRoundHalfUp (fMul s.cfg.sampleRate s.cfg.wordTime))
            parityLen := BitVec.ofNat 64 (parityLen s.cfg.payloadLen.toNat)
            codewordLen := BitVec.ofNat 64 (s.cfg.payloadLen.toNat + parityLen s.cfg.payloadLen.toNat)
            frameWindows := BitVec.ofNat 64 (s.cfg.payloadLen.toNat + parityLen s.cfg.payloadLen.toNat + 2) }
        freq := t.freq
        perm := t.perm
        cfgErr := 0
        cfgValid := true
        ses := Session.initial
        result := .ok } ∧
      (∀ i, i < 32 → ∀ a, t.readElem .freq i a = (freqTable s.cfg).getD i 0) ∧
      (∀ i, i < s.cfg.payloadLen.toNat + parityLen s.cfg.payloadLen.toNat → ∀ a,
        t.readElem .perm i a =
          BitVec.ofNat 64 ((buildShuffle (s.cfg.payloadLen.toNat + parityLen s.cfg.payloadLen.toNat)).getD i 0))

/-- Rules R37, R142 and R43: a CONFIG whose registers do not validate stores the code, clears CFG_VALID and the derived
registers, resets the session and raises E_CONFIG; the derived registers, FREQ, PERM and RXPAY then read 0. -/
def Obligations.ConfigRejectsAnInvalidConfiguration : Prop :=
  ∀ s : State, validateCode s.params s.cfg ≠ 0 →
    ∃ t, exec .config s = .next t ∧
      t = { s with
        cfgValid := false
        drv := { windowLen := 0, parityLen := 0, codewordLen := 0, frameWindows := 0 }
        cfgErr := validateCode s.params s.cfg
        ses := Session.initial
        result := .error .config
        err := s.err ||| 0b0000100#7
        irqPend := s.irqPend ||| 0b1000#4 } ∧
      (∀ r ∈ [Reg.drvWindowLen, .drvParityLen, .drvCodewordLen, .drvFrameWindows], t.readReg r = 0) ∧
      ∀ b ∈ [Buf.freq, .perm, .rxpay], ∀ i a, t.readElem b i a = 0

/-- Rule R146: the ten checks, in order (`configChecks`); the first that fails gives the code, and 0 stands for none. -/
def Obligations.ValidationReportsTheFirstFailingCheck : Prop :=
  ∀ (p : Params) (c : CfgRegs),
    ((∀ k, k < 10 → (configChecks p c).getD k false = true) → validateCode p c = 0) ∧
    ∀ k, k < 10 → (configChecks p c).getD k true = false → (∀ j, j < k → (configChecks p c).getD j false = true) →
      validateCode p c = BitVec.ofNat 8 (k + 1)

/-- Rules R7, R143, R210 and R281: what a validated configuration derives lies in range: the window length is 1 to WIN_MAX,
the parity length is even and 2 to 32, the codeword length is their sum and at most 255, and a frame has two windows
more. -/
def Obligations.ValidConfigurationsDeriveLengthsInRange : Prop :=
  ∀ (p : Params) (c : CfgRegs), p.inRange → validateCode p c = 0 →
    (derivedRegs c).windowLen.toNat = fRoundHalfUp (fMul c.sampleRate c.wordTime) ∧
    1 ≤ (derivedRegs c).windowLen.toNat ∧ (derivedRegs c).windowLen.toNat ≤ p.winMax ∧
    1 ≤ c.payloadLen.toNat ∧ c.payloadLen.toNat ≤ 223 ∧
    (derivedRegs c).parityLen.toNat = 2 * min 16 (max 1 ((c.payloadLen.toNat + 3) / 4)) ∧
    2 ≤ (derivedRegs c).parityLen.toNat ∧ (derivedRegs c).parityLen.toNat ≤ 32 ∧
    (derivedRegs c).codewordLen.toNat = c.payloadLen.toNat + (derivedRegs c).parityLen.toNat ∧
    (derivedRegs c).codewordLen.toNat ≤ 255 ∧
    (derivedRegs c).frameWindows.toNat = (derivedRegs c).codewordLen.toNat + 2

/-- Rule R143: the window length is `floor(x + 1/2)` of the exact value of `x`. -/
def Obligations.WindowLengthRoundsHalfUp : Prop :=
  ∀ x : F64, fFinite x = true → fSign x = false → (fRoundHalfUp x : ℤ) = ⌊fRat x + 1 / 2⌋

/-- Rules R145 and R174: in a validated configuration every tone lies in the open interval (0, fs/2), so GPWRS needs no
frequency check. -/
def Obligations.ValidFrequencyTablesLieInTheGoertzelDomain : Prop :=
  ∀ (p : Params) (c : CfgRegs), validateCode p c = 0 → ∀ i, i < 32 →
    fFinite ((freqTable c).getD i fZero) = true ∧ fGt ((freqTable c).getD i fZero) fZero = true ∧
      fLt ((freqTable c).getD i fZero) (fMul c.sampleRate fHalf) = true

/-! ### Spectral analysis and symbols (files 41 and 42) -/

/-- Rules R171, R173 and R174: GPWR writes the power at ARG_FREQ and GPWRS the power at a table slot, and nothing else but
RESULT. -/
def Obligations.PowerCommandsWriteThePower : Prop :=
  ∀ s : State, s.cfgValid = true → 1 ≤ s.arg.winLen.toNat → s.arg.winLen.toNat ≤ s.params.winMax →
    s.winReady s.arg.winLen.toNat →
    ((fFinite s.arg.freq = true ∧ fGt s.arg.freq fZero = true ∧ fLt s.arg.freq (fMul s.active.fs fHalf) = true) →
      exec .gpwr s =
        .next { s with
          result := .ok
          res := { s.res with power := power (s.window s.arg.winLen.toNat) s.active.fs s.arg.freq } }) ∧
    ∀ slot, slot ≤ 31 →
      exec (.gpwrs slot) s =
        .next { s with
          result := .ok
          res := { s.res with
            power := power (s.window s.arg.winLen.toNat) s.active.fs (tableGet s.freq slot 0) } }

/-- Rules R172 and R175: RMS needs no configuration and writes the root mean square, and nothing else but RESULT. -/
def Obligations.RmsWritesTheRootMeanSquare : Prop :=
  ∀ s : State, 1 ≤ s.arg.winLen.toNat → s.arg.winLen.toNat ≤ s.params.winMax → s.winReady s.arg.winLen.toNat →
    exec .rms s =
      .next { s with
        result := .ok
        res := { s.res with
          rms := fSqrt (fDiv ((s.window s.arg.winLen.toNat).foldl (fun acc v => fAdd acc (fMul v v)) fZero)
            (fOfNat s.arg.winLen.toNat)) } }

/-- Rules R194 and R196: DETECT writes the symbol word of the window, and nothing else but RESULT. -/
def Obligations.DetectWritesTheSymbolWord : Prop :=
  ∀ s : State, s.cfgValid = true → 1 ≤ s.arg.winLen.toNat → s.arg.winLen.toNat ≤ s.params.winMax →
    s.winReady s.arg.winLen.toNat →
    ∃ y : Symbol, y = detectSymbol (s.window s.arg.winLen.toNat) s.active.fs s.active.er (fun i => tableGet s.freq i 0) ∧
      exec .detect s =
        .next { s with
          result := .ok
          res := { s.res with symbol := 0#32 ++ y.slot1 ++ y.slot0 ++ 0#7 ++ BitVec.ofBool y.erasure ++ y.value } }

/-- Rule R196: an all-zero window is an erasure with VALUE 0 and slots 0 and 16, whatever COS64 is. -/
def Obligations.DetectOfSilenceIsAnErasure : Prop :=
  ∀ s : State, s.cfgValid = true → 1 ≤ s.arg.winLen.toNat → s.arg.winLen.toNat ≤ s.params.winMax →
    (∀ i, i < s.arg.winLen.toNat → s.sample .win i = some fZero) →
    exec .detect s = .next { s with result := .ok, res := { s.res with symbol := 0x10000100#64 } }

/-- Rules R191 and R192: Map is a bijection from 0..255 onto the slot pairs, with inverse `s0 + 16·(s1 - 16)`; every slot
pair the detector selects names the one symbol it reports; and MAP refuses an out-of-range value with E_RANGE. -/
def Obligations.MapIsABijectionOntoTheSlotPairs : Prop :=
  (∀ v, v < 256 → mapSlots v = (v % 16, 16 + v / 16) ∧ (mapSlots v).1 < 16 ∧ 16 ≤ (mapSlots v).2 ∧
    (mapSlots v).2 < 32 ∧ (mapSlots v).1 + 16 * ((mapSlots v).2 - 16) = v) ∧
  (∀ s0 s1, s0 < 16 → 16 ≤ s1 → s1 < 32 → s0 + 16 * (s1 - 16) < 256 ∧ mapSlots (s0 + 16 * (s1 - 16)) = (s0, s1)) ∧
  (∀ (x : List F64) (fs er : F64) (freq : Nat → F64),
    mapSlots (detectSymbol x fs er freq).value.toNat =
      ((detectSymbol x fs er freq).slot0.toNat, (detectSymbol x fs er freq).slot1.toNat)) ∧
  ∀ (s : State) (v : Nat), 255 < v → ∃ t, exec (.map v) s = .next t ∧ t.result = .error .range

/-- Rule R193: when the power of slot 0 is no NaN, the winner of a lane is the lowest slot with the greatest power and a
NaN never wins; a NaN at slot 0 stays the winner. -/
def Obligations.LaneWinnerIsTheLowestGreatest : Prop :=
  ∀ pw : List F64, pw.length = 16 →
    (fIsNaN (pw.getD 0 fZero) = true → laneWinner pw = 0) ∧
    (fIsNaN (pw.getD 0 fZero) = false →
      laneWinner pw < 16 ∧ fIsNaN (pw.getD (laneWinner pw) fZero) = false ∧
      (∀ v, v < 16 → fGt (pw.getD v fZero) (pw.getD (laneWinner pw) fZero) = false) ∧
      ∀ v, v < laneWinner pw →
        fIsNaN (pw.getD v fZero) = true ∨ fGt (pw.getD (laneWinner pw) fZero) (pw.getD v fZero) = true)

/-- Rule R195: MAP needs no configuration; a value up to 255 gives the symbol word of its slot pair, and a greater one
raises E_RANGE. -/
def Obligations.MapWritesTheSymbolWord : Prop :=
  ∀ (s : State) (v : Nat),
    (v ≤ 255 →
      exec (.map v) s =
        .next { s with
          result := .ok
          res := { s.res with symbol := BitVec.ofNat 64 (v + (v % 16) * 2 ^ 16 + (16 + v / 16) * 2 ^ 24) } }) ∧
    (255 < v →
      exec (.map v) s =
        .next { s with
          result := .error .range
          err := s.err ||| 0b0100000#7
          irqPend := s.irqPend ||| 0b1000#4 })

/-- Rules R10, R171, R172, R177, R194 and R261: a NaN operand makes a NaN result, a NaN sample makes Power and MeanSq a NaN,
a NaN in either argument fails the trigger test, and a lane whose winning power is a NaN is unreliable. -/
def Obligations.NanPropagatesAndDecidesNothing : Prop :=
  (∀ a b : F64, fIsNaN a = true ∨ fIsNaN b = true →
    fIsNaN (fAdd a b) = true ∧ fIsNaN (fSub a b) = true ∧ fIsNaN (fMul a b) = true ∧ fIsNaN (fDiv a b) = true ∧
      fLt a b = false ∧ fLe a b = false ∧ fGt a b = false ∧ fGe a b = false ∧ fEq a b = false) ∧
  (∀ (c : F64) (x : List F64), (∃ v ∈ x, fIsNaN v = true) →
    fIsNaN (powerOfCoef c x) = true ∧ fIsNaN (meanSq x) = true) ∧
  (∀ snr p ms : F64, fIsNaN p = true ∨ fIsNaN ms = true → trigDecide snr p ms = false) ∧
  (∀ (pw : List F64) (bmin er : F64), fIsNaN (pw.getD (laneWinner pw) fZero) = true →
    laneReliable pw bmin er = false)

/-! ### Binary64 arithmetic (rule R10) -/

/-- Rule R10: sum, difference, product and quotient of finite values are the exact result rounded once, to nearest with
ties to even, and `float(k)` is exact below 2^53. The model's own parts: an exact result from the overflow bound on gives the
infinity of its sign (log entry 18), and `float(k)` of `k ≥ 2^53` is `k` rounded the same way (log entry 16). -/
def Obligations.ArithmeticIsCorrectlyRounded : Prop :=
  (∀ a b : F64, fFinite a = true → fFinite b = true →
    RoundsTo (fAdd a b) (fRat a + fRat b) ∧ RoundsTo (fSub a b) (fRat a - fRat b) ∧
      RoundsTo (fMul a b) (fRat a * fRat b) ∧ (fRat b ≠ 0 → RoundsTo (fDiv a b) (fRat a / fRat b))) ∧
  (∀ k : Nat, RoundsTo (fOfNat k) k) ∧
  (∀ k : Nat, k < 2 ^ 53 → fFinite (fOfNat k) = true ∧ fRat (fOfNat k) = k)

/-- Rule R10: the square root of a finite non-negative value is the finite value nearest to the exact root. -/
def Obligations.SquareRootIsCorrectlyRounded : Prop :=
  ∀ a : F64, fFinite a = true → 0 ≤ fRat a →
    fFinite (fSqrt a) = true ∧ 0 ≤ fRat (fSqrt a) ∧
      ∀ z : F64, fFinite z = true →
        |((fRat (fSqrt a) : ℚ) : ℝ) - Real.sqrt ((fRat a : ℚ) : ℝ)| ≤
          |((fRat z : ℚ) : ℝ) - Real.sqrt ((fRat a : ℚ) : ℝ)|

/-- Rule R10: the comparisons order finite values as the rationals they stand for, so `+0.0 == -0.0`. -/
def Obligations.ComparisonsOrderFiniteValues : Prop :=
  ∀ a b : F64, fFinite a = true → fFinite b = true →
    (fLt a b = true ↔ fRat a < fRat b) ∧ (fLe a b = true ↔ fRat a ≤ fRat b) ∧
      (fGt a b = true ↔ fRat b < fRat a) ∧ (fGe a b = true ↔ fRat b ≤ fRat a) ∧ (fEq a b = true ↔ fRat a = fRat b)

/-! ### Reed-Solomon (file 43) -/

/-- Rule R211: multiplication and inversion agree with the EXP and LOG tables, and LOG inverts EXP. -/
def Obligations.FieldOperationsAgreeWithTheTables : Prop :=
  (∀ i, i < 254 →
    (gfExp (i + 1)).toNat =
      if 2 * (gfExp i).toNat < 0x100 then 2 * (gfExp i).toNat else (2 * (gfExp i).toNat) ^^^ 0x11D) ∧
  gfExp 0 = 1 ∧
  (∀ i, i < 255 → gfLog (gfExp i) = i) ∧
  (∀ a b : Byte, gfMul a b = if a = 0 ∨ b = 0 then 0 else gfExp ((gfLog a + gfLog b) % 255)) ∧
  (∀ a : Byte, a ≠ 0 → gfInv a = gfExp ((255 - gfLog a) % 255) ∧ gfMul a (gfInv a) = 1)

/-- Rules R212, R213 and R214: the generator is monic of degree P with the roots α^0 to α^(P-1); RsEncode is systematic,
appends P bytes, and its result is a codeword. -/
def Obligations.RsEncodeGivesASystematicCodeword : Prop :=
  (∀ p, (genPoly p).length = p + 1 ∧ (genPoly p).head? = some 1 ∧
    ∀ i, i < p → polyEvalHigh (genPoly p) (gfExp i) = 0) ∧
  ∀ (p : Nat) (m : List Byte), (rsEncode p m).take m.length = m ∧ IsCodeword p (m.length + p) (rsEncode p m)

/-- Rules R216 and R213: RSENC writes the codeword of PAY to CW, and changes no other byte and nothing else but RESULT. -/
def Obligations.RsencWritesTheCodeword : Prop :=
  ∀ s : State, s.cfgValid = true → s.arg.payLen = s.active.len → s.payReady s.len →
    ∃ t, exec .rsenc s = .next t ∧ t = { s with mem := t.mem, result := .ok } ∧
      (∀ i, i < s.len + s.parity → t.byteElem .cw i = some ((rsEncode s.parity (s.payload s.len)).getD i 0)) ∧
      ∀ a, ¬ inByteElems .cw (s.len + s.parity) a → t.mem.read a = s.mem.read a

/-- Rules R218 and R219: RSDEC writes the decoded message to PAY and reports the counts, or reports DECODE_FAIL and leaves
PAY alone; CW, ERAS and every other byte stay, and nothing else changes but RES_DECODE and RESULT. -/
def Obligations.RsdecWritesTheMessageOrReportsFailure : Prop :=
  ∀ s : State, s.cfgValid = true → s.cwReady s.ncw →
    (∀ m e n, rsDecode s.len s.parity (s.cwBytes s.ncw) (s.erasBits s.ncw) = .success m e n →
      ∃ t, exec .rsdec s = .next t ∧
        t = { s with
          mem := t.mem
          result := .ok
          res := { s.res with decode := 0#47 ++ 1#1 ++ BitVec.ofNat 8 n ++ BitVec.ofNat 8 e } } ∧
        (∀ i, i < m.length → t.byteElem .pay i = some (m.getD i 0)) ∧
        ∀ a, ¬ inByteElems .pay m.length a → t.mem.read a = s.mem.read a) ∧
    (∀ n, rsDecode s.len s.parity (s.cwBytes s.ncw) (s.erasBits s.ncw) = .failure n →
      exec .rsdec s =
        .next { s with
          result := .decodeFail
          res := { s.res with decode := 0#47 ++ 0#1 ++ BitVec.ofNat 8 n ++ 0#8 } })

/-- Rule R215: RsDecode returns the payload and counts of the codeword within the radius if there is one, and DecodeFailure
if there is none; at most one codeword lies within the radius, and the values at erased positions do not matter. -/
def Obligations.RsDecodeFindsTheCodewordWithinTheRadius : Prop :=
  ∀ (len p : Nat) (r : List Byte) (era : List Bool), RsShape len p r era →
    (∀ c, WithinRadius p r era c →
      rsDecode len p r era = .success (c.take len) (errorsOutside r era c) (erasureCount era)) ∧
    ((∀ c, ¬ WithinRadius p r era c) → rsDecode len p r era = .failure (erasureCount era)) ∧
    (∀ c d, WithinRadius p r era c → WithinRadius p r era d → c = d) ∧
    ∀ q : List Byte, q.length = r.length →
      (∀ i, i < r.length → era.getD i false = false → r.getD i 0 = q.getD i 0) →
      rsDecode len p r era = rsDecode len p q era

/-- Rules R215 and R218: a Success is never wrong inside the radius: it names a codeword with `2·e(c) + s ≤ P`, its payload
and its counts; a failure reports the number of erasures. -/
def Obligations.RsDecodeSuccessIsACodewordWithinTheRadius : Prop :=
  ∀ (len p : Nat) (r : List Byte) (era : List Bool),
    (∀ m e n, rsDecode len p r era = .success m e n →
      ∃ c, WithinRadius p r era c ∧ m = c.take len ∧ e = errorsOutside r era c ∧ n = erasureCount era) ∧
    (∀ n, rsDecode len p r era = .failure n → n = erasureCount era)

/-- Rules R198 and R215: the values at erased positions do not affect the decode result. -/
def Obligations.ErasedValuesDoNotMatter : Prop :=
  ∀ (len p : Nat) (r q : List Byte) (era : List Bool), r.length = q.length →
    (∀ i, i < r.length → era.getD i false = false → r.getD i 0 = q.getD i 0) →
    rsDecode len p r era = rsDecode len p q era

/-- Rule R219: an unmodified codeword with no erasures decodes to its payload with no errors. -/
def Obligations.UnmodifiedCodewordsDecode : Prop :=
  ∀ (p : Nat) (m : List Byte),
    rsDecode m.length p (rsEncode p m) (List.replicate (m.length + p) false) = .success m 0 0

/-! ### Interleaver (file 44) -/

/-- Rule R242: for every length, BuildShuffle is a permutation of the positions, and Apply and Unapply are inverses of each
other. -/
def Obligations.UnapplyInvertsApply : Prop :=
  ∀ n, 1 ≤ n → n ≤ 255 →
    (buildShuffle n).Perm (List.range n) ∧
    ∀ (α : Type) (d : α) (c : List α), c.length = n →
      unapplyPerm (buildShuffle n) (applyPerm d (buildShuffle n) c) = c ∧
      applyPerm d (buildShuffle n) (unapplyPerm (buildShuffle n) c) = c

/-- Rules R241, R243 and R244: ILV moves symbol PERM[i] and its erasure flag to position i, DILV symbol i and its flag to
position PERM[i]; both change no other byte and nothing else but RESULT. -/
def Obligations.InterleaverCommandsPermuteCwAndEras : Prop :=
  ∀ s : State, s.cfgValid = true → s.cwReady s.ncw → s.ncw ≤ 255 → s.permList = buildShuffle s.ncw →
    (∃ t, exec .ilv s = .next t ∧ t = { s with mem := t.mem, result := .ok } ∧
      (∀ i, i < s.ncw → t.byteElem .cw i = s.byteElem .cw (tableGet s.perm i 0).toNat ∧
        t.erasElem i = s.erasElem (tableGet s.perm i 0).toNat) ∧
      ∀ a, ¬ inByteElems .cw s.ncw a → ¬ inByteElems .eras s.ncw a → t.mem.read a = s.mem.read a) ∧
    (∃ t, exec .dilv s = .next t ∧ t = { s with mem := t.mem, result := .ok } ∧
      (∀ i, i < s.ncw → t.byteElem .cw (tableGet s.perm i 0).toNat = s.byteElem .cw i ∧
        t.erasElem (tableGet s.perm i 0).toNat = s.erasElem i) ∧
      ∀ a, ¬ inByteElems .cw s.ncw a → ¬ inByteElems .eras s.ncw a → t.mem.read a = s.mem.read a)

/-- Rule R243: ILV followed by DILV restores both buffers exactly: the whole state is as before but for RESULT. That equal
memories are equal lists of cells is the model's canonical form (log entry 9). -/
def Obligations.IlvThenDilvRestoresTheState : Prop :=
  ∀ s : State, Inv s → s.cfgValid = true → s.cwReady s.ncw →
    ∃ t, exec .ilv s = .next t ∧ exec .dilv t = .next { s with result := .ok }

/-! ### Synthesizer (file 46) -/

/-- Rules R281, R282 and R284: SYNTH k writes window k of the frame to OBUF[0..N): a preamble tone for k = 0 and 1 (PAY is not
read), the two half-amplitude tones of symbol k - 2 of the interleaved codeword otherwise; no byte outside OBUF[0..N) changes
and nothing else but RESULT. -/
def Obligations.SynthWritesOneWindowOfTheFrame : Prop :=
  ∀ (s : State) (k : Nat), s.cfgValid = true → s.arg.payLen = s.active.len → k < s.len + s.parity + 2 →
    fFinite s.arg.amplitude = true → fGt s.arg.amplitude fZero = true → (k < 2 ∨ s.payReady s.len) →
    let w : Nat → F64 := fun slot => fDiv (fMul Config.twoPi (tableGet s.freq slot 0)) s.active.fs
    let y : Nat := ((applyPerm 0 s.permList (rsEncode s.parity (s.payload s.len))).getD (k - 2) 0).toNat
    let h : F64 := fMul s.arg.amplitude fHalf
    ∃ t, exec (.synth k) s = .next t ∧ t = { s with mem := t.mem, result := .ok } ∧
      (∀ i, i < s.windowLen → t.sample .obuf i = some
        (if k = 0 then fMul s.arg.amplitude (Config.sin64 (fMul (w s.active.ta.toNat) (fOfNat i)))
          else if k = 1 then fMul s.arg.amplitude (Config.sin64 (fMul (w s.active.tb.toNat) (fOfNat i)))
          else fAdd (fMul h (Config.sin64 (fMul (w (y % 16)) (fOfNat i))))
            (fMul h (Config.sin64 (fMul (w (16 + y / 16)) (fOfNat i)))))) ∧
      ∀ a, ¬ inWords .obuf s.windowLen a → t.mem.read a = s.mem.read a

/-! ### Feed engine and trigger (files 45 and 47) -/

/-- Rules R300 and R301: SRESET sets every session field to its initial value, in every state, and changes nothing else but
RESULT; a word with OP 0x02 and any other bit set is illegal. -/
def Obligations.SresetResetsTheSession : Prop :=
  (∀ s : State, exec .sreset s =
    .next { s with
      ses :=
        { engine := .idle, trigSub := .searching, feedStatus := .processing, trigValid := false,
          payloadValid := false, offset := 0, trigIndex := 0, accCount := 0, candOffset := 0, decode := 0,
          lastSymbol := 0 }
      result := .ok }) ∧
  decode 0x2#64 = .ok .sreset ∧ ∀ v : Word, fieldOp v = 2 → v ≠ 2 → ∃ r, decode v = .error r

/-- Rules R262, R302 and R303, the rows of IDLE, COMPLETE and FAILED: a FEED that starts there first gives way to
IDLE/SEARCHING if a result was pending, and then makes the one transition its window's two tests decide. `start` is the
stream index, ARG_OFFSET for `feed.o`. -/
def Obligations.FeedMakesOneTriggerTransition : Prop :=
  ∀ (s : State) (f : Bool), s.cfgValid = true → s.arg.winLen = s.drv.windowLen → s.winReady s.windowLen →
    s.ses.engine ≠ .triggered →
    let x := s.window s.windowLen
    let start : Word := if f then s.arg.offset else s.ses.offset
    let sub : TrigSub := if s.ses.engine = .idle then s.ses.trigSub else .searching
    let ma := trigDecide s.active.snr (power x s.active.fs (tableGet s.freq s.active.ta.toNat 0)) (meanSq x)
    let mb := trigDecide s.active.snr (power x s.active.fs (tableGet s.freq s.active.tb.toNat 0)) (meanSq x)
    let u : Session := { s.ses with engine := .idle, feedStatus := .processing, offset := start + s.drv.windowLen }
    (sub = .searching → ma = true → exec (.feed f) s =
      .next { s with result := .ok, ses := { u with trigSub := .candidate, candOffset := start } }) ∧
    (sub = .searching → ma = false → exec (.feed f) s =
      .next { s with result := .ok, ses := { u with trigSub := .searching } }) ∧
    (sub = .candidate → mb = true → exec (.feed f) s =
      .next { s with
        result := .ok
        irqPend := s.irqPend ||| 0b0100#4
        ses := { u with
          engine := .triggered, trigSub := .searching, trigIndex := s.ses.candOffset, trigValid := true, accCount := 0,
          payloadValid := false, decode := 0 } }) ∧
    (sub = .candidate → mb = false → ma = true → exec (.feed f) s =
      .next { s with result := .ok, ses := { u with trigSub := .candidate, candOffset := start } }) ∧
    (sub = .candidate → mb = false → ma = false → exec (.feed f) s =
      .next { s with result := .ok, ses := { u with trigSub := .searching } })

/-- Rules R302, R303 and R304, the rows of TRIGGERED: a FEED puts the window's symbol into the accumulator at SES_ACC_COUNT,
an erasure included; the one that makes the count NCW de-interleaves and decodes the body and is COMPLETE with the payload in
RXPAY, or FAILED. -/
def Obligations.FeedAccumulatesAndDecodesTheBody : Prop :=
  ∀ (s : State) (f : Bool), s.cfgValid = true → s.arg.winLen = s.drv.windowLen → s.winReady s.windowLen →
    s.ses.engine = .triggered → s.ses.accCount.toNat < 255 →
    let y := detectSymbol (s.window s.windowLen) s.active.fs s.active.er (fun i => tableGet s.freq i 0)
    let start : Word := if f then s.arg.offset else s.ses.offset
    let acc := s.acc.setIfInBounds s.ses.accCount.toNat y.value
    let acce := s.acce.setIfInBounds s.ses.accCount.toNat y.erasure
    let u : Session := { s.ses with
      lastSymbol := 0#32 ++ y.slot1 ++ y.slot0 ++ 0#7 ++ BitVec.ofBool y.erasure ++ y.value
      accCount := s.ses.accCount + 1
      offset := start + s.drv.windowLen }
    let r := rsDecode s.len s.parity (unapplyPerm s.permList (tableTake acc s.ncw))
      (unapplyPerm s.permList (tableTake acce s.ncw))
    (tableGet acc s.ses.accCount.toNat 0 = y.value ∧ tableGet acce s.ses.accCount.toNat false = y.erasure) ∧
    (s.ses.accCount + 1 ≠ s.drv.codewordLen → exec (.feed f) s =
      .next { s with result := .ok, acc := acc, acce := acce, ses := { u with feedStatus := .processing } }) ∧
    (s.ses.accCount + 1 = s.drv.codewordLen → ∀ m e n, r = .success m e n → exec (.feed f) s =
      .next { s with
        result := .ok, acc := acc, acce := acce
        rxpay := tableWrite s.rxpay m
        irqPend := s.irqPend ||| 0b0001#4
        ses := { u with
          feedStatus := .messageComplete, engine := .complete, payloadValid := true
          decode := 0#47 ++ 1#1 ++ BitVec.ofNat 8 n ++ BitVec.ofNat 8 e } }) ∧
    (s.ses.accCount + 1 = s.drv.codewordLen → ∀ n, r = .failure n → exec (.feed f) s =
      .next { s with
        result := .ok, acc := acc, acce := acce
        irqPend := s.irqPend ||| 0b0010#4
        ses := { u with
          feedStatus := .messageFailed, engine := .failed
          decode := 0#47 ++ 0#1 ++ BitVec.ofNat 8 n ++ 0#8 } })

/-- Rule R267: k + 1 all-zero windows fed in IDLE/SEARCHING leave every session field unchanged except SES_OFFSET, which
advances by N for each (FEED_STATUS is processing), whatever COS64 is; the run is one of k + 1 steps over pending FEED
commands, which also moves the counter of free values on (log entries 1 and 6, the model's own fields). -/
def Obligations.SilentWindowsOnlyAdvanceTheStreamOffset : Prop :=
  ∀ (k : Nat) (s : State) (rest : List HostAccess), s.cfgValid = true → s.arg.winLen = s.drv.windowLen →
    (∀ i, i < s.windowLen → s.sample .win i = some fZero) → s.ses.engine = .idle → s.ses.trigSub = .searching →
    Host.Core.run Sys2Proof.core (k + 1)
        { s with hostQueue := List.replicate (k + 1) (.write 64 (s.params.platformBase + 0x008) 0x3#64) ++ rest } =
      .next { s with
        hostQueue := rest
        cmd := 0x3#64
        freeEpoch := s.freeEpoch + (k + 1)
        result := .ok
        ses := { s.ses with
          feedStatus := .processing, offset := s.ses.offset + BitVec.ofNat 64 (k + 1) * s.drv.windowLen } }

/-! ### Whole-machine rules -/

/-- Rule R374: the analysis, codec and synthesis commands, MAP and NOP read no session field and write none, and only FEED,
SRESET, CONFIG and reset touch the session. -/
def Obligations.AnalysisCommandsAreSessionNeutral : Prop :=
  (∀ (i : Instr) (s : State) (u : Session), (∀ f, i ≠ .feed f) → i ≠ .sreset → i ≠ .config →
    exec i { s with ses := u } = mapState (fun t => { t with ses := u }) (exec i s) ∧
    ∀ t, exec i s = .next t → t.ses = s.ses) ∧
  ∀ (s t : State) (a : BusAccess), perform s a = .next t → t.ses ≠ s.ses →
    a = .reset ∨ ∃ v, a = .write 64 0x008#22 v ∧
      (decode v = .ok .sreset ∨ decode v = .ok .config ∨ ∃ f, decode v = .ok (.feed f))

/-- Rules R370, R94 and R142: writing a configuration register changes nothing but that register and the model's counter of
free values, which moves on with every write (the model's choice, log entry 6); no command but CONFIG reads one, none writes
one, and no command but CONFIG changes the active configuration, a derived table or a derived register. -/
def Obligations.ConfigurationIsCapturedNotLive : Prop :=
  (∀ r ∈ [Reg.cfgSampleRate, .cfgFirstFreq, .cfgRatio, .cfgIncrement, .cfgWordTime, .cfgPayloadLen, .cfgTrig, .cfgSnr,
      .cfgErasureRatio],
    ∀ (s : State) (v : Word), ∃ t, perform s (.write 64 (BitVec.ofNat 22 r.offset) v) = .next t ∧
      t = { s with cfg := t.cfg, freeEpoch := s.freeEpoch + 1 } ∧ t.readReg r = v ∧
      ∀ q, q ≠ r → t.readReg q = s.readReg q) ∧
  (∀ (i : Instr) (s t : State), exec i s = .next t → t.cfg = s.cfg) ∧
  ∀ (i : Instr) (s : State), i ≠ .config →
    (∀ c : CfgRegs, exec i { s with cfg := c } = mapState (fun t => { t with cfg := c }) (exec i s)) ∧
    ∀ t, exec i s = .next t →
      t.active = s.active ∧ t.drv = s.drv ∧ t.freq = s.freq ∧ t.perm = s.perm ∧ t.cfgValid = s.cfgValid ∧
        t.cfgErr = s.cfgErr

/-- Rules R373 and R38: no command changes WIN or an argument register: only the host writes them. -/
def Obligations.CommandsNeverWriteWinOrArguments : Prop :=
  ∀ (i : Instr) (s t : State), Inv s → exec i s = .next t →
    t.arg = s.arg ∧ ∀ a, 0x100000 ≤ a → a ≤ 0x1FFFFF → t.mem.read a = s.mem.read a

/-- Rule R305: RXPAY reads 0 while PAYLOAD_VALID is 0; PAYLOAD_VALID becomes 1 only on a successful decode, which
FEED_STATUS, ENGINE_STATE and SES_DECODE.OK show; and after a failed decode, as after a trigger, it is 0. -/
def Obligations.PayloadIsExposedOnlyByASuccessfulDecode : Prop :=
  (∀ (s : State) (i : Nat) (a : Addr), s.ses.payloadValid = false → s.readElem .rxpay i a = 0) ∧
  (∀ s t : State, step s = .next t → s.ses.payloadValid = false → t.ses.payloadValid = true →
    t.ses.engine = .complete ∧ t.ses.feedStatus = .messageComplete ∧ t.ses.decode.getLsbD 16 = true) ∧
  (∀ s t : State, Inv s → step s = .next t → t.ses.engine = .failed ∨ t.ses.engine = .triggered →
    t.ses.payloadValid = false)

/-- Rules R6, R33, R43, R304, R305 and R363 as one invariant (`Inv`): every step from a state that meets it leads to a state
that meets it, and the parameters never change. -/
def Obligations.StepKeepsTheInvariant : Prop :=
  ∀ s t : State, Inv s → step s = .next t → Inv t ∧ t.params = s.params

/-- The state after reset meets the invariant. -/
def Obligations.ResetMeetsTheInvariant : Prop := Inv State.reset

/-- Rules R360, R361 and R364: what every register reads after reset, that no stored buffer element has a value, that the
hardware reset leads there from any state, and that CONFIG right after it fails with CFG_ERR = 1. WIN_MAX stays what it is
(log entry 3). -/
def Obligations.ResetValuesOfEveryRegister : Prop :=
  (∀ (s : State), ∃ t, perform s .reset = .next t ∧ t.mem = [] ∧ t.irq = false ∧ t.ses = Session.initial ∧
    ∀ r : Reg, t.readReg r =
      match r with
      | .id => 0x0000000151525443#64
      | .cfgErasureRatio => 0x4010000000000000#64
      | .drvNumSlots => 32#64
      | .drvWinMax => BitVec.ofNat 64 s.params.winMax
      | _ => 0#64) ∧
  State.reset.mem = [] ∧ State.reset.irq = false ∧
  (∀ r : Reg, State.reset.readReg r =
    match r with
    | .id => 0x0000000151525443#64
    | .cfgErasureRatio => 0x4010000000000000#64
    | .drvNumSlots => 32#64
    | .drvWinMax => 65536#64
    | _ => 0#64) ∧
  ∃ t, exec .config State.reset = .next t ∧ t.cfgErr = 1 ∧ t.readReg .status = 0x3#64
end

