-- ==== Sys2Proof/Laws/State.lean ====
section
/-! SUPPORT. One lemma per field per named update of the state, each true by unfolding, so that no later proof unfolds a
record update. -/

namespace Sys2Proof.Machine

/-! ### `State.done` -/

@[simp] theorem State.done_params (s : State) : s.done.params = s.params := rfl
@[simp] theorem State.done_cmd (s : State) : s.done.cmd = s.cmd := rfl
@[simp] theorem State.done_result (s : State) : s.done.result = .ok := rfl
@[simp] theorem State.done_cfgValid (s : State) : s.done.cfgValid = s.cfgValid := rfl
@[simp] theorem State.done_err (s : State) : s.done.err = s.err := rfl
@[simp] theorem State.done_irqEn (s : State) : s.done.irqEn = s.irqEn := rfl
@[simp] theorem State.done_irqPend (s : State) : s.done.irqPend = s.irqPend := rfl
@[simp] theorem State.done_cfg (s : State) : s.done.cfg = s.cfg := rfl
@[simp] theorem State.done_drv (s : State) : s.done.drv = s.drv := rfl
@[simp] theorem State.done_cfgErr (s : State) : s.done.cfgErr = s.cfgErr := rfl
@[simp] theorem State.done_arg (s : State) : s.done.arg = s.arg := rfl
@[simp] theorem State.done_res (s : State) : s.done.res = s.res := rfl
@[simp] theorem State.done_ses (s : State) : s.done.ses = s.ses := rfl
@[simp] theorem State.done_freq (s : State) : s.done.freq = s.freq := rfl
@[simp] theorem State.done_perm (s : State) : s.done.perm = s.perm := rfl
@[simp] theorem State.done_rxpay (s : State) : s.done.rxpay = s.rxpay := rfl
@[simp] theorem State.done_mem (s : State) : s.done.mem = s.mem := rfl
@[simp] theorem State.done_active (s : State) : s.done.active = s.active := rfl
@[simp] theorem State.done_acc (s : State) : s.done.acc = s.acc := rfl
@[simp] theorem State.done_acce (s : State) : s.done.acce = s.acce := rfl
@[simp] theorem State.done_hostQueue (s : State) : s.done.hostQueue = s.hostQueue := rfl
@[simp] theorem State.done_busData (s : State) : s.done.busData = s.busData := rfl
@[simp] theorem State.done_freeEpoch (s : State) : s.done.freeEpoch = s.freeEpoch := rfl

/-! ### `State.doneDecodeFail` -/

@[simp] theorem State.doneDecodeFail_params (s : State) : s.doneDecodeFail.params = s.params := rfl
@[simp] theorem State.doneDecodeFail_cmd (s : State) : s.doneDecodeFail.cmd = s.cmd := rfl
@[simp] theorem State.doneDecodeFail_result (s : State) : s.doneDecodeFail.result = .decodeFail := rfl
@[simp] theorem State.doneDecodeFail_cfgValid (s : State) : s.doneDecodeFail.cfgValid = s.cfgValid := rfl
@[simp] theorem State.doneDecodeFail_err (s : State) : s.doneDecodeFail.err = s.err := rfl
@[simp] theorem State.doneDecodeFail_irqEn (s : State) : s.doneDecodeFail.irqEn = s.irqEn := rfl
@[simp] theorem State.doneDecodeFail_irqPend (s : State) : s.doneDecodeFail.irqPend = s.irqPend := rfl
@[simp] theorem State.doneDecodeFail_cfg (s : State) : s.doneDecodeFail.cfg = s.cfg := rfl
@[simp] theorem State.doneDecodeFail_drv (s : State) : s.doneDecodeFail.drv = s.drv := rfl
@[simp] theorem State.doneDecodeFail_cfgErr (s : State) : s.doneDecodeFail.cfgErr = s.cfgErr := rfl
@[simp] theorem State.doneDecodeFail_arg (s : State) : s.doneDecodeFail.arg = s.arg := rfl
@[simp] theorem State.doneDecodeFail_res (s : State) : s.doneDecodeFail.res = s.res := rfl
@[simp] theorem State.doneDecodeFail_ses (s : State) : s.doneDecodeFail.ses = s.ses := rfl
@[simp] theorem State.doneDecodeFail_freq (s : State) : s.doneDecodeFail.freq = s.freq := rfl
@[simp] theorem State.doneDecodeFail_perm (s : State) : s.doneDecodeFail.perm = s.perm := rfl
@[simp] theorem State.doneDecodeFail_rxpay (s : State) : s.doneDecodeFail.rxpay = s.rxpay := rfl
@[simp] theorem State.doneDecodeFail_mem (s : State) : s.doneDecodeFail.mem = s.mem := rfl
@[simp] theorem State.doneDecodeFail_active (s : State) : s.doneDecodeFail.active = s.active := rfl
@[simp] theorem State.doneDecodeFail_acc (s : State) : s.doneDecodeFail.acc = s.acc := rfl
@[simp] theorem State.doneDecodeFail_acce (s : State) : s.doneDecodeFail.acce = s.acce := rfl
@[simp] theorem State.doneDecodeFail_hostQueue (s : State) : s.doneDecodeFail.hostQueue = s.hostQueue := rfl
@[simp] theorem State.doneDecodeFail_busData (s : State) : s.doneDecodeFail.busData = s.busData := rfl
@[simp] theorem State.doneDecodeFail_freeEpoch (s : State) : s.doneDecodeFail.freeEpoch = s.freeEpoch := rfl

/-! ### `State.raise` -/

@[simp] theorem State.raise_params (s : State) (c : ErrCode) : (s.raise c).params = s.params := rfl
@[simp] theorem State.raise_cmd (s : State) (c : ErrCode) : (s.raise c).cmd = s.cmd := rfl
@[simp] theorem State.raise_result (s : State) (c : ErrCode) : (s.raise c).result = .error c := rfl
@[simp] theorem State.raise_cfgValid (s : State) (c : ErrCode) : (s.raise c).cfgValid = s.cfgValid := rfl
@[simp] theorem State.raise_err (s : State) (c : ErrCode) : (s.raise c).err = s.err ||| c.errBit := rfl
@[simp] theorem State.raise_irqEn (s : State) (c : ErrCode) : (s.raise c).irqEn = s.irqEn := rfl
@[simp] theorem State.raise_irqPend (s : State) (c : ErrCode) : (s.raise c).irqPend = s.irqPend ||| irqError := rfl
@[simp] theorem State.raise_cfg (s : State) (c : ErrCode) : (s.raise c).cfg = s.cfg := rfl
@[simp] theorem State.raise_drv (s : State) (c : ErrCode) : (s.raise c).drv = s.drv := rfl
@[simp] theorem State.raise_cfgErr (s : State) (c : ErrCode) : (s.raise c).cfgErr = s.cfgErr := rfl
@[simp] theorem State.raise_arg (s : State) (c : ErrCode) : (s.raise c).arg = s.arg := rfl
@[simp] theorem State.raise_res (s : State) (c : ErrCode) : (s.raise c).res = s.res := rfl
@[simp] theorem State.raise_ses (s : State) (c : ErrCode) : (s.raise c).ses = s.ses := rfl
@[simp] theorem State.raise_freq (s : State) (c : ErrCode) : (s.raise c).freq = s.freq := rfl
@[simp] theorem State.raise_perm (s : State) (c : ErrCode) : (s.raise c).perm = s.perm := rfl
@[simp] theorem State.raise_rxpay (s : State) (c : ErrCode) : (s.raise c).rxpay = s.rxpay := rfl
@[simp] theorem State.raise_mem (s : State) (c : ErrCode) : (s.raise c).mem = s.mem := rfl
@[simp] theorem State.raise_active (s : State) (c : ErrCode) : (s.raise c).active = s.active := rfl
@[simp] theorem State.raise_acc (s : State) (c : ErrCode) : (s.raise c).acc = s.acc := rfl
@[simp] theorem State.raise_acce (s : State) (c : ErrCode) : (s.raise c).acce = s.acce := rfl
@[simp] theorem State.raise_hostQueue (s : State) (c : ErrCode) : (s.raise c).hostQueue = s.hostQueue := rfl
@[simp] theorem State.raise_busData (s : State) (c : ErrCode) : (s.raise c).busData = s.busData := rfl
@[simp] theorem State.raise_freeEpoch (s : State) (c : ErrCode) : (s.raise c).freeEpoch = s.freeEpoch := rfl

/-! ### `State.busError` -/

@[simp] theorem State.busError_params (s : State) : s.busError.params = s.params := rfl
@[simp] theorem State.busError_cmd (s : State) : s.busError.cmd = s.cmd := rfl
@[simp] theorem State.busError_result (s : State) : s.busError.result = s.result := rfl
@[simp] theorem State.busError_cfgValid (s : State) : s.busError.cfgValid = s.cfgValid := rfl
@[simp] theorem State.busError_err (s : State) : s.busError.err = s.err ||| errBus := rfl
@[simp] theorem State.busError_irqEn (s : State) : s.busError.irqEn = s.irqEn := rfl
@[simp] theorem State.busError_irqPend (s : State) : s.busError.irqPend = s.irqPend ||| irqError := rfl
@[simp] theorem State.busError_cfg (s : State) : s.busError.cfg = s.cfg := rfl
@[simp] theorem State.busError_drv (s : State) : s.busError.drv = s.drv := rfl
@[simp] theorem State.busError_cfgErr (s : State) : s.busError.cfgErr = s.cfgErr := rfl
@[simp] theorem State.busError_arg (s : State) : s.busError.arg = s.arg := rfl
@[simp] theorem State.busError_res (s : State) : s.busError.res = s.res := rfl
@[simp] theorem State.busError_ses (s : State) : s.busError.ses = s.ses := rfl
@[simp] theorem State.busError_freq (s : State) : s.busError.freq = s.freq := rfl
@[simp] theorem State.busError_perm (s : State) : s.busError.perm = s.perm := rfl
@[simp] theorem State.busError_rxpay (s : State) : s.busError.rxpay = s.rxpay := rfl
@[simp] theorem State.busError_mem (s : State) : s.busError.mem = s.mem := rfl
@[simp] theorem State.busError_active (s : State) : s.busError.active = s.active := rfl
@[simp] theorem State.busError_acc (s : State) : s.busError.acc = s.acc := rfl
@[simp] theorem State.busError_acce (s : State) : s.busError.acce = s.acce := rfl
@[simp] theorem State.busError_hostQueue (s : State) : s.busError.hostQueue = s.hostQueue := rfl
@[simp] theorem State.busError_busData (s : State) : s.busError.busData = s.busData := rfl
@[simp] theorem State.busError_freeEpoch (s : State) : s.busError.freeEpoch = s.freeEpoch := rfl

/-! ### `State.advanceFree` -/

@[simp] theorem State.advanceFree_params (s : State) : s.advanceFree.params = s.params := rfl
@[simp] theorem State.advanceFree_cmd (s : State) : s.advanceFree.cmd = s.cmd := rfl
@[simp] theorem State.advanceFree_result (s : State) : s.advanceFree.result = s.result := rfl
@[simp] theorem State.advanceFree_cfgValid (s : State) : s.advanceFree.cfgValid = s.cfgValid := rfl
@[simp] theorem State.advanceFree_err (s : State) : s.advanceFree.err = s.err := rfl
@[simp] theorem State.advanceFree_irqEn (s : State) : s.advanceFree.irqEn = s.irqEn := rfl
@[simp] theorem State.advanceFree_irqPend (s : State) : s.advanceFree.irqPend = s.irqPend := rfl
@[simp] theorem State.advanceFree_cfg (s : State) : s.advanceFree.cfg = s.cfg := rfl
@[simp] theorem State.advanceFree_drv (s : State) : s.advanceFree.drv = s.drv := rfl
@[simp] theorem State.advanceFree_cfgErr (s : State) : s.advanceFree.cfgErr = s.cfgErr := rfl
@[simp] theorem State.advanceFree_arg (s : State) : s.advanceFree.arg = s.arg := rfl
@[simp] theorem State.advanceFree_res (s : State) : s.advanceFree.res = s.res := rfl
@[simp] theorem State.advanceFree_ses (s : State) : s.advanceFree.ses = s.ses := rfl
@[simp] theorem State.advanceFree_freq (s : State) : s.advanceFree.freq = s.freq := rfl
@[simp] theorem State.advanceFree_perm (s : State) : s.advanceFree.perm = s.perm := rfl
@[simp] theorem State.advanceFree_rxpay (s : State) : s.advanceFree.rxpay = s.rxpay := rfl
@[simp] theorem State.advanceFree_mem (s : State) : s.advanceFree.mem = s.mem := rfl
@[simp] theorem State.advanceFree_active (s : State) : s.advanceFree.active = s.active := rfl
@[simp] theorem State.advanceFree_acc (s : State) : s.advanceFree.acc = s.acc := rfl
@[simp] theorem State.advanceFree_acce (s : State) : s.advanceFree.acce = s.acce := rfl
@[simp] theorem State.advanceFree_hostQueue (s : State) : s.advanceFree.hostQueue = s.hostQueue := rfl
@[simp] theorem State.advanceFree_busData (s : State) : s.advanceFree.busData = s.busData := rfl
@[simp] theorem State.advanceFree_freeEpoch (s : State) : s.advanceFree.freeEpoch = s.freeEpoch + 1 := rfl

/-! ### `State.sessionReset` -/

@[simp] theorem State.sessionReset_params (s : State) : s.sessionReset.params = s.params := rfl
@[simp] theorem State.sessionReset_cmd (s : State) : s.sessionReset.cmd = s.cmd := rfl
@[simp] theorem State.sessionReset_result (s : State) : s.sessionReset.result = s.result := rfl
@[simp] theorem State.sessionReset_cfgValid (s : State) : s.sessionReset.cfgValid = s.cfgValid := rfl
@[simp] theorem State.sessionReset_err (s : State) : s.sessionReset.err = s.err := rfl
@[simp] theorem State.sessionReset_irqEn (s : State) : s.sessionReset.irqEn = s.irqEn := rfl
@[simp] theorem State.sessionReset_irqPend (s : State) : s.sessionReset.irqPend = s.irqPend := rfl
@[simp] theorem State.sessionReset_cfg (s : State) : s.sessionReset.cfg = s.cfg := rfl
@[simp] theorem State.sessionReset_drv (s : State) : s.sessionReset.drv = s.drv := rfl
@[simp] theorem State.sessionReset_cfgErr (s : State) : s.sessionReset.cfgErr = s.cfgErr := rfl
@[simp] theorem State.sessionReset_arg (s : State) : s.sessionReset.arg = s.arg := rfl
@[simp] theorem State.sessionReset_res (s : State) : s.sessionReset.res = s.res := rfl
@[simp] theorem State.sessionReset_ses (s : State) : s.sessionReset.ses = Session.initial := rfl
@[simp] theorem State.sessionReset_freq (s : State) : s.sessionReset.freq = s.freq := rfl
@[simp] theorem State.sessionReset_perm (s : State) : s.sessionReset.perm = s.perm := rfl
@[simp] theorem State.sessionReset_rxpay (s : State) : s.sessionReset.rxpay = s.rxpay := rfl
@[simp] theorem State.sessionReset_mem (s : State) : s.sessionReset.mem = s.mem := rfl
@[simp] theorem State.sessionReset_active (s : State) : s.sessionReset.active = s.active := rfl
@[simp] theorem State.sessionReset_acc (s : State) : s.sessionReset.acc = s.acc := rfl
@[simp] theorem State.sessionReset_acce (s : State) : s.sessionReset.acce = s.acce := rfl
@[simp] theorem State.sessionReset_hostQueue (s : State) : s.sessionReset.hostQueue = s.hostQueue := rfl
@[simp] theorem State.sessionReset_busData (s : State) : s.sessionReset.busData = s.busData := rfl
@[simp] theorem State.sessionReset_freeEpoch (s : State) : s.sessionReset.freeEpoch = s.freeEpoch := rfl

/-! ### `State.storeObuf` -/

@[simp] theorem State.storeObuf_params (s : State) (xs : List F64) : (s.storeObuf xs).params = s.params := rfl
@[simp] theorem State.storeObuf_cmd (s : State) (xs : List F64) : (s.storeObuf xs).cmd = s.cmd := rfl
@[simp] theorem State.storeObuf_result (s : State) (xs : List F64) : (s.storeObuf xs).result = s.result := rfl
@[simp] theorem State.storeObuf_cfgValid (s : State) (xs : List F64) : (s.storeObuf xs).cfgValid = s.cfgValid := rfl
@[simp] theorem State.storeObuf_err (s : State) (xs : List F64) : (s.storeObuf xs).err = s.err := rfl
@[simp] theorem State.storeObuf_irqEn (s : State) (xs : List F64) : (s.storeObuf xs).irqEn = s.irqEn := rfl
@[simp] theorem State.storeObuf_irqPend (s : State) (xs : List F64) : (s.storeObuf xs).irqPend = s.irqPend := rfl
@[simp] theorem State.storeObuf_cfg (s : State) (xs : List F64) : (s.storeObuf xs).cfg = s.cfg := rfl
@[simp] theorem State.storeObuf_drv (s : State) (xs : List F64) : (s.storeObuf xs).drv = s.drv := rfl
@[simp] theorem State.storeObuf_cfgErr (s : State) (xs : List F64) : (s.storeObuf xs).cfgErr = s.cfgErr := rfl
@[simp] theorem State.storeObuf_arg (s : State) (xs : List F64) : (s.storeObuf xs).arg = s.arg := rfl
@[simp] theorem State.storeObuf_res (s : State) (xs : List F64) : (s.storeObuf xs).res = s.res := rfl
@[simp] theorem State.storeObuf_ses (s : State) (xs : List F64) : (s.storeObuf xs).ses = s.ses := rfl
@[simp] theorem State.storeObuf_freq (s : State) (xs : List F64) : (s.storeObuf xs).freq = s.freq := rfl
@[simp] theorem State.storeObuf_perm (s : State) (xs : List F64) : (s.storeObuf xs).perm = s.perm := rfl
@[simp] theorem State.storeObuf_rxpay (s : State) (xs : List F64) : (s.storeObuf xs).rxpay = s.rxpay := rfl
@[simp] theorem State.storeObuf_mem (s : State) (xs : List F64) : (s.storeObuf xs).mem = s.mem.writeWords Buf.obuf.base xs := rfl
@[simp] theorem State.storeObuf_active (s : State) (xs : List F64) : (s.storeObuf xs).active = s.active := rfl
@[simp] theorem State.storeObuf_acc (s : State) (xs : List F64) : (s.storeObuf xs).acc = s.acc := rfl
@[simp] theorem State.storeObuf_acce (s : State) (xs : List F64) : (s.storeObuf xs).acce = s.acce := rfl
@[simp] theorem State.storeObuf_hostQueue (s : State) (xs : List F64) : (s.storeObuf xs).hostQueue = s.hostQueue := rfl
@[simp] theorem State.storeObuf_busData (s : State) (xs : List F64) : (s.storeObuf xs).busData = s.busData := rfl
@[simp] theorem State.storeObuf_freeEpoch (s : State) (xs : List F64) : (s.storeObuf xs).freeEpoch = s.freeEpoch := rfl

/-! ### `State.storeBytes` -/

@[simp] theorem State.storeBytes_params (s : State) (b : Buf) (bs : List Byte) : (s.storeBytes b bs).params = s.params := rfl
@[simp] theorem State.storeBytes_cmd (s : State) (b : Buf) (bs : List Byte) : (s.storeBytes b bs).cmd = s.cmd := rfl
@[simp] theorem State.storeBytes_result (s : State) (b : Buf) (bs : List Byte) : (s.storeBytes b bs).result = s.result := rfl
@[simp] theorem State.storeBytes_cfgValid (s : State) (b : Buf) (bs : List Byte) : (s.storeBytes b bs).cfgValid = s.cfgValid := rfl
@[simp] theorem State.storeBytes_err (s : State) (b : Buf) (bs : List Byte) : (s.storeBytes b bs).err = s.err := rfl
@[simp] theorem State.storeBytes_irqEn (s : State) (b : Buf) (bs : List Byte) : (s.storeBytes b bs).irqEn = s.irqEn := rfl
@[simp] theorem State.storeBytes_irqPend (s : State) (b : Buf) (bs : List Byte) : (s.storeBytes b bs).irqPend = s.irqPend := rfl
@[simp] theorem State.storeBytes_cfg (s : State) (b : Buf) (bs : List Byte) : (s.storeBytes b bs).cfg = s.cfg := rfl
@[simp] theorem State.storeBytes_drv (s : State) (b : Buf) (bs : List Byte) : (s.storeBytes b bs).drv = s.drv := rfl
@[simp] theorem State.storeBytes_cfgErr (s : State) (b : Buf) (bs : List Byte) : (s.storeBytes b bs).cfgErr = s.cfgErr := rfl
@[simp] theorem State.storeBytes_arg (s : State) (b : Buf) (bs : List Byte) : (s.storeBytes b bs).arg = s.arg := rfl
@[simp] theorem State.storeBytes_res (s : State) (b : Buf) (bs : List Byte) : (s.storeBytes b bs).res = s.res := rfl
@[simp] theorem State.storeBytes_ses (s : State) (b : Buf) (bs : List Byte) : (s.storeBytes b bs).ses = s.ses := rfl
@[simp] theorem State.storeBytes_freq (s : State) (b : Buf) (bs : List Byte) : (s.storeBytes b bs).freq = s.freq := rfl
@[simp] theorem State.storeBytes_perm (s : State) (b : Buf) (bs : List Byte) : (s.storeBytes b bs).perm = s.perm := rfl
@[simp] theorem State.storeBytes_rxpay (s : State) (b : Buf) (bs : List Byte) : (s.storeBytes b bs).rxpay = s.rxpay := rfl
@[simp] theorem State.storeBytes_mem (s : State) (b : Buf) (bs : List Byte) : (s.storeBytes b bs).mem = s.mem.writeBytes b.base bs := rfl
@[simp] theorem State.storeBytes_active (s : State) (b : Buf) (bs : List Byte) : (s.storeBytes b bs).active = s.active := rfl
@[simp] theorem State.storeBytes_acc (s : State) (b : Buf) (bs : List Byte) : (s.storeBytes b bs).acc = s.acc := rfl
@[simp] theorem State.storeBytes_acce (s : State) (b : Buf) (bs : List Byte) : (s.storeBytes b bs).acce = s.acce := rfl
@[simp] theorem State.storeBytes_hostQueue (s : State) (b : Buf) (bs : List Byte) : (s.storeBytes b bs).hostQueue = s.hostQueue := rfl
@[simp] theorem State.storeBytes_busData (s : State) (b : Buf) (bs : List Byte) : (s.storeBytes b bs).busData = s.busData := rfl
@[simp] theorem State.storeBytes_freeEpoch (s : State) (b : Buf) (bs : List Byte) : (s.storeBytes b bs).freeEpoch = s.freeEpoch := rfl

/-! ### `State.storeEras` -/

@[simp] theorem State.storeEras_params (s : State) (es : List Bool) : (s.storeEras es).params = s.params := rfl
@[simp] theorem State.storeEras_cmd (s : State) (es : List Bool) : (s.storeEras es).cmd = s.cmd := rfl
@[simp] theorem State.storeEras_result (s : State) (es : List Bool) : (s.storeEras es).result = s.result := rfl
@[simp] theorem State.storeEras_cfgValid (s : State) (es : List Bool) : (s.storeEras es).cfgValid = s.cfgValid := rfl
@[simp] theorem State.storeEras_err (s : State) (es : List Bool) : (s.storeEras es).err = s.err := rfl
@[simp] theorem State.storeEras_irqEn (s : State) (es : List Bool) : (s.storeEras es).irqEn = s.irqEn := rfl
@[simp] theorem State.storeEras_irqPend (s : State) (es : List Bool) : (s.storeEras es).irqPend = s.irqPend := rfl
@[simp] theorem State.storeEras_cfg (s : State) (es : List Bool) : (s.storeEras es).cfg = s.cfg := rfl
@[simp] theorem State.storeEras_drv (s : State) (es : List Bool) : (s.storeEras es).drv = s.drv := rfl
@[simp] theorem State.storeEras_cfgErr (s : State) (es : List Bool) : (s.storeEras es).cfgErr = s.cfgErr := rfl
@[simp] theorem State.storeEras_arg (s : State) (es : List Bool) : (s.storeEras es).arg = s.arg := rfl
@[simp] theorem State.storeEras_res (s : State) (es : List Bool) : (s.storeEras es).res = s.res := rfl
@[simp] theorem State.storeEras_ses (s : State) (es : List Bool) : (s.storeEras es).ses = s.ses := rfl
@[simp] theorem State.storeEras_freq (s : State) (es : List Bool) : (s.storeEras es).freq = s.freq := rfl
@[simp] theorem State.storeEras_perm (s : State) (es : List Bool) : (s.storeEras es).perm = s.perm := rfl
@[simp] theorem State.storeEras_rxpay (s : State) (es : List Bool) : (s.storeEras es).rxpay = s.rxpay := rfl
@[simp] theorem State.storeEras_mem (s : State) (es : List Bool) : (s.storeEras es).mem = s.mem.writeBytes Buf.eras.base (es.map erasByte) := rfl
@[simp] theorem State.storeEras_active (s : State) (es : List Bool) : (s.storeEras es).active = s.active := rfl
@[simp] theorem State.storeEras_acc (s : State) (es : List Bool) : (s.storeEras es).acc = s.acc := rfl
@[simp] theorem State.storeEras_acce (s : State) (es : List Bool) : (s.storeEras es).acce = s.acce := rfl
@[simp] theorem State.storeEras_hostQueue (s : State) (es : List Bool) : (s.storeEras es).hostQueue = s.hostQueue := rfl
@[simp] theorem State.storeEras_busData (s : State) (es : List Bool) : (s.storeEras es).busData = s.busData := rfl
@[simp] theorem State.storeEras_freeEpoch (s : State) (es : List Bool) : (s.storeEras es).freeEpoch = s.freeEpoch := rfl

/-! ### Read accessors that the ends of a command leave alone -/

@[simp] theorem State.done_windowLen (s : State) : s.done.windowLen = s.windowLen := rfl
@[simp] theorem State.done_parity (s : State) : s.done.parity = s.parity := rfl
@[simp] theorem State.done_ncw (s : State) : s.done.ncw = s.ncw := rfl
@[simp] theorem State.done_len (s : State) : s.done.len = s.len := rfl
@[simp] theorem State.done_winCount (s : State) : s.done.winCount = s.winCount := rfl
@[simp] theorem State.done_permList (s : State) : s.done.permList = s.permList := rfl
@[simp] theorem State.done_winLenOk (s : State) : s.done.winLenOk = s.winLenOk := rfl
@[simp] theorem State.done_sample (s : State) (v : Buf) (i : Nat) : s.done.sample v i = s.sample v i := rfl
@[simp] theorem State.done_byteElem (s : State) (v : Buf) (i : Nat) : s.done.byteElem v i = s.byteElem v i := rfl
@[simp] theorem State.done_erasElem (s : State) (i : Nat) : s.done.erasElem i = s.erasElem i := rfl
@[simp] theorem State.done_slotFreq (s : State) (i : Nat) : s.done.slotFreq i = s.slotFreq i := rfl
@[simp] theorem State.doneDecodeFail_windowLen (s : State) : s.doneDecodeFail.windowLen = s.windowLen := rfl
@[simp] theorem State.doneDecodeFail_parity (s : State) : s.doneDecodeFail.parity = s.parity := rfl
@[simp] theorem State.doneDecodeFail_ncw (s : State) : s.doneDecodeFail.ncw = s.ncw := rfl
@[simp] theorem State.doneDecodeFail_len (s : State) : s.doneDecodeFail.len = s.len := rfl
@[simp] theorem State.doneDecodeFail_winCount (s : State) : s.doneDecodeFail.winCount = s.winCount := rfl
@[simp] theorem State.doneDecodeFail_permList (s : State) : s.doneDecodeFail.permList = s.permList := rfl
@[simp] theorem State.doneDecodeFail_winLenOk (s : State) : s.doneDecodeFail.winLenOk = s.winLenOk := rfl
@[simp] theorem State.doneDecodeFail_sample (s : State) (v : Buf) (i : Nat) : s.doneDecodeFail.sample v i = s.sample v i := rfl
@[simp] theorem State.doneDecodeFail_byteElem (s : State) (v : Buf) (i : Nat) : s.doneDecodeFail.byteElem v i = s.byteElem v i := rfl
@[simp] theorem State.doneDecodeFail_erasElem (s : State) (i : Nat) : s.doneDecodeFail.erasElem i = s.erasElem i := rfl
@[simp] theorem State.doneDecodeFail_slotFreq (s : State) (i : Nat) : s.doneDecodeFail.slotFreq i = s.slotFreq i := rfl
@[simp] theorem State.raise_windowLen (s : State) (c : ErrCode) : (s.raise c).windowLen = s.windowLen := rfl
@[simp] theorem State.raise_parity (s : State) (c : ErrCode) : (s.raise c).parity = s.parity := rfl
@[simp] theorem State.raise_ncw (s : State) (c : ErrCode) : (s.raise c).ncw = s.ncw := rfl
@[simp] theorem State.raise_len (s : State) (c : ErrCode) : (s.raise c).len = s.len := rfl
@[simp] theorem State.raise_winCount (s : State) (c : ErrCode) : (s.raise c).winCount = s.winCount := rfl
@[simp] theorem State.raise_permList (s : State) (c : ErrCode) : (s.raise c).permList = s.permList := rfl
@[simp] theorem State.raise_winLenOk (s : State) (c : ErrCode) : (s.raise c).winLenOk = s.winLenOk := rfl
@[simp] theorem State.raise_sample (s : State) (c : ErrCode) (v : Buf) (i : Nat) : (s.raise c).sample v i = s.sample v i := rfl
@[simp] theorem State.raise_byteElem (s : State) (c : ErrCode) (v : Buf) (i : Nat) : (s.raise c).byteElem v i = s.byteElem v i := rfl
@[simp] theorem State.raise_erasElem (s : State) (c : ErrCode) (i : Nat) : (s.raise c).erasElem i = s.erasElem i := rfl
@[simp] theorem State.raise_slotFreq (s : State) (c : ErrCode) (i : Nat) : (s.raise c).slotFreq i = s.slotFreq i := rfl
@[simp] theorem State.busError_windowLen (s : State) : s.busError.windowLen = s.windowLen := rfl
@[simp] theorem State.busError_parity (s : State) : s.busError.parity = s.parity := rfl
@[simp] theorem State.busError_ncw (s : State) : s.busError.ncw = s.ncw := rfl
@[simp] theorem State.busError_len (s : State) : s.busError.len = s.len := rfl
@[simp] theorem State.busError_winCount (s : State) : s.busError.winCount = s.winCount := rfl
@[simp] theorem State.busError_permList (s : State) : s.busError.permList = s.permList := rfl
@[simp] theorem State.busError_winLenOk (s : State) : s.busError.winLenOk = s.winLenOk := rfl
@[simp] theorem State.busError_sample (s : State) (v : Buf) (i : Nat) : s.busError.sample v i = s.sample v i := rfl
@[simp] theorem State.busError_byteElem (s : State) (v : Buf) (i : Nat) : s.busError.byteElem v i = s.byteElem v i := rfl
@[simp] theorem State.busError_erasElem (s : State) (i : Nat) : s.busError.erasElem i = s.erasElem i := rfl
@[simp] theorem State.busError_slotFreq (s : State) (i : Nat) : s.busError.slotFreq i = s.slotFreq i := rfl
@[simp] theorem State.advanceFree_windowLen (s : State) : s.advanceFree.windowLen = s.windowLen := rfl
@[simp] theorem State.advanceFree_parity (s : State) : s.advanceFree.parity = s.parity := rfl
@[simp] theorem State.advanceFree_ncw (s : State) : s.advanceFree.ncw = s.ncw := rfl
@[simp] theorem State.advanceFree_len (s : State) : s.advanceFree.len = s.len := rfl
@[simp] theorem State.advanceFree_winCount (s : State) : s.advanceFree.winCount = s.winCount := rfl
@[simp] theorem State.advanceFree_permList (s : State) : s.advanceFree.permList = s.permList := rfl
@[simp] theorem State.advanceFree_winLenOk (s : State) : s.advanceFree.winLenOk = s.winLenOk := rfl
@[simp] theorem State.advanceFree_sample (s : State) (v : Buf) (i : Nat) : s.advanceFree.sample v i = s.sample v i := rfl
@[simp] theorem State.advanceFree_byteElem (s : State) (v : Buf) (i : Nat) : s.advanceFree.byteElem v i = s.byteElem v i := rfl
@[simp] theorem State.advanceFree_erasElem (s : State) (i : Nat) : s.advanceFree.erasElem i = s.erasElem i := rfl
@[simp] theorem State.advanceFree_slotFreq (s : State) (i : Nat) : s.advanceFree.slotFreq i = s.slotFreq i := rfl
@[simp] theorem State.sessionReset_windowLen (s : State) : s.sessionReset.windowLen = s.windowLen := rfl
@[simp] theorem State.sessionReset_parity (s : State) : s.sessionReset.parity = s.parity := rfl
@[simp] theorem State.sessionReset_ncw (s : State) : s.sessionReset.ncw = s.ncw := rfl
@[simp] theorem State.sessionReset_len (s : State) : s.sessionReset.len = s.len := rfl
@[simp] theorem State.sessionReset_winCount (s : State) : s.sessionReset.winCount = s.winCount := rfl
@[simp] theorem State.sessionReset_permList (s : State) : s.sessionReset.permList = s.permList := rfl
@[simp] theorem State.sessionReset_winLenOk (s : State) : s.sessionReset.winLenOk = s.winLenOk := rfl
@[simp] theorem State.sessionReset_sample (s : State) (v : Buf) (i : Nat) : s.sessionReset.sample v i = s.sample v i := rfl
@[simp] theorem State.sessionReset_byteElem (s : State) (v : Buf) (i : Nat) : s.sessionReset.byteElem v i = s.byteElem v i := rfl
@[simp] theorem State.sessionReset_erasElem (s : State) (i : Nat) : s.sessionReset.erasElem i = s.erasElem i := rfl
@[simp] theorem State.sessionReset_slotFreq (s : State) (i : Nat) : s.sessionReset.slotFreq i = s.slotFreq i := rfl

end Sys2Proof.Machine
end

