-- ==== Sys2Proof/Laws/Memory.lean ====
section
/-! SUPPORT. The laws of byte memory: a read after a write, that writes leave other addresses alone, and that every
memory operation keeps the canonical form. -/

namespace Sys2Proof.Machine

/-! ### Read after write -/

@[simp] theorem Memory.read_nil (n : Nat) : Memory.read [] n = none := rfl

theorem Memory.read_write_same (m : Memory) (a : Nat) (v : Byte) : (m.write a v).read a = some v := by
  induction m with
  | nil => simp [Memory.write, Memory.read]
  | cons c rest ih =>
    obtain ⟨x, b⟩ := c
    simp only [Memory.write]
    split
    · simp [Memory.read]
    · split
      · simp [Memory.read]
      · have : ¬ x = a := by omega
        simp [Memory.read, this, ih]

theorem Memory.read_write_ne (m : Memory) (a n : Nat) (v : Byte) (h : n ≠ a) : (m.write a v).read n = m.read n := by
  induction m with
  | nil => simp [Memory.write, Memory.read, h.symm]
  | cons c rest ih =>
    obtain ⟨x, b⟩ := c
    simp only [Memory.write]
    split
    · simp [Memory.read, h.symm]
    · split
      · rename_i _ hx
        subst hx
        simp [Memory.read, h.symm]
      · by_cases hx : x = n
        · simp [Memory.read, hx]
        · simp [Memory.read, hx, ih]

/-- A byte read after one byte write. -/
theorem Memory.read_write (m : Memory) (a n : Nat) (v : Byte) :
    (m.write a v).read n = if n = a then some v else m.read n := by
  split
  · rename_i h; subst h; exact m.read_write_same _ v
  · rename_i h; exact m.read_write_ne a n v h

/-- A byte read after some lanes of a word have been written. -/
theorem Memory.read_writeLanes (v : Word) (a n : Nat) :
    ∀ (lanes : List Nat) (m : Memory),
      (m.writeLanes a v lanes).read n =
        if a ≤ n ∧ n - a ∈ lanes then some (v.lane (n - a)) else m.read n
  | [], m => by simp [Memory.writeLanes]
  | k :: ks, m => by
    have ih := Memory.read_writeLanes v a n ks (m.write (a + k) (v.lane k))
    simp only [Memory.writeLanes, List.foldl_cons] at ih ⊢
    rw [ih, Memory.read_write]
    by_cases hn : n = a + k
    · subst hn
      simp
    · by_cases hm : a ≤ n ∧ n - a ∈ ks
      · simp [hm]
      · have hk : ¬ (a ≤ n ∧ n - a = k) := by omega
        simp only [hm, hn, if_false, List.mem_cons]
        rw [if_neg]
        rintro ⟨h1, h2 | h2⟩
        · exact hk ⟨h1, h2⟩
        · exact hm ⟨h1, h2⟩

/-- A byte read after a word write (rule R87: byte `k` at `a + k`). -/
theorem Memory.read_writeWord (m : Memory) (a n : Nat) (v : Word) :
    (m.writeWord a v).read n = if a ≤ n ∧ n < a + 8 then some (v.lane (n - a)) else m.read n := by
  rw [Memory.writeWord, Memory.read_writeLanes]
  have : (a ≤ n ∧ n - a ∈ List.range 8) ↔ (a ≤ n ∧ n < a + 8) := by
    rw [List.mem_range]; omega
  simp only [this]

theorem Memory.readWord_congr {m m' : Memory} {a : Nat} (h : ∀ k, k < 8 → m.read (a + k) = m'.read (a + k)) :
    m.readWord a = m'.readWord a := by
  have h0 : m.read a = m'.read a := h 0 (by omega)
  simp only [Memory.readWord, h0, h 1 (by omega), h 2 (by omega), h 3 (by omega), h 4 (by omega), h 5 (by omega),
    h 6 (by omega), h 7 (by omega)]

theorem wordOfBytes_lanes (v : Word) :
    wordOfBytes (v.lane 0) (v.lane 1) (v.lane 2) (v.lane 3) (v.lane 4) (v.lane 5) (v.lane 6) (v.lane 7) = v := by
  apply BitVec.eq_of_getLsbD_eq
  intro i hi
  simp only [wordOfBytes, Word.lane, BitVec.getLsbD_append, BitVec.getLsbD_extractLsb']
  interval_cases i <;> simp

/-- A word read after it has been written. -/
theorem Memory.readWord_writeWord_same (m : Memory) (a : Nat) (v : Word) :
    (m.writeWord a v).readWord a = some v := by
  have h : ∀ k, k < 8 → (m.writeWord a v).read (a + k) = some (v.lane k) := by
    intro k hk
    rw [Memory.read_writeWord, if_pos (by omega)]
    congr 2
    omega
  have h0 : (m.writeWord a v).read a = some (v.lane 0) := h 0 (by omega)
  simp only [Memory.readWord, h0, h 1 (by omega), h 2 (by omega), h 3 (by omega), h 4 (by omega), h 5 (by omega),
    h 6 (by omega), h 7 (by omega), Option.bind_eq_bind, Option.bind_some, Option.pure_def]
  rw [wordOfBytes_lanes]

/-- A word read after another word has been written. -/
theorem Memory.readWord_writeWord_disjoint (m : Memory) (a n : Nat) (v : Word) (h : n + 8 ≤ a ∨ a + 8 ≤ n) :
    (m.writeWord a v).readWord n = m.readWord n := by
  apply Memory.readWord_congr
  intro k hk
  rw [Memory.read_writeWord, if_neg (by omega)]

/-- A byte outside the written words reads as before. -/
theorem Memory.read_writeWords_outside (n : Nat) :
    ∀ (vs : List Word) (m : Memory) (a : Nat), (n < a ∨ a + 8 * vs.length ≤ n) →
      (m.writeWords a vs).read n = m.read n
  | [], m, a, _ => rfl
  | v :: vs, m, a, h => by
    simp only [List.length_cons] at h
    rw [Memory.writeWords, Memory.read_writeWords_outside n vs _ _ (by omega), Memory.read_writeWord,
      if_neg (by omega)]

/-- Word `i` of the written words reads as it was written. -/
theorem Memory.readWord_writeWords :
    ∀ (vs : List Word) (m : Memory) (a i : Nat) (h : i < vs.length),
      (m.writeWords a vs).readWord (a + 8 * i) = some vs[i]
  | v :: vs, m, a, 0, _ => by
    simp only [Memory.writeWords, Nat.mul_zero, Nat.add_zero, List.getElem_cons_zero]
    rw [Memory.readWord_congr (m' := m.writeWord a v), Memory.readWord_writeWord_same]
    intro k hk
    exact Memory.read_writeWords_outside _ vs _ _ (by omega)
  | v :: vs, m, a, i + 1, h => by
    have ih := Memory.readWord_writeWords vs (m.writeWord a v) (a + 8) i (by simpa using h)
    simp only [Memory.writeWords, List.getElem_cons_succ]
    rw [show a + 8 * (i + 1) = a + 8 + 8 * i by omega]
    exact ih

/-- A byte that is none of the written elements' bytes reads as before. -/
theorem Memory.read_writeBytes_outside (n : Nat) :
    ∀ (bs : List Byte) (m : Memory) (a : Nat), (∀ i, i < bs.length → n ≠ a + 8 * i) →
      (m.writeBytes a bs).read n = m.read n
  | [], m, a, _ => rfl
  | b :: bs, m, a, h => by
    rw [Memory.writeBytes, Memory.read_writeBytes_outside n bs, Memory.read_write_ne]
    · exact h 0 (by simp)
    · intro i hi
      have := h (i + 1) (by simpa using hi)
      omega

/-- Element `i` of the written bytes reads as it was written. -/
theorem Memory.read_writeBytes :
    ∀ (bs : List Byte) (m : Memory) (a i : Nat) (h : i < bs.length), (m.writeBytes a bs).read (a + 8 * i) = some bs[i]
  | b :: bs, m, a, 0, _ => by
    simp only [Memory.writeBytes, Nat.mul_zero, Nat.add_zero, List.getElem_cons_zero]
    rw [Memory.read_writeBytes_outside, Memory.read_write_same]
    intro i _
    omega
  | b :: bs, m, a, i + 1, h => by
    have ih := Memory.read_writeBytes bs (m.write a b) (a + 8) i (by simpa using h)
    simp only [Memory.writeBytes, List.getElem_cons_succ]
    rw [show a + 8 * (i + 1) = a + 8 + 8 * i by omega]
    exact ih

/-! ### Every memory operation keeps the canonical form -/

/-- The listed addresses after a write. -/
theorem Memory.mem_write {m : Memory} {a : Nat} {v : Byte} {c : Host.Cell} (h : c ∈ m.write a v) :
    c = (a, v) ∨ c ∈ m := by
  induction m with
  | nil => simpa [Memory.write] using h
  | cons x rest ih =>
    obtain ⟨y, b⟩ := x
    simp only [Memory.write] at h
    split at h
    · simpa using h
    · split at h
      · rcases List.mem_cons.1 h with h | h
        · exact .inl h
        · exact .inr (List.mem_cons_of_mem _ h)
      · rcases List.mem_cons.1 h with h | h
        · exact .inr (h ▸ List.mem_cons_self)
        · exact (ih h).imp_right (List.mem_cons_of_mem _)

/-- A byte that reads is a listed cell. -/
theorem Memory.mem_of_read : ∀ {m : Memory} {a : Nat} {v : Byte}, m.read a = some v → (a, v) ∈ m
  | (b, w) :: rest, a, v, h => by
    rw [Memory.read] at h
    split at h
    · rename_i hb
      cases h
      exact hb ▸ List.mem_cons_self
    · exact List.mem_cons_of_mem _ (Memory.mem_of_read h)

theorem Memory.wf_nil : Memory.wf [] := List.Pairwise.nil

theorem Memory.wf_write {m : Memory} (a : Nat) (v : Byte) (h : m.wf) : (m.write a v).wf := by
  induction m with
  | nil => exact List.pairwise_singleton _ _
  | cons x rest ih =>
    obtain ⟨y, b⟩ := x
    obtain ⟨hy, hr⟩ := List.pairwise_cons.1 h
    simp only [Memory.write]
    split
    · rename_i hlt
      refine List.pairwise_cons.2 ⟨?_, h⟩
      intro c hc
      rcases List.mem_cons.1 hc with rfl | hc
      · exact hlt
      · exact Nat.lt_trans hlt (hy c hc)
    · split
      · rename_i _ heq
        subst heq
        exact List.pairwise_cons.2 ⟨hy, hr⟩
      · refine List.pairwise_cons.2 ⟨?_, ih hr⟩
        intro c hc
        rcases Memory.mem_write hc with rfl | hc
        · show y < a
          omega
        · exact hy c hc

theorem Memory.wf_writeLanes (a : Nat) (v : Word) :
    ∀ (lanes : List Nat) {m : Memory}, m.wf → (m.writeLanes a v lanes).wf
  | [], _, h => h
  | k :: ks, _, h => Memory.wf_writeLanes a v ks (Memory.wf_write (a + k) (v.lane k) h)

theorem Memory.wf_writeWord {m : Memory} (a : Nat) (v : Word) (h : m.wf) : (m.writeWord a v).wf :=
  Memory.wf_writeLanes a v _ h

theorem Memory.wf_writeWords : ∀ (vs : List Word) {m : Memory} (a : Nat), m.wf → (m.writeWords a vs).wf
  | [], _, _, h => h
  | v :: vs, _, a, h => Memory.wf_writeWords vs (a + 8) (Memory.wf_writeWord a v h)

theorem Memory.wf_writeBytes : ∀ (bs : List Byte) {m : Memory} (a : Nat), m.wf → (m.writeBytes a bs).wf
  | [], _, _, h => h
  | b :: bs, _, a, h => Memory.wf_writeBytes bs (a + 8) (Memory.wf_write a b h)

/-- Two canonical memories that read alike at every address are equal: equal memories are equal data. -/
theorem Memory.ext_of_read : ∀ {m m' : Memory}, m.wf → m'.wf → (∀ n, m.read n = m'.read n) → m = m'
  | [], [], _, _, _ => rfl
  | [], (a, b) :: _, _, _, h => by simpa [Memory.read] using h a
  | (a, b) :: _, [], _, _, h => by simpa [Memory.read] using h a
  | (a, b) :: r, (a', b') :: r', h1, h2, h => by
    have low : ∀ {x : Nat} {y : Byte} {l : Memory} {n : Nat}, Memory.wf ((x, y) :: l) → n ≤ x → l.read n = none := by
      intro x y l n hl hn
      have hp := (List.pairwise_cons.1 hl).1
      clear hl
      induction l with
      | nil => rfl
      | cons c t ih =>
        obtain ⟨z, w⟩ := c
        have hz : x < z := hp (z, w) List.mem_cons_self
        have : ¬ z = n := by omega
        simp only [Memory.read, this, if_false]
        exact ih (fun d hd => hp d (List.mem_cons_of_mem _ hd))
    have haa : a = a' := by
      rcases Nat.lt_trichotomy a a' with hlt | heq | hlt
      · have := h a
        have hne : ¬ a' = a := by omega
        simp only [Memory.read, if_true, hne, if_false, low h2 (Nat.le_of_lt hlt)] at this
        cases this
      · exact heq
      · have := h a'
        have hne : ¬ a = a' := by omega
        simp only [Memory.read, if_true, hne, if_false, low h1 (Nat.le_of_lt hlt)] at this
        cases this
    subst haa
    have hbb : b = b' := by simpa [Memory.read] using h a
    subst hbb
    have hr : ∀ n, Memory.read r n = Memory.read r' n := by
      intro n
      by_cases hn : a = n
      · subst hn
        rw [low h1 (Nat.le_refl _), low h2 (Nat.le_refl _)]
      · simpa [Memory.read, hn] using h n
    rw [Memory.ext_of_read (List.pairwise_cons.1 h1).2 (List.pairwise_cons.1 h2).2 hr]

/-- Reset memory is canonical. -/
theorem reset_mem_wf : Memory.wf State.reset.mem := Memory.wf_nil

end Sys2Proof.Machine
end

