-- ==== Sys2Proof/Laws/Operands.lean ====
section
/-! SUPPORT. One law for each shared operation on operands: `gather` and `withElems`, the fixed tables, buffer stores,
and `requireCfg`. -/

namespace Sys2Proof.Machine

/-! ### Reading operands -/

/-- `gather` from element `i` on answers the values when all have been written. -/
theorem gather_ok {α : Type} (f : Nat → Option α) (d : α) :
    ∀ (n i : Nat), (∀ k, k < n → (f (i + k)).isSome = true) →
      gather f i n = .ok ((List.range n).map (fun k => (f (i + k)).getD d))
  | 0, _, _ => rfl
  | n + 1, i, h => by
    have h0 := h 0 (by omega)
    obtain ⟨x, hx⟩ := Option.isSome_iff_exists.1 h0
    have hx' : f i = some x := hx
    have ih := gather_ok f d n (i + 1) (fun k hk => by
      have := h (k + 1) (by omega)
      rwa [show i + (k + 1) = i + 1 + k by omega] at this)
    rw [gather, hx', ih, List.range_succ_eq_map, List.map_cons, List.map_map]
    simp only [Nat.add_zero, hx', Option.getD_some, Function.comp_def]
    congr 3
    funext k
    rw [show i + (k + 1) = i + 1 + k by omega]

/-- `gather` answers the index of the first element that has no value. -/
theorem gather_error {α : Type} (f : Nat → Option α) :
    ∀ (n i j : Nat), j < n → f (i + j) = none → (∀ k, k < j → (f (i + k)).isSome = true) →
      gather f i n = .error (i + j)
  | 0, _, _, h, _, _ => absurd h (Nat.not_lt_zero _)
  | n + 1, i, 0, _, hn, _ => by
    have hn' : f i = none := hn
    simp only [gather, hn', Nat.add_zero]
  | n + 1, i, j + 1, h, hn, hs => by
    obtain ⟨x, hx⟩ := Option.isSome_iff_exists.1 (hs 0 (by omega))
    have hx' : f i = some x := hx
    have ih := gather_error f n (i + 1) j (by omega) (by rwa [show i + 1 + j = i + (j + 1) by omega])
      (fun k hk => by rw [show i + 1 + k = i + (k + 1) by omega]; exact hs (k + 1) (by omega))
    rw [gather, hx', ih, show i + 1 + j = i + (j + 1) by omega]

/-- Either the first `n` elements are all written, or there is a first one that is not. -/
theorem ready_or_first {α : Type} (f : Nat → Option α) :
    ∀ n, Ready f n ∨ ∃ j, j < n ∧ f j = none ∧ Ready f j
  | 0 => .inl (fun _ h => absurd h (Nat.not_lt_zero _))
  | n + 1 => by
    rcases ready_or_first f n with h | ⟨j, hj, hn, hr⟩
    · cases hf : f n with
      | none => exact .inr ⟨n, Nat.lt_succ_self _, hf, h⟩
      | some x =>
        refine .inl (fun i hi => ?_)
        rcases Nat.lt_or_ge i n with h' | h'
        · exact h i h'
        · obtain rfl : i = n := by omega
          rw [hf]; rfl
    · exact .inr ⟨j, by omega, hn, hr⟩

/-- With every element written, `withElems` goes on with the values. -/
theorem withElems_ready {α : Type} (b : Buf) (f : Nat → Option α) (d : α) (n : Nat) (k : List α → Answer)
    (h : Ready f n) : withElems b f n k = k (values f d n) := by
  have hg : gather f 0 n = .ok (values f d n) := by
    rw [gather_ok f d n 0 (fun i hi => by rw [Nat.zero_add]; exact h i hi)]
    simp only [values, Nat.zero_add]
  rw [withElems, hg]

/-- With an element not written, `withElems` stops at the first one. -/
theorem withElems_first {α : Type} (b : Buf) (f : Nat → Option α) (n j : Nat) (k : List α → Answer)
    (hj : j < n) (hn : f j = none) (hr : Ready f j) : withElems b f n k = .fault (.unwrittenElement b j) := by
  have hg : gather f 0 n = .error (0 + j) :=
    gather_error f n 0 j hj (by rwa [Nat.zero_add]) (fun i hi => by rw [Nat.zero_add]; exact hr i hi)
  rw [withElems, hg, Nat.zero_add]

/-- All `withElems` can do: go on with the values of written elements, or fault at an unwritten one. -/
theorem withElems_cases {α : Type} (b : Buf) (f : Nat → Option α) (d : α) (n : Nat) (k : List α → Answer) :
    (Ready f n ∧ withElems b f n k = k (values f d n)) ∨
      ∃ j, j < n ∧ f j = none ∧ Ready f j ∧ withElems b f n k = .fault (.unwrittenElement b j) := by
  rcases ready_or_first f n with h | ⟨j, hj, hn, hr⟩
  · exact .inl ⟨h, withElems_ready b f d n k h⟩
  · exact .inr ⟨j, hj, hn, hr, withElems_first b f n j k hj hn hr⟩

/-- If `withElems` answers a next state, the elements are written and the state is the continuation's. -/
theorem withElems_next {α : Type} {b : Buf} {f : Nat → Option α} (d : α) {n : Nat} {k : List α → Answer} {t : State}
    (h : withElems b f n k = .next t) : Ready f n ∧ k (values f d n) = .next t := by
  rcases withElems_cases b f d n k with ⟨hr, he⟩ | ⟨j, _, _, _, he⟩
  · exact ⟨hr, he ▸ h⟩
  · rw [he] at h; cases h

@[simp] theorem values_length {α : Type} (f : Nat → Option α) (d : α) (n : Nat) : (values f d n).length = n := by
  simp [values]

theorem values_getElem? {α : Type} (f : Nat → Option α) (d : α) {n i : Nat} (h : i < n) :
    (values f d n)[i]? = some ((f i).getD d) := by
  simp [values, h]

/-! ### The check for a configuration -/

theorem requireCfg_valid (s : State) (k : Answer) (h : s.cfgValid = true) : s.requireCfg k = k := by
  simp [State.requireCfg, h]

theorem requireCfg_invalid (s : State) (k : Answer) (h : s.cfgValid = false) :
    s.requireCfg k = .next (s.raise .noCfg) := by
  simp [State.requireCfg, h]

/-- All `requireCfg` can do. -/
theorem requireCfg_cases (s : State) (k : Answer) :
    (s.cfgValid = true ∧ s.requireCfg k = k) ∨ (s.cfgValid = false ∧ s.requireCfg k = .next (s.raise .noCfg)) := by
  cases h : s.cfgValid
  · exact .inr ⟨rfl, requireCfg_invalid s k h⟩
  · exact .inl ⟨rfl, requireCfg_valid s k h⟩

/-! ### Fixed tables -/

theorem tableWrite_toList {α : Type} {n : Nat} (t : Vector α n) (xs : List α) :
    (tableWrite t xs).toList = (xs ++ t.toList.drop xs.length).take n := by
  simp [tableWrite]

/-- The first elements of a written table are the written ones. -/
theorem tableTake_tableWrite {α : Type} {n : Nat} (t : Vector α n) (xs : List α) (h : xs.length ≤ n) :
    tableTake (tableWrite t xs) xs.length = xs := by
  rw [tableTake, tableWrite_toList, List.take_take, Nat.min_eq_left h, List.take_left]

/-- A table written over its whole length is the list written. -/
theorem tableWrite_whole {α : Type} {n : Nat} (t : Vector α n) (xs : List α) (h : xs.length = n) :
    (tableWrite t xs).toList = xs := by
  have hl : t.toList.length = n := by simp
  rw [tableWrite_toList, List.drop_eq_nil_of_le (by omega), List.append_nil, ← h, List.take_length]

/-- An element read after a table write. -/
theorem tableGet_tableWrite {α : Type} {n : Nat} (t : Vector α n) (xs : List α) (i : Nat) (d : α) (h : i < n) :
    tableGet (tableWrite t xs) i d = if i < xs.length then xs.getD i d else tableGet t i d := by
  have hl : t.toList.length = n := by simp
  simp only [tableGet, tableWrite_toList, List.getD_eq_getElem?_getD, List.getElem?_take, h, if_true,
    List.getElem?_append]
  split
  · rfl
  · rename_i hx
    rw [List.getElem?_drop]
    congr 2
    omega

@[simp] theorem tableTake_length {α : Type} {n : Nat} (t : Vector α n) (k : Nat) :
    (tableTake t k).length = min k n := by simp [tableTake]

/-- The first elements of a table one entry of which was set. -/
theorem tableTake_set {α : Type} {n : Nat} (t : Vector α n) (i k : Nat) (x : α) :
    tableTake (t.setIfInBounds i x) k = (tableTake t k).set i x := by
  rw [tableTake, tableTake, Vector.toList_setIfInBounds, List.take_set]

/-! ### Stores to a buffer -/

/-- Every byte outside `OBUF[0..len xs)` reads as before. -/
theorem storeObuf_frame (s : State) (xs : List F64) (a : Nat) (h : ¬ inWords .obuf xs.length a) :
    (s.storeObuf xs).mem.read a = s.mem.read a := by
  rw [State.storeObuf_mem, Memory.read_writeWords_outside]
  unfold inWords at h
  omega

/-- `OBUF[i]` after the store. -/
theorem storeObuf_sample (s : State) (xs : List F64) (i : Nat) (h : i < xs.length) :
    (s.storeObuf xs).sample .obuf i = some xs[i] := by
  rw [State.sample, State.storeObuf_mem, Buf.elemAddr, Memory.readWord_writeWords xs s.mem _ i h]

/-- Every byte that is none of the stored elements' bytes reads as before. -/
theorem storeBytes_frame (s : State) (b : Buf) (bs : List Byte) (a : Nat) (h : ¬ inByteElems b bs.length a) :
    (s.storeBytes b bs).mem.read a = s.mem.read a := by
  rw [State.storeBytes_mem, Memory.read_writeBytes_outside]
  intro i hi he
  exact h ⟨i, hi, he⟩

/-- Element `i` of the buffer after the store. -/
theorem storeBytes_elem (s : State) (b : Buf) (bs : List Byte) (i : Nat) (h : i < bs.length) :
    (s.storeBytes b bs).byteElem b i = some bs[i] := by
  rw [State.byteElem, State.storeBytes_mem, Buf.elemAddr, Memory.read_writeBytes bs s.mem _ i h]

theorem erasByte_bit (e : Bool) : (erasByte e).getLsbD 0 = e := by cases e <;> decide

/-- Erasure flag `i` after the store. -/
theorem storeEras_elem (s : State) (es : List Bool) (i : Nat) (h : i < es.length) :
    (s.storeEras es).erasElem i = some es[i] := by
  have h' : i < (es.map erasByte).length := by simpa using h
  rw [State.erasElem, State.byteElem, State.storeEras_mem, Buf.elemAddr, Memory.read_writeBytes _ s.mem _ i h',
    Option.map_some, List.getElem_map, erasByte_bit]

/-- Every byte that is none of the stored flags' bytes reads as before. -/
theorem storeEras_frame (s : State) (es : List Bool) (a : Nat) (h : ¬ inByteElems .eras es.length a) :
    (s.storeEras es).mem.read a = s.mem.read a := by
  rw [State.storeEras_mem, Memory.read_writeBytes_outside]
  intro i hi he
  rw [List.length_map] at hi
  exact h ⟨i, hi, he⟩

end Sys2Proof.Machine
end

