-- ==== Sys2Proof/Laws/Encoding.lean ====
section
/-! SUPPORT. The fields of an encoded command word (rule R111), and the byte layout of a word (rule R87). -/

namespace Sys2Proof

theorem fieldOp_commandWord (op : BitVec 8) (f : Bool) (imm : Nat) : fieldOp (commandWord op f imm) = op := by
  apply BitVec.eq_of_getLsbD_eq
  intro i hi
  simp only [fieldOp, commandWord, BitVec.getLsbD_extractLsb', BitVec.getLsbD_append]
  interval_cases i <;> simp

theorem fieldF_commandWord (op : BitVec 8) (f : Bool) (imm : Nat) : fieldF (commandWord op f imm) = f := by
  simp only [fieldF, commandWord, BitVec.getLsbD_append]
  simp

theorem fieldRsv0_commandWord (op : BitVec 8) (f : Bool) (imm : Nat) : fieldRsv0 (commandWord op f imm) = 0 := by
  apply BitVec.eq_of_getLsbD_eq
  intro i hi
  simp only [fieldRsv0, commandWord, BitVec.getLsbD_extractLsb', BitVec.getLsbD_append]
  interval_cases i <;> simp

theorem fieldRsvh_commandWord (op : BitVec 8) (f : Bool) (imm : Nat) : fieldRsvh (commandWord op f imm) = 0 := by
  apply BitVec.eq_of_getLsbD_eq
  intro i hi
  simp only [fieldRsvh, commandWord, BitVec.getLsbD_extractLsb', BitVec.getLsbD_append]
  interval_cases i <;> simp

theorem immBits_commandWord (op : BitVec 8) (f : Bool) (imm : Nat) :
    (commandWord op f imm).extractLsb' 16 16 = BitVec.ofNat 16 imm := by
  apply BitVec.eq_of_getLsbD_eq
  intro i hi
  simp only [commandWord, BitVec.getLsbD_extractLsb', BitVec.getLsbD_append]
  interval_cases i <;> simp

theorem fieldImm_commandWord (op : BitVec 8) (f : Bool) (imm : Nat) (h : immFits imm) :
    fieldImm (commandWord op f imm) = imm := by
  rw [fieldImm, immBits_commandWord, BitVec.toNat_ofNat]
  exact Nat.mod_eq_of_lt (by unfold immFits at h; omega)

/-- A word is the sum of its fields: equal fields, equal words (rule R111). -/
theorem word_eq_of_fields {v w : Word} (h0 : fieldOp v = fieldOp w) (h1 : fieldF v = fieldF w)
    (h2 : fieldRsv0 v = fieldRsv0 w) (h3 : fieldImm v = fieldImm w) (h4 : fieldRsvh v = fieldRsvh w) : v = w := by
  have h3' : v.extractLsb' 16 16 = w.extractLsb' 16 16 := BitVec.eq_of_toNat_eq h3
  apply BitVec.eq_of_getLsbD_eq
  intro i hi
  have bit : ∀ {a n : Nat} (_ : v.extractLsb' a n = w.extractLsb' a n) (_ : a ≤ i) (_ : i < a + n),
      v.getLsbD i = w.getLsbD i := by
    intro a n he ha hn
    have := congrArg (fun x => x.getLsbD (i - a)) he
    simp only [BitVec.getLsbD_extractLsb'] at this
    have hlt : i - a < n := by omega
    rw [show a + (i - a) = i by omega] at this
    simpa [hlt] using this
  rcases Nat.lt_or_ge i 8 with h | h
  · exact bit h0 (by omega) (by omega)
  rcases Nat.lt_or_ge i 9 with h' | h'
  · obtain rfl : i = 8 := by omega
    exact h1
  rcases Nat.lt_or_ge i 16 with h'' | h''
  · exact bit h2 (by omega) (by omega)
  rcases Nat.lt_or_ge i 32 with h5 | h5
  · exact bit h3' (by omega) (by omega)
  · exact bit h4 (by omega) (by omega)

/-- Reading the bytes of a word back gives the word (rule R87). -/
theorem decodeBytes_bytesOfWord (v : Word) : decodeBytes (bytesOfWord v) = decode v := by
  have h : bytesOfWord v = [v.lane 0, v.lane 1, v.lane 2, v.lane 3, v.lane 4, v.lane 5, v.lane 6, v.lane 7] := rfl
  rw [h, decodeBytes, Machine.wordOfBytes_lanes]

end Sys2Proof
end

