-- ==== Sys2Proof/Laws/Bus.lean ====
section
/-! SUPPORT. The address map and the bus: which place an address names, where the window lies on the platform, and all a
read, a write and a step can do. -/

namespace Sys2Proof.Machine

/-! ### The address map -/

theorem Reg.mem_all (r : Reg) : r ∈ Reg.all := by cases r <;> decide

theorem Reg.offset_lt (r : Reg) : r.offset < 0x800 := by cases r <;> decide

theorem Reg.at?_offset (r : Reg) : Reg.at? r.offset = some r := by cases r <;> decide

theorem Reg.offset_of_at? {n : Nat} {r : Reg} (h : Reg.at? n = some r) : r.offset = n := by
  have := List.find?_some h
  simpa using this

theorem Reg.offset_injective {r r' : Reg} (h : r.offset = r'.offset) : r = r' := by
  have h1 := Reg.at?_offset r
  rw [h, Reg.at?_offset] at h1
  exact (Option.some.inj h1).symm

/-- The address of a register names it. -/
theorem placeOf_register (r : Reg) : placeOf (BitVec.ofNat 22 r.offset) = .register r := by
  cases r <;> decide

/-- The address of CMD. -/
theorem placeOf_cmd : placeOf cmdAddr = .register .cmd := by decide

theorem Buf.mem_all (b : Buf) : b ∈ Buf.all := by cases b <;> decide

theorem Buf.holds_iff (b : Buf) (n : Nat) : b.holds n = true ↔ b.base ≤ n ∧ n < b.base + b.windowBytes := by
  simp [Buf.holds]

/-- The windows do not overlap. -/
theorem Buf.holds_unique {b b' : Buf} {n : Nat} (h : b.holds n = true) (h' : b'.holds n = true) : b = b' := by
  rw [Buf.holds_iff] at h h'
  cases b <;> cases b' <;> simp only [Buf.base, Buf.windowBytes] at h h' <;> first | rfl | omega

/-- The buffer whose window holds an address. -/
theorem find_holds (b : Buf) (n : Nat) (h : b.holds n = true) : Buf.all.find? (·.holds n) = some b := by
  cases hf : Buf.all.find? (·.holds n) with
  | none => exact absurd h (List.find?_eq_none.1 hf b b.mem_all)
  | some c =>
    have hc := List.find?_some hf
    exact congrArg some (Buf.holds_unique hc h)

/-- The address of word `i` of a buffer's window names it. -/
theorem placeOf_element (b : Buf) (i : Nat) (h : 8 * i < b.windowBytes) :
    placeOf (BitVec.ofNat 22 (b.elemAddr i)) = .element b i := by
  have hb : b.base % 8 = 0 ∧ 0x800 ≤ b.base ∧ b.base + b.windowBytes ≤ 2 ^ 22 := by cases b <;> decide
  have hn : (BitVec.ofNat 22 (b.elemAddr i)).toNat = b.base + 8 * i := by
    rw [BitVec.toNat_ofNat, Buf.elemAddr]
    exact Nat.mod_eq_of_lt (by omega)
  have hh : b.holds (b.base + 8 * i) = true := by
    simp only [Buf.holds, Bool.and_eq_true, decide_eq_true_eq]
    omega
  simp only [placeOf, hn, find_holds b _ hh]
  rw [if_neg (by omega), if_neg (by omega)]
  congr 1
  omega

/-! ### Reads and writes -/

/-- A read leaves the state alone or is a bus error. -/
theorem memRead_state (s : State) (w : Nat) (a : Addr) :
    (memRead s w a).1 = s ∨ (memRead s w a).1 = s.busError ∧ (memRead s w a).2 = 0 := by
  unfold memRead
  split
  · exact .inr ⟨rfl, rfl⟩
  · split
    · exact .inr ⟨rfl, rfl⟩
    · exact .inl rfl
    · exact .inl rfl
    · exact .inl rfl

/-- All a write can do. -/
theorem memWrite_cases (s : State) (w : Nat) (a : Addr) (v : Word) :
    ((w ≠ 64 ∨ placeOf a = .busError) ∧ memWrite s w a v = .next s.busError) ∨
    (w = 64 ∧ placeOf a = .reserved ∧ memWrite s w a v = .next s.advanceFree) ∨
    (w = 64 ∧ placeOf a = .register .cmd ∧ memWrite s w a v = execute (s.advanceFree.writeReg v .cmd) v) ∨
    (∃ r, w = 64 ∧ r ≠ .cmd ∧ placeOf a = .register r ∧ memWrite s w a v = .next (s.advanceFree.writeReg v r)) ∨
    (∃ b i, w = 64 ∧ placeOf a = .element b i ∧ memWrite s w a v = .next (s.advanceFree.writeElem b i v)) := by
  unfold memWrite
  by_cases hw : w = 64
  · cases hp : placeOf a with
    | busError => exact .inl ⟨.inr rfl, by simp [hw]⟩
    | reserved => exact .inr (.inl ⟨hw, rfl, by simp [hw]⟩)
    | register r =>
      by_cases hr : r = .cmd
      · subst hr
        exact .inr (.inr (.inl ⟨hw, rfl, by simp [hw]⟩))
      · exact .inr (.inr (.inr (.inl ⟨r, hw, hr, rfl, by simp [hw, hr]⟩)))
    | element b i => exact .inr (.inr (.inr (.inr ⟨b, i, hw, rfl, by simp [hw]⟩)))
  · exact .inl ⟨.inl hw, by simp [hw]⟩

/-- Issuing a command word executes it, with CMD holding it. -/
theorem perform_issue (s : State) (v : Word) :
    perform s (issue v) = execute (s.advanceFree.writeReg v .cmd) v := by
  simp [perform, issue, memWrite, placeOf_cmd]

/-! ### The window on the platform -/

/-- The offset of the address of an offset: the window is placed once, without a gap. -/
@[simp] theorem offsetOf?_platformAddr (p : Params) (a : Addr) :
    Params.offsetOf? p (Params.platformAddr p a) = some a := by
  have h : p.platformBase ≤ Params.platformAddr p a ∧
      Params.platformAddr p a < p.platformBase + Config.platformWindow :=
    ⟨Nat.le_add_right _ _, Nat.add_lt_add_left a.isLt _⟩
  rw [Params.offsetOf?, if_pos h, Params.platformAddr, Nat.add_sub_cancel_left, BitVec.ofNat_toNat, BitVec.setWidth_eq]

/-- An address that names an offset is that offset's address. -/
theorem platformAddr_of_offsetOf? {p : Params} {n : Nat} {a : Addr} (h : Params.offsetOf? p n = some a) :
    Params.platformAddr p a = n := by
  rw [Params.offsetOf?] at h
  split at h
  · rename_i hn
    obtain rfl := Option.some.inj h
    have hw : n < p.platformBase + 2 ^ 22 := hn.2
    rw [Params.platformAddr, BitVec.toNat_ofNat, Nat.mod_eq_of_lt (by omega)]
    omega
  · exact absurd h (by simp)

/-- An address outside the window names no offset. -/
theorem offsetOf?_outside {p : Params} {n : Nat} (h : ¬ (p.platformBase ≤ n ∧ n < p.platformBase + 2 ^ 22)) :
    Params.offsetOf? p n = none := if_neg h

/-- A read at the address of an offset reads there. -/
@[simp] theorem performHost_read (s : State) (w : Nat) (a : Addr) :
    performHost s (.read w (Params.platformAddr s.params a)) = perform s (.read w a) := by
  simp [performHost, HostAccess.toBus]

/-- A write at the address of an offset writes there. -/
@[simp] theorem performHost_write (s : State) (w : Nat) (a : Addr) (v : Word) :
    performHost s (.write w (Params.platformAddr s.params a) v) = perform s (.write w a v) := by
  simp [performHost, HostAccess.toBus]

/-- The hardware reset has no address. -/
@[simp] theorem performHost_reset (s : State) : performHost s .reset = perform s .reset := rfl

/-- A command word issued at CMD's address on the platform is issued at CMD. -/
theorem performHost_issueAt (s : State) (v : Word) : performHost s (issueAt s.params v) = perform s (issue v) :=
  performHost_write s 64 cmdAddr v

/-- All the next event of the host side can do. -/
theorem performHost_cases (s : State) (h : HostAccess) :
    (h.toBus s.params = none ∧ performHost s h = .next s) ∨
      ∃ a, h.toBus s.params = some a ∧ performHost s h = perform s a := by
  unfold performHost
  cases hb : h.toBus s.params with
  | none => exact .inl ⟨rfl, rfl⟩
  | some a => exact .inr ⟨a, rfl, rfl⟩

/-- All a step can do. -/
theorem step_cases (s : State) :
    (s.hostQueue = [] ∧ step s = .next s) ∨
      ∃ h rest, s.hostQueue = h :: rest ∧
        ((h.toBus s.params = none ∧ step s = .next { s with hostQueue := rest }) ∨
          ∃ a, h.toBus s.params = some a ∧ step s = perform { s with hostQueue := rest } a) := by
  unfold step
  cases hq : s.hostQueue with
  | nil => exact .inl ⟨rfl, rfl⟩
  | cons h rest => exact .inr ⟨h, rest, rfl, performHost_cases { s with hostQueue := rest } h⟩

end Sys2Proof.Machine
end

