-- ==== Sys2Proof/Laws/Commands.lean ====
section
/-! SUPPORT. All each command can do, said once: its raises in the order of its checks, its effect on written operands, and
its fault at the first unwritten one. Proofs about commands cite these instead of unfolding the meanings. -/

namespace Sys2Proof.Machine

/-- NOP. -/
theorem exec_nop (s : State) : exec .nop s = .next s.done := rfl

/-- CONFIG. -/
theorem exec_config_cases (s : State) :
    (validateCode s.params s.cfg ≠ 0 ∧ exec .config s = .next (s.configFail (validateCode s.params s.cfg))) ∨
      (validateCode s.params s.cfg = 0 ∧ exec .config s = .next s.configure) := by
  by_cases h : validateCode s.params s.cfg = 0
  · exact .inr ⟨h, if_neg (not_not.2 h)⟩
  · exact .inl ⟨h, if_pos h⟩

/-- SRESET. -/
theorem exec_sreset (s : State) : exec .sreset s = .next s.sessionReset.done := rfl

/-- MAP. -/
theorem exec_map_cases (s : State) (v : Nat) :
    (255 < v ∧ exec (.map v) s = .next (s.raise .range)) ∨
      (v ≤ 255 ∧ exec (.map v) s =
        .next (State.done { s with res := { s.res with symbol := (mapSymbol v).word } })) := by
  by_cases h : 255 < v
  · exact .inl ⟨h, if_pos h⟩
  · exact .inr ⟨by omega, if_neg h⟩

/-- FEED. -/
theorem exec_feed_cases (f : Bool) (s : State) :
    (s.cfgValid = false ∧ exec (.feed f) s = .next (s.raise .noCfg)) ∨
    (s.cfgValid = true ∧ s.arg.winLen ≠ s.drv.windowLen ∧ exec (.feed f) s = .next (s.raise .winLen)) ∨
    (s.cfgValid = true ∧ s.arg.winLen = s.drv.windowLen ∧
      ((s.winReady s.windowLen ∧ exec (.feed f) s = .next (feedWindow f (s.window s.windowLen) s)) ∨
        ∃ j, j < s.windowLen ∧ s.sample .win j = none ∧ exec (.feed f) s = .fault (.unwrittenElement .win j))) := by
  have he : exec (.feed f) s = execFeed f s := rfl
  rw [he, execFeed]
  rcases requireCfg_cases s _ with ⟨hc, h⟩ | ⟨hc, h⟩
  · rw [h]
    by_cases hw : s.arg.winLen = s.drv.windowLen
    · rw [if_neg (not_not.2 hw)]
      rcases withElems_cases .win (s.sample .win) fZero s.windowLen (fun x => .next (feedWindow f x s)) with
        ⟨hr, h⟩ | ⟨j, hj, hn, -, h⟩
      · exact .inr (.inr ⟨hc, hw, .inl ⟨hr, h⟩⟩)
      · exact .inr (.inr ⟨hc, hw, .inr ⟨j, hj, hn, h⟩⟩)
    · exact .inr (.inl ⟨hc, hw, if_pos hw⟩)
  · exact .inl ⟨hc, h⟩

/-- RSENC. -/
theorem exec_rsenc_cases (s : State) :
    (s.cfgValid = false ∧ exec .rsenc s = .next (s.raise .noCfg)) ∨
    (s.cfgValid = true ∧ s.arg.payLen ≠ s.active.len ∧ exec .rsenc s = .next (s.raise .payLen)) ∨
    (s.cfgValid = true ∧ s.arg.payLen = s.active.len ∧
      ((s.payReady s.len ∧
          exec .rsenc s = .next (s.storeBytes .cw (rsEncode s.parity (s.payload s.len))).done) ∨
        ∃ j, j < s.len ∧ s.byteElem .pay j = none ∧ exec .rsenc s = .fault (.unwrittenElement .pay j))) := by
  have he : exec .rsenc s = execRsenc s := rfl
  rw [he, execRsenc]
  rcases requireCfg_cases s _ with ⟨hc, h⟩ | ⟨hc, h⟩
  · rw [h]
    by_cases hw : s.arg.payLen = s.active.len
    · rw [if_neg (not_not.2 hw)]
      rcases withElems_cases .pay (s.byteElem .pay) 0 s.len
        (fun m => .next (s.storeBytes .cw (rsEncode s.parity m)).done) with ⟨hr, h⟩ | ⟨j, hj, hn, -, h⟩
      · exact .inr (.inr ⟨hc, hw, .inl ⟨hr, h⟩⟩)
      · exact .inr (.inr ⟨hc, hw, .inr ⟨j, hj, hn, h⟩⟩)
    · exact .inr (.inl ⟨hc, hw, if_pos hw⟩)
  · exact .inl ⟨hc, h⟩

/-- Reading CW and then ERAS, over NCW elements each: all it can do. -/
theorem withCodeword_cases (s : State) (k : List Byte → List Bool → Answer) :
    (s.cwReady s.ncw ∧
      (withElems .cw (s.byteElem .cw) s.ncw fun r => withElems .eras s.erasElem s.ncw fun e => k r e) =
        k (s.cwBytes s.ncw) (s.erasBits s.ncw)) ∨
    (∃ b j, j < s.ncw ∧ (b = .cw ∨ b = .eras) ∧ s.written b j = false ∧
      (withElems .cw (s.byteElem .cw) s.ncw fun r => withElems .eras s.erasElem s.ncw fun e => k r e) =
        .fault (.unwrittenElement b j)) := by
  rcases withElems_cases .cw (s.byteElem .cw) 0 s.ncw
    (fun r => withElems .eras s.erasElem s.ncw fun e => k r e) with ⟨hr, h⟩ | ⟨j, hj, hn, -, h⟩
  · rcases withElems_cases .eras s.erasElem false s.ncw (fun e => k (s.cwBytes s.ncw) e) with
      ⟨he, h'⟩ | ⟨j, hj, hn, -, h'⟩
    · exact .inl ⟨⟨hr, he⟩, h.trans h'⟩
    · exact .inr ⟨.eras, j, hj, .inr rfl, by simp [State.written, hn], h.trans h'⟩
  · exact .inr ⟨.cw, j, hj, .inl rfl, by simp [State.written, hn], h⟩

/-- RSDEC. -/
theorem exec_rsdec_cases (s : State) :
    (s.cfgValid = false ∧ exec .rsdec s = .next (s.raise .noCfg)) ∨
    (s.cfgValid = true ∧
      ((s.cwReady s.ncw ∧ exec .rsdec s =
          .next (rsdecFinish s (rsDecode s.len s.parity (s.cwBytes s.ncw) (s.erasBits s.ncw)))) ∨
        ∃ b j, j < s.ncw ∧ (b = .cw ∨ b = .eras) ∧ s.written b j = false ∧
          exec .rsdec s = .fault (.unwrittenElement b j))) := by
  have he : exec .rsdec s = execRsdec s := rfl
  rw [he, execRsdec]
  rcases requireCfg_cases s _ with ⟨hc, h⟩ | ⟨hc, h⟩
  · rw [h]
    exact .inr ⟨hc, withCodeword_cases s fun r e => .next (rsdecFinish s (rsDecode s.len s.parity r e))⟩
  · exact .inl ⟨hc, h⟩

/-- ILV. -/
theorem exec_ilv_cases (s : State) :
    (s.cfgValid = false ∧ exec .ilv s = .next (s.raise .noCfg)) ∨
    (s.cfgValid = true ∧
      ((s.cwReady s.ncw ∧ exec .ilv s =
          .next ((s.storeBytes .cw (applyPerm 0 s.permList (s.cwBytes s.ncw))).storeEras
            (applyPerm false s.permList (s.erasBits s.ncw))).done) ∨
        ∃ b j, j < s.ncw ∧ (b = .cw ∨ b = .eras) ∧ s.written b j = false ∧
          exec .ilv s = .fault (.unwrittenElement b j))) := by
  have he : exec .ilv s = execIlv s := rfl
  rw [he, execIlv]
  rcases requireCfg_cases s _ with ⟨hc, h⟩ | ⟨hc, h⟩
  · rw [h]
    exact .inr ⟨hc, withCodeword_cases s fun c e =>
      .next ((s.storeBytes .cw (applyPerm 0 s.permList c)).storeEras (applyPerm false s.permList e)).done⟩
  · exact .inl ⟨hc, h⟩

/-- DILV. -/
theorem exec_dilv_cases (s : State) :
    (s.cfgValid = false ∧ exec .dilv s = .next (s.raise .noCfg)) ∨
    (s.cfgValid = true ∧
      ((s.cwReady s.ncw ∧ exec .dilv s =
          .next ((s.storeBytes .cw (unapplyPerm s.permList (s.cwBytes s.ncw))).storeEras
            (unapplyPerm s.permList (s.erasBits s.ncw))).done) ∨
        ∃ b j, j < s.ncw ∧ (b = .cw ∨ b = .eras) ∧ s.written b j = false ∧
          exec .dilv s = .fault (.unwrittenElement b j))) := by
  have he : exec .dilv s = execDilv s := rfl
  rw [he, execDilv]
  rcases requireCfg_cases s _ with ⟨hc, h⟩ | ⟨hc, h⟩
  · rw [h]
    exact .inr ⟨hc, withCodeword_cases s fun y e =>
      .next ((s.storeBytes .cw (unapplyPerm s.permList y)).storeEras (unapplyPerm s.permList e)).done⟩
  · exact .inl ⟨hc, h⟩

/-- The length check of the analysis commands, as a statement about WIN_LEN. -/
theorem winLenOk_iff (s : State) : s.winLenOk = true ↔ 1 ≤ s.arg.winLen.toNat ∧ s.arg.winLen.toNat ≤ s.params.winMax := by
  rw [State.winLenOk, Bool.and_eq_true, decide_eq_true_iff, decide_eq_true_iff]
  rfl

/-- The end common to GPWR, GPWRS, RMS and DETECT: all reading the window of WIN_LEN samples can do. -/
theorem withWindow_cases (s : State) (k : List F64 → Answer) :
    (s.winReady s.winCount ∧ withElems .win (s.sample .win) s.winCount k = k (s.window s.winCount)) ∨
      ∃ j, j < s.winCount ∧ s.sample .win j = none ∧
        withElems .win (s.sample .win) s.winCount k = .fault (.unwrittenElement .win j) := by
  rcases withElems_cases .win (s.sample .win) fZero s.winCount k with ⟨hr, h⟩ | ⟨j, hj, hn, -, h⟩
  · exact .inl ⟨hr, h⟩
  · exact .inr ⟨j, hj, hn, h⟩

/-- RMS. -/
theorem exec_rms_cases (s : State) :
    (s.winLenOk = false ∧ exec .rms s = .next (s.raise .winLen)) ∨
    (s.winLenOk = true ∧
      ((s.winReady s.winCount ∧ exec .rms s =
          .next (State.done { s with res := { s.res with rms := rmsOf (s.window s.winCount) } })) ∨
        ∃ j, j < s.winCount ∧ s.sample .win j = none ∧ exec .rms s = .fault (.unwrittenElement .win j))) := by
  have he : exec .rms s = execRms s := rfl
  rw [he, execRms]
  cases hw : s.winLenOk
  · exact .inl ⟨rfl, if_pos rfl⟩
  · rw [if_neg (by decide)]
    exact .inr ⟨rfl, withWindow_cases s _⟩

/-- DETECT. -/
theorem exec_detect_cases (s : State) :
    (s.cfgValid = false ∧ exec .detect s = .next (s.raise .noCfg)) ∨
    (s.cfgValid = true ∧ s.winLenOk = false ∧ exec .detect s = .next (s.raise .winLen)) ∨
    (s.cfgValid = true ∧ s.winLenOk = true ∧
      ((s.winReady s.winCount ∧ exec .detect s =
          .next (State.done { s with res := { s.res with symbol := (s.detect (s.window s.winCount)).word } })) ∨
        ∃ j, j < s.winCount ∧ s.sample .win j = none ∧ exec .detect s = .fault (.unwrittenElement .win j))) := by
  have he : exec .detect s = execDetect s := rfl
  rw [he, execDetect]
  rcases requireCfg_cases s _ with ⟨hc, h⟩ | ⟨hc, h⟩
  · rw [h]
    cases hw : s.winLenOk
    · exact .inr (.inl ⟨hc, rfl, if_pos rfl⟩)
    · rw [if_neg (by decide)]
      exact .inr (.inr ⟨hc, rfl, withWindow_cases s _⟩)
  · exact .inl ⟨hc, h⟩

/-- GPWR. -/
theorem exec_gpwr_cases (s : State) :
    (s.cfgValid = false ∧ exec .gpwr s = .next (s.raise .noCfg)) ∨
    (s.cfgValid = true ∧ s.winLenOk = false ∧ exec .gpwr s = .next (s.raise .winLen)) ∨
    (s.cfgValid = true ∧ s.winLenOk = true ∧ gpwrFreqOk s.active.fs s.arg.freq = false ∧
      exec .gpwr s = .next (s.raise .range)) ∨
    (s.cfgValid = true ∧ s.winLenOk = true ∧ gpwrFreqOk s.active.fs s.arg.freq = true ∧
      ((s.winReady s.winCount ∧ exec .gpwr s =
          .next (s.donePower (power (s.window s.winCount) s.active.fs s.arg.freq))) ∨
        ∃ j, j < s.winCount ∧ s.sample .win j = none ∧ exec .gpwr s = .fault (.unwrittenElement .win j))) := by
  have he : exec .gpwr s = execGpwr s := rfl
  rw [he, execGpwr]
  rcases requireCfg_cases s _ with ⟨hc, h⟩ | ⟨hc, h⟩
  · rw [h]
    cases hw : s.winLenOk
    · exact .inr (.inl ⟨hc, rfl, if_pos rfl⟩)
    · rw [if_neg (by decide)]
      cases hf : gpwrFreqOk s.active.fs s.arg.freq
      · exact .inr (.inr (.inl ⟨hc, rfl, rfl, if_pos rfl⟩))
      · rw [if_neg (by decide)]
        exact .inr (.inr (.inr ⟨hc, rfl, rfl, withWindow_cases s _⟩))
  · exact .inl ⟨hc, h⟩

/-- GPWRS. -/
theorem exec_gpwrs_cases (slot : Nat) (s : State) :
    (s.cfgValid = false ∧ exec (.gpwrs slot) s = .next (s.raise .noCfg)) ∨
    (s.cfgValid = true ∧ s.winLenOk = false ∧ exec (.gpwrs slot) s = .next (s.raise .winLen)) ∨
    (s.cfgValid = true ∧ s.winLenOk = true ∧ 31 < slot ∧ exec (.gpwrs slot) s = .next (s.raise .range)) ∨
    (s.cfgValid = true ∧ s.winLenOk = true ∧ slot ≤ 31 ∧
      ((s.winReady s.winCount ∧ exec (.gpwrs slot) s =
          .next (s.donePower (power (s.window s.winCount) s.active.fs (s.slotFreq slot)))) ∨
        ∃ j, j < s.winCount ∧ s.sample .win j = none ∧
          exec (.gpwrs slot) s = .fault (.unwrittenElement .win j))) := by
  have he : exec (.gpwrs slot) s = execGpwrs slot s := rfl
  rw [he, execGpwrs]
  rcases requireCfg_cases s _ with ⟨hc, h⟩ | ⟨hc, h⟩
  · rw [h]
    cases hw : s.winLenOk
    · exact .inr (.inl ⟨hc, rfl, if_pos rfl⟩)
    · rw [if_neg (by decide)]
      by_cases hs : 31 < slot
      · exact .inr (.inr (.inl ⟨hc, rfl, hs, if_pos hs⟩))
      · rw [if_neg hs]
        exact .inr (.inr (.inr ⟨hc, rfl, by omega, withWindow_cases s _⟩))
  · exact .inl ⟨hc, h⟩

/-- SYNTH. -/
theorem exec_synth_cases (k : Nat) (s : State) :
    (s.cfgValid = false ∧ exec (.synth k) s = .next (s.raise .noCfg)) ∨
    (s.cfgValid = true ∧ s.arg.payLen ≠ s.active.len ∧ exec (.synth k) s = .next (s.raise .payLen)) ∨
    (s.cfgValid = true ∧ s.arg.payLen = s.active.len ∧
      (s.len + s.parity + 2 ≤ k ∨ amplitudeOk s.arg.amplitude = false) ∧
      exec (.synth k) s = .next (s.raise .range)) ∨
    (s.cfgValid = true ∧ s.arg.payLen = s.active.len ∧ k < s.len + s.parity + 2 ∧
      amplitudeOk s.arg.amplitude = true ∧
      ((k = 0 ∧ exec (.synth k) s = .next (s.storeObuf (s.preambleWindow s.active.ta)).done) ∨
        (k = 1 ∧ exec (.synth k) s = .next (s.storeObuf (s.preambleWindow s.active.tb)).done) ∨
        (2 ≤ k ∧ s.payReady s.len ∧ exec (.synth k) s =
          .next (s.storeObuf (s.symbolWindow ((s.frameSymbols (s.payload s.len)).getD (k - 2) 0))).done) ∨
        (2 ≤ k ∧ ∃ j, j < s.len ∧ s.byteElem .pay j = none ∧
          exec (.synth k) s = .fault (.unwrittenElement .pay j)))) := by
  have he : exec (.synth k) s = execSynth k s := rfl
  rw [he, execSynth]
  rcases requireCfg_cases s _ with ⟨hc, h⟩ | ⟨hc, h⟩
  · rw [h]
    by_cases hp : s.arg.payLen = s.active.len
    · rw [if_neg (not_not.2 hp)]
      by_cases hk : s.len + s.parity + 2 ≤ k
      · exact .inr (.inr (.inl ⟨hc, hp, .inl hk, if_pos hk⟩))
      · rw [if_neg hk]
        cases ha : amplitudeOk s.arg.amplitude
        · exact .inr (.inr (.inl ⟨hc, hp, .inr rfl, if_pos rfl⟩))
        · rw [if_neg (by decide)]
          refine .inr (.inr (.inr ⟨hc, hp, by omega, rfl, ?_⟩))
          by_cases h0 : k = 0
          · exact .inl ⟨h0, if_pos h0⟩
          · rw [if_neg h0]
            by_cases h1 : k = 1
            · exact .inr (.inl ⟨h1, if_pos h1⟩)
            · rw [if_neg h1]
              rcases withElems_cases .pay (s.byteElem .pay) 0 s.len
                (fun m => .next (s.storeObuf (s.symbolWindow ((s.frameSymbols m).getD (k - 2) 0))).done) with
                ⟨hr, h⟩ | ⟨j, hj, hn, -, h⟩
              · exact .inr (.inr (.inl ⟨by omega, hr, h⟩))
              · exact .inr (.inr (.inr ⟨by omega, j, hj, hn, h⟩))
    · exact .inr (.inl ⟨hc, hp, if_pos hp⟩)
  · exact .inl ⟨hc, h⟩

/-! ### The parts of FEED -/

/-- All the trigger state machine can do (rule R262). -/
theorem triggerStep_cases (ma mb : Bool) (start : Word) (u : Session) :
    (ma = true ∧ (u.trigSub = .searching ∨ mb = false) ∧
      triggerStep ma mb start u = ({ u with trigSub := .candidate, candOffset := start }, none)) ∨
    (ma = false ∧ (u.trigSub = .searching ∨ mb = false) ∧
      triggerStep ma mb start u = ({ u with trigSub := .searching }, none)) ∨
    (u.trigSub = .candidate ∧ mb = true ∧
      triggerStep ma mb start u = ({ u with trigSub := .searching }, some u.candOffset)) := by
  obtain ⟨e, sub, fs, tv, pv, o, ti, ac, co, d, ls⟩ := u
  cases sub <;> cases ma <;> cases mb <;> simp [triggerStep]

/-- The session FEED starts from: unchanged in IDLE and TRIGGERED, IDLE/SEARCHING after a result (rule R303). -/
theorem Session.consumed_cases (u : Session) :
    ((u.engine = .idle ∨ u.engine = .triggered) ∧ u.consumed = u) ∨
      ((u.engine = .complete ∨ u.engine = .failed) ∧
        u.consumed = { u with engine := .idle, trigSub := .searching }) := by
  unfold Session.consumed
  cases h : u.engine <;> simp

/-- All a FEED in the body can do: add its symbol, and at the last one decode (rule R303). -/
theorem feedBody_cases (y : Symbol) (s : State) :
    (s.ses.accCount + 1 ≠ s.drv.codewordLen ∧ feedBody y s = feedAccumulate y s) ∨
      (s.ses.accCount + 1 = s.drv.codewordLen ∧
        feedBody y s = feedFinish (feedDecode (feedAccumulate y s)) (feedAccumulate y s)) := by
  by_cases h : s.ses.accCount + 1 = s.drv.codewordLen
  · exact .inr ⟨h, if_pos h⟩
  · exact .inl ⟨h, if_neg h⟩

end Sys2Proof.Machine
end

