-- ==== Sys2Proof/Laws/Float64.lean ====
section
/-! SUPPORT. How a NaN moves through the binary64 operations and the detector (rules R10, R177): an operation with a NaN
operand delivers a NaN, a comparison with one is false, and a lane whose powers are NaNs is not reliable. -/

namespace Sys2Proof.Machine

/-- The NaN an operation delivers is one of the NaN encodings. -/
@[simp] theorem fIsNaN_fNaN (op : Config.FloatOp) (a b : F64) : fIsNaN (fNaN op a b) = true := by
  unfold fNaN
  split
  · assumption
  · decide

/-- What a NaN encoding stands for. -/
theorem fUnpack_nan {x : F64} (h : fIsNaN x = true) : fUnpack x = .nan := by
  simp only [fIsNaN, Bool.and_eq_true, decide_eq_true_eq] at h
  simp [fUnpack, h.1, h.2]

theorem fAdd_nan_left {a : F64} (b : F64) (h : fIsNaN a = true) : fIsNaN (fAdd a b) = true := by
  simp [fAdd, fUnpack_nan h, fAddVal]

theorem fAdd_nan_right (a : F64) {b : F64} (h : fIsNaN b = true) : fIsNaN (fAdd a b) = true := by
  rw [fAdd, fUnpack_nan h]
  cases fUnpack a <;> simp [fAddVal]

theorem fSub_nan_left {a : F64} (b : F64) (h : fIsNaN a = true) : fIsNaN (fSub a b) = true := by
  simp [fSub, fUnpack_nan h, fAddVal]

theorem fSub_nan_right (a : F64) {b : F64} (h : fIsNaN b = true) : fIsNaN (fSub a b) = true := by
  rw [fSub, fUnpack_nan h]
  cases fUnpack a <;> simp [fAddVal, fNegVal]

theorem fMul_nan_left {a : F64} (b : F64) (h : fIsNaN a = true) : fIsNaN (fMul a b) = true := by
  simp [fMul, fUnpack_nan h]

theorem fMul_nan_right (a : F64) {b : F64} (h : fIsNaN b = true) : fIsNaN (fMul a b) = true := by
  rw [fMul, fUnpack_nan h]
  cases fUnpack a <;> simp

theorem fDiv_nan_left {a : F64} (b : F64) (h : fIsNaN a = true) : fIsNaN (fDiv a b) = true := by
  simp [fDiv, fUnpack_nan h]

/-- A NaN is not greater than anything. -/
theorem fGt_nan_left {a : F64} (b : F64) (h : fIsNaN a = true) : fGt a b = false := by
  simp [fGt, fLt, h]

/-- A NaN is not less than anything. -/
theorem fLt_nan_left {a : F64} (b : F64) (h : fIsNaN a = true) : fLt a b = false := by
  simp [fLt, h]

/-- The power of a window whose last sample is a NaN is a NaN (rule R177). -/
theorem power_nan_last {v : F64} (x : List F64) (fs f : F64) (h : fIsNaN v = true) :
    fIsNaN (power (x ++ [v]) fs f) = true := by
  have hs (c : F64) (st : F64 × F64) : fIsNaN (goertzelStep c st v).1 = true :=
    fSub_nan_left _ (fAdd_nan_left _ h)
  have hq (c : F64) (st : F64 × F64) : fIsNaN (goertzelQ c (goertzelStep c st v)) = true :=
    fSub_nan_left _ (fAdd_nan_left _ (fMul_nan_left _ (hs c st)))
  have hc (q : F64) (hq : fIsNaN q = true) : fIsNaN (clampNegative q) = true := by
    rwa [clampNegative, fLt_nan_left _ hq, if_neg (by decide)]
  rw [power, powerOfCoef, List.foldl_append]
  exact fDiv_nan_left _ (fMul_nan_right _ (hc _ (hq _ _)))

/-- The winner of a lane is one of its slots (rule R193). -/
theorem laneWinner_lt (pw : List F64) : laneWinner pw < 16 := by
  have h : ∀ (vs : List Nat) (w : Nat), (∀ v ∈ vs, v < 16) → w < 16 →
      vs.foldl (fun w v => if fGt (pw.getD v fZero) (pw.getD w fZero) then v else w) w < 16 := by
    intro vs
    induction vs with
    | nil => exact fun w _ hw => hw
    | cons v vs ih =>
      intro w hv hw
      refine ih _ (fun u hu => hv u (List.mem_cons_of_mem _ hu)) ?_
      show (if fGt (pw.getD v fZero) (pw.getD w fZero) then v else w) < 16
      split
      · exact hv v List.mem_cons_self
      · exact hw
  exact h _ 0 (fun v hv => by rw [List.mem_range'_1] at hv; omega) (by decide)

/-- A lane all of whose powers are NaNs is not reliable (rules R177, R194). -/
theorem laneReliable_nan (f : Nat → F64) (bmin er : F64) (h : ∀ v, fIsNaN (f v) = true) :
    laneReliable ((List.range 16).map f) bmin er = false := by
  refine fGt_nan_left _ ?_
  have hw := laneWinner_lt ((List.range 16).map f)
  simp [List.getD_eq_getElem?_getD, hw, h]

/-- A window whose last sample is a NaN demodulates to an erasure (rules R177, R194). -/
theorem detect_nan_last {v : F64} (s : State) (x : List F64) (h : fIsNaN v = true) :
    (s.detect (x ++ [v])).erasure = true := by
  have hl : laneReliable (lanePowers (x ++ [v]) s.active.fs s.slotFreq 0)
      (fDiv (meanSq (x ++ [v])) (fOfNat (x ++ [v]).length)) s.active.er = false :=
    laneReliable_nan _ _ _ (fun _ => power_nan_last x _ _ h)
  simp only [State.detect, detectSymbol, symbolOfLanes, hl, Bool.false_and, Bool.not_false]

end Sys2Proof.Machine
end

