-- ==== Sys2Proof/Laws/PerInstr.lean ====
section
/-! SUPPORT. The family `Fields`: the encoder puts every operand of a well-formed command into its field and zeros into
the reserved fields (rules R111, R113). -/

namespace Sys2Proof.Laws.Fields

/-- The opcode number of a command (rule R113). -/
def opcode : Instr → BitVec 8
  | .nop => 0x00
  | .config => 0x01
  | .sreset => 0x02
  | .feed _ => 0x03
  | .synth _ => 0x04
  | .rsenc => 0x05
  | .rsdec => 0x06
  | .ilv => 0x07
  | .dilv => 0x08
  | .gpwr => 0x09
  | .gpwrs _ => 0x09
  | .rms => 0x0A
  | .detect => 0x0B
  | .map _ => 0x0C

/-- The mode flag of a command (rule R113). -/
def mode : Instr → Bool
  | .feed offset => offset
  | .gpwrs _ => true
  | _ => false

/-- The immediate of a command; 0 where its opcode uses none (rule R113). -/
def imm : Instr → Nat
  | .synth k => k
  | .gpwrs s => s
  | .map v => v
  | _ => 0

/-- The fields of the encoded command are the command's. -/
def Statement (i : Instr) : Prop :=
  i.wellFormed = true →
    fieldOp (encode i) = opcode i ∧ fieldF (encode i) = mode i ∧ fieldImm (encode i) = imm i ∧
      fieldRsv0 (encode i) = 0 ∧ fieldRsvh (encode i) = 0

/-- Every command word has the fields it is made of. -/
theorem of_commandWord (op : BitVec 8) (f : Bool) (n : Nat) (h : immFits n) :
    fieldOp (commandWord op f n) = op ∧ fieldF (commandWord op f n) = f ∧ fieldImm (commandWord op f n) = n ∧
      fieldRsv0 (commandWord op f n) = 0 ∧ fieldRsvh (commandWord op f n) = 0 :=
  ⟨fieldOp_commandWord op f n, fieldF_commandWord op f n, fieldImm_commandWord op f n h,
    fieldRsv0_commandWord op f n, fieldRsvh_commandWord op f n⟩

theorem nop : Statement .nop := fun _ => of_commandWord _ _ _ (Nat.zero_le _)
theorem config : Statement .config := fun _ => of_commandWord _ _ _ (Nat.zero_le _)
theorem sreset : Statement .sreset := fun _ => of_commandWord _ _ _ (Nat.zero_le _)
theorem feed (offset : Bool) : Statement (.feed offset) := fun _ => of_commandWord _ _ _ (Nat.zero_le _)
theorem synth (k : Nat) : Statement (.synth k) := fun h => of_commandWord _ _ _ (of_decide_eq_true h)
theorem rsenc : Statement .rsenc := fun _ => of_commandWord _ _ _ (Nat.zero_le _)
theorem rsdec : Statement .rsdec := fun _ => of_commandWord _ _ _ (Nat.zero_le _)
theorem ilv : Statement .ilv := fun _ => of_commandWord _ _ _ (Nat.zero_le _)
theorem dilv : Statement .dilv := fun _ => of_commandWord _ _ _ (Nat.zero_le _)
theorem gpwr : Statement .gpwr := fun _ => of_commandWord _ _ _ (Nat.zero_le _)
theorem gpwrs (slot : Nat) : Statement (.gpwrs slot) := fun h => of_commandWord _ _ _ (of_decide_eq_true h)
theorem rms : Statement .rms := fun _ => of_commandWord _ _ _ (Nat.zero_le _)
theorem detect : Statement .detect := fun _ => of_commandWord _ _ _ (Nat.zero_le _)
theorem map (v : Nat) : Statement (.map v) := fun h => of_commandWord _ _ _ (of_decide_eq_true h)

end Sys2Proof.Laws.Fields
end

