-- ==== Sys2Proof/Tests/Slice0.lean ====
section
/-! SUPPORT. Tests of the model and witnesses for the statements. The expected results come from the spec's own vectors
(file 95, cited by section) and from the fields of rules R111, R113 and R117; a witness shows a state and operands that
meet a statement's hypotheses together. -/

namespace Sys2Proof.Tests

/- The kernel checks the tests one after another; elaborated in parallel, each would hold a waiting thread. -/
set_option Elab.async false

open Sys2Proof.Machine

/-! ### Words written out bit by bit (rules R111, R113, R117; file 95 §8.1) -/

theorem test_decode_nop : decode 0b0#64 = .ok .nop := by decide
theorem test_decode_config : decode 0b00000001#64 = .ok .config := by decide
theorem test_decode_sreset : decode 0b00000010#64 = .ok .sreset := by decide
theorem test_decode_feed : decode 0b0_00000011#64 = .ok (.feed false) := by decide
theorem test_decode_feed_offset : decode 0b1_00000011#64 = .ok (.feed true) := by decide
theorem test_decode_synth : decode 0b0000000000000101_0000000_0_00000100#64 = .ok (.synth 5) := by decide
theorem test_decode_rsenc : decode 0b00000101#64 = .ok .rsenc := by decide
theorem test_decode_rsdec : decode 0b00000110#64 = .ok .rsdec := by decide
theorem test_decode_ilv : decode 0b00000111#64 = .ok .ilv := by decide
theorem test_decode_dilv : decode 0b00001000#64 = .ok .dilv := by decide
theorem test_decode_gpwr : decode 0b0_00001001#64 = .ok .gpwr := by decide
theorem test_decode_gpwrs : decode 0b0000000000010010_0000000_1_00001001#64 = .ok (.gpwrs 18) := by decide
theorem test_decode_rms : decode 0b00001010#64 = .ok .rms := by decide
theorem test_decode_detect : decode 0b00001011#64 = .ok .detect := by decide
theorem test_decode_map : decode 0b1111111111111111_0000000_0_00001100#64 = .ok (.map 65535) := by decide

theorem test_illegal_imm_on_gpwr : decode 0x0000000000010009#64 = .error .strayImmediate := by decide
theorem test_illegal_op_0d : decode 0x000000000000000D#64 = .error .reservedOpcode := by decide
theorem test_illegal_op_ff : decode 0x00000000000000FF#64 = .error .reservedOpcode := by decide
theorem test_illegal_f_on_nop : decode 0x0000000000000100#64 = .error .strayMode := by decide
theorem test_illegal_rsv0 : decode 0x0000000000000200#64 = .error .reservedBits := by decide
theorem test_illegal_rsvh : decode 0x0000000100000000#64 = .error .reservedBits := by decide
theorem test_illegal_imm_on_rsenc : decode 0x0000000000010005#64 = .error .strayImmediate := by decide
theorem test_illegal_map_high_half : decode 0x0000FFFF0000000C#64 = .error .reservedBits := by decide
theorem test_illegal_short : decodeBytes [0x0A, 0, 0, 0] = .error .notOneWord := by decide

/-- The bytes of a word lie low byte first (rule R87). -/
theorem test_decode_bytes : decodeBytes [0x09, 0x01, 0x12, 0, 0, 0, 0, 0] = .ok (.gpwrs 18) := by decide
theorem test_decode_table_word : decodeTableWord 64 0x120109 = some (.gpwrs 18) := by decide
theorem test_encode_gpwrs : encode (.gpwrs 18) = 0x0000000000120109#64 := by decide
theorem test_encode_feed_offset : encode (.feed true) = 0x0000000000000103#64 := by decide

/-! ### What the assembler refuses (rule R117) -/

theorem test_ill_formed_synth : (Instr.synth 65536).wellFormed = false := by decide
theorem test_ill_formed_gpwrs : (Instr.gpwrs 65536).wellFormed = false := by decide
theorem test_ill_formed_map : (Instr.map 65536).wellFormed = false := by decide
theorem test_well_formed_widest : (Instr.map 65535).wellFormed = true := by decide

/-! ### Small states -/

/-- The next state of an answer, if it has one. -/
def nextOf : Answer → Option State
  | .next t => some t
  | .fault _ => none
  | .refused _ => none

/-- The fault of an answer, if it stops with one. -/
def faultOf : Answer → Option Fault
  | .next _ => none
  | .fault r => some r
  | .refused _ => none

theorem next_of_nextOf {x : Answer} (h : (nextOf x).isSome = true) : ∃ t, x = .next t := by
  cases x with
  | next t => exact ⟨t, rfl⟩
  | fault r => simp [nextOf] at h
  | refused r => simp [nextOf] at h

/-- The registers of EX0 (file 95 §2.1), for a payload of `len` bytes. -/
def ex0 (len : Word) : CfgRegs :=
  { sampleRate := 0x40AF400000000000#64, firstFreq := 0x4059000000000000#64, ratio := 0x3FF0000000000000#64,
    increment := 0x4049000000000000#64, wordTime := 0x3F60624DD2F1A9FC#64, payloadLen := len, trig := 0x1F00#64,
    snr := 0x402E000000000000#64, erasureRatio := 0x4010000000000000#64 }

/-- The registers of EX1 (file 95 §2.1), the multiplicative series. -/
def ex1 : CfgRegs :=
  { sampleRate := 0x40E5888000000000#64, firstFreq := 0x409AE00000000000#64, ratio := 0x3FF0F38F92D97963#64,
    increment := 0, wordTime := 0x3FAEB851EB851EB8#64, payloadLen := 6, trig := 0x1F00#64,
    snr := 0x402E000000000000#64, erasureRatio := 0x4010000000000000#64 }

/-- A block whose WIN and OBUF hold 8 samples, placed at 0x40000000. -/
def small : State := { State.reset with params := { winMax := 8, platformBase := 0x40000000 } }

/-- The window x8 of file 95 §1. -/
def x8 : List F64 :=
  [0x3FF0000000000000#64, 0, 0xBFF0000000000000#64, 0, 0x3FF0000000000000#64, 0, 0xBFF0000000000000#64, 0]

/-- Stored buffers: `win` in WIN, PAY = 12 34, `cw` in CW and `eras` in ERAS. -/
def stored (win : List F64) (cw : List Byte) (eras : List Bool) : Memory :=
  let m0 := Memory.writeWords [] Buf.win.base win
  let m1 := m0.writeBytes Buf.pay.base [0x12, 0x34]
  let m2 := m1.writeBytes Buf.cw.base cw
  m2.writeBytes Buf.eras.base (eras.map erasByte)

/-- The small block configured with EX0 for a payload of `len` bytes, its operands written and its arguments set. -/
def loaded (len : Word) (win : List F64) (cw : List Byte) (eras : List Bool) : State :=
  { State.configure { small with cfg := ex0 len } with
    mem := stored win cw eras
    arg := { freq := 0x408F400000000000#64, amplitude := fOne, offset := 1000, winLen := 8, payLen := len } }

/-- EX0 with x8 in WIN, the codeword 01 03 02 in CW and no erasure. -/
def base1 : State := loaded 1 x8 [0x01, 0x03, 0x02] [false, false, false]

/-- EX0 with a payload of two bytes (the code of EX2), x8 in WIN and the received word 12 34 00 05 (file 95 §4.3). -/
def base2 : State := loaded 2 x8 [0x12, 0x34, 0x00, 0x05] [false, false, false, false]

/-- A block fed zeros. -/
def silent : State := loaded 1 (List.replicate 8 fZero) [0x01, 0x03, 0x02] [false, false, false]

/-- A session in the body of a frame, `count` symbols in. -/
def bodySession (count : Word) : Session :=
  { Session.initial with engine := .triggered, trigValid := true, offset := 64, accCount := count }

/-- A window whose last sample is a NaN: it demodulates to an erasure whatever COS64 is (rule R177). -/
def nanWindow : List F64 := List.replicate 7 fZero ++ [0x7FF8000000000000#64]

/-- A body of EX0 whose two symbols so far are those of the codeword 01 03 02 interleaved: 01 02 (file 95 §5), with a
window in WIN that gives an erasure. -/
def lastGood : State :=
  let s := loaded 1 nanWindow [0x01, 0x03, 0x02] [false, false, false]
  { s with ses := bodySession 2, acc := tableWrite s.acc [0x01, 0x02] }

/-- A body of two payload bytes whose three symbols so far are erasures (file 95 §7.4). -/
def lastBad : State :=
  { base2 with ses := bodySession 3, acce := tableWrite base2.acce [true, true, true] }

/-- The numbers of bytes stored. -/
theorem test_stored_bytes : base1.mem.length = 72 ∧ base2.mem.length = 74 := by decide +kernel

/-! ### Arithmetic (rule R10), fields and codes -/

/-- 0.1 + 0.2 = 0.30000000000000004. -/
theorem test_add : fAdd 0x3FB999999999999A#64 0x3FC999999999999A#64 = 0x3FD3333333333334#64 := by decide +kernel

/-- 1 - 2^-54 rounds to even: 1. -/
theorem test_sub_ties_to_even : fSub fOne 0x3C90000000000000#64 = fOne := by decide +kernel

/-- The least subnormal is kept by a multiplication by 1 and lost by one by 0.5. -/
theorem test_mul_subnormal : fMul 0x1#64 fOne = 0x1#64 ∧ fMul 0x1#64 fHalf = 0 := by decide +kernel

/-- 1/3. -/
theorem test_div : fDiv fOne 0x4008000000000000#64 = 0x3FD5555555555555#64 := by decide +kernel

/-- sqrt(2), and sqrt(0.5) of file 95 §1.1. -/
theorem test_sqrt : fSqrt fTwo = 0x3FF6A09E667F3BCD#64 ∧ fSqrt fHalf = 0x3FE6A09E667F3BCD#64 := by decide +kernel

/-- Both zeros are equal, and a NaN equals nothing. -/
theorem test_compare : fEq 0 0x8000000000000000#64 = true ∧ fEq 0x7FF8000000000000#64 0x7FF8000000000000#64 = false := by
  decide +kernel

/-- File 95 §2.2: 2.5 gives 3, 1.5 gives 2, 0.4 gives 0. -/
theorem test_round_half_up :
    fRoundHalfUp 0x4004000000000000#64 = 3 ∧ fRoundHalfUp 0x3FF8000000000000#64 = 2 ∧
      fRoundHalfUp 0x3FD999999999999A#64 = 0 := by decide +kernel

/-- File 95 §4.1. -/
theorem test_gf :
    gfMul 0x02 0x80 = 0x1D ∧ gfMul 0x53 0xCA = 0x8F ∧ gfMul 0xFF 0xFF = 0xE2 ∧ gfInv 0xFF = 0xFD ∧
      gfExp 254 = 0x8E ∧ gfLog 0x0B = 238 := by decide +kernel

/-- File 95 §4.1: g_2 and g_4. -/
theorem test_generator : genPoly 2 = [0x01, 0x03, 0x02] ∧ genPoly 4 = [0x01, 0x0F, 0x36, 0x78, 0x40] := by
  decide +kernel

/-- File 95 §4.3: "parrot" under EX1. -/
theorem test_encode_parrot :
    rsEncode 4 [0x70, 0x61, 0x72, 0x72, 0x6F, 0x74] =
      [0x70, 0x61, 0x72, 0x72, 0x6F, 0x74, 0xD8, 0x50, 0xD9, 0x5B] := by decide +kernel

/-- File 95 §4.3: two errors, and the miscorrection of three. -/
theorem test_decode_parrot :
    rsDecode 6 4 [0x70, 0x9E, 0x72, 0x72, 0x6F, 0x74, 0xD8, 0x50, 0xD8, 0x5B] (List.replicate 10 false) =
      .success [0x70, 0x61, 0x72, 0x72, 0x6F, 0x74] 2 0 ∧
    rsDecode 6 4 [0x70, 0x2A, 0xD7, 0x72, 0x16, 0x74, 0xD8, 0x50, 0xD9, 0x5B] (List.replicate 10 false) =
      .success [0x70, 0x2A, 0xD7, 0x72, 0x16, 0x74] 2 0 := by decide +kernel

/-- File 95 §4.3: two erasures and an error. -/
theorem test_decode_erasures :
    rsDecode 6 4 [0x70, 0x61, 0x00, 0x72, 0x00, 0x74, 0xD8, 0x05, 0xD9, 0x5B]
      [false, false, true, false, true, false, false, false, false, false] =
      .success [0x70, 0x61, 0x72, 0x72, 0x6F, 0x74] 1 2 := by decide +kernel

/-- File 95 §5. -/
theorem test_shuffle :
    buildShuffle 1 = [0] ∧ buildShuffle 4 = [0, 2, 3, 1] ∧ buildShuffle 10 = [0, 9, 8, 6, 2, 3, 7, 1, 4, 5] := by
  decide +kernel

/-- Rule R266's table at the boundary: P = 2.0 accepts and P = 1.984375 does not, for ms = 2.5 and A_SNR = 4. -/
theorem test_trigger_boundary :
    trigDecide 0x4010000000000000#64 fTwo 0x4004000000000000#64 = true ∧
      trigDecide 0x4010000000000000#64 0x3FFFC00000000000#64 0x4004000000000000#64 = false := by decide +kernel

/-- File 95 §1.1: x8 at a quarter of the rate, for the coefficient the text gives, and a single sample. -/
theorem test_power :
    powerOfCoef 0x3CA1A62633145C07#64 x8 = 0x3FE0000000000000#64 ∧
      powerOfCoef 0x3CA1A62633145C07#64 [0x4008000000000000#64] = 0x4032000000000000#64 := by decide +kernel

/-! ### One command each (file 95 §§1 to 5, 8.3, 9) -/

theorem test_nop :
    (nextOf (exec .nop { small with result := .decodeFail })).map (·.readReg .status) = some 0 := by decide +kernel

/-- EX0: what CONFIG derives. -/
theorem test_config :
    (nextOf (exec .config { State.reset with cfg := ex0 1 })).map (fun t =>
      [t.readReg .status, t.readReg .drvWindowLen, t.readReg .drvParityLen, t.readReg .drvCodewordLen,
        t.readReg .drvFrameWindows, t.readElem .perm 1 0, t.readElem .perm 3 0, t.readElem .freq 18 0]) =
      some [0x200, 8, 2, 3, 5, 2, 0, 0x408F400000000000#64] := by decide +kernel

/-- The failures of file 95 §2.3, checks 1 to 10 in order, each from EX0; the tenth row changes two fields. -/
theorem test_config_failures :
    [ { ex0 1 with sampleRate := 0 },
      { ex0 1 with wordTime := 0xBFF0000000000000#64 },
      { ex0 1 with wordTime := 0x3F1A36E2EB1C432D#64 },
      { ex0 1 with firstFreq := 0 },
      { ex0 1 with ratio := 0x3FECCCCCCCCCCCCD#64 },
      { ex0 1 with increment := 0x4051800000000000#64 },
      { ex0 1 with payloadLen := 224 },
      { ex0 1 with trig := 0x2000 },
      { ex0 1 with snr := 0 },
      { ex0 0 with sampleRate := 0 },
      { ex0 1 with erasureRatio := 0xBFF0000000000000#64 },
      ex0 223 ].map (validateCode Params.default) = [1, 2, 3, 4, 5, 6, 7, 8, 9, 1, 10, 0] := by decide +kernel

theorem test_sreset :
    (nextOf (exec .sreset lastBad)).map (fun t => (t.ses, t.readReg .status)) = some (Session.initial, 0x200) := by
  decide +kernel

/-- File 95 §8.3: FEED without a configuration. -/
theorem test_feed_without_configuration :
    (nextOf (exec (.feed false) State.reset)).map (fun t => [t.readReg .status, t.readReg .err, t.readReg .irqPend]) =
      some [0x2, 0x2, 0x8] := by decide +kernel

/-- Rule R303: a window of the wrong length is rejected and the stream index stays. -/
theorem test_feed_rejects_length :
    (nextOf (exec (.feed true) { base1 with arg := { base1.arg with winLen := 7 } })).map (fun t =>
      [t.readReg .status, t.readReg .err, t.readReg .sesOffset]) = some [0x204, 0x8, 0] := by decide +kernel

/-- The preamble windows 0 and 1 and the body windows need different operands; window N + 2 is out of range. -/
theorem test_synth_range :
    (nextOf (exec (.synth 5) base1)).map (·.readReg .status) = some 0x206 ∧
      (nextOf (exec (.synth 4) { base1 with arg := { base1.arg with payLen := 2 } })).map (·.readReg .status) =
        some 0x205 := by decide +kernel

/-- A preamble window needs no payload; a body window does (rules R284, R364). -/
theorem test_synth_operands :
    (nextOf (exec (.synth 1) { base1 with mem := [] })).map (fun t => (t.readReg .status, t.mem.length)) =
        some (0x200, 64) ∧
      faultOf (exec (.synth 2) { base1 with mem := [] }) = some (.unwrittenElement .pay 0) := by decide +kernel

/-- File 95 §4.3: 12 34 gives 12 34 22 04. -/
theorem test_rsenc :
    (nextOf (exec .rsenc base2)).map (fun t => (List.range 4).map (t.byteElem .cw)) =
      some [some 0x12, some 0x34, some 0x22, some 0x04] := by decide +kernel

/-- File 95 §9 P2: the erasure is filled, and then two errors are too many. -/
theorem test_rsdec :
    (nextOf (exec .rsdec (loaded 2 x8 [0x12, 0x34, 0x00, 0x04] [false, false, true, false]))).map
        (fun t => (t.readReg .status, t.readReg .resDecode, t.byteElem .pay 1)) =
        some (0x200, 0x00010100, some 0x34) ∧
      (nextOf (exec .rsdec base2)).map (fun t => [t.readReg .status, t.readReg .resDecode, t.readReg .err]) =
        some [0x207, 0, 0] := by decide +kernel

/-- File 95 §5: 12 34 22 04 interleaves to 12 22 04 34. -/
theorem test_ilv :
    (nextOf (exec .ilv (loaded 2 x8 [0x12, 0x34, 0x22, 0x04] [false, true, false, false]))).map (fun t =>
      ((List.range 4).map (t.byteElem .cw), (List.range 4).map t.erasElem)) =
      some ([some 0x12, some 0x22, some 0x04, some 0x34], [some false, some false, some false, some true]) := by
  decide +kernel

/-- File 95 §5: 12 22 04 34 with ERAS 0 1 0 0 gives back 12 34 22 04 with ERAS 0 0 1 0. -/
theorem test_dilv :
    (nextOf (exec .dilv (loaded 2 x8 [0x12, 0x22, 0x04, 0x34] [false, true, false, false]))).map (fun t =>
      ((List.range 4).map (t.byteElem .cw), (List.range 4).map t.erasElem)) =
      some ([some 0x12, some 0x34, some 0x22, some 0x04], [some false, some false, some true, some false]) := by
  decide +kernel

/-- File 95 §1.3: fs/2 is out of range, and RES_POWER stays. -/
theorem test_gpwr_range :
    (nextOf (exec .gpwr { base1 with arg := { base1.arg with freq := 0x409F400000000000#64 } })).map (fun t =>
      [t.readReg .status, t.readReg .resPower]) = some [0x206, 0] := by decide +kernel

theorem test_gpwr_runs : (nextOf (exec .gpwr base1)).map (·.readReg .status) = some 0x200 := by decide +kernel

theorem test_gpwrs_range :
    (nextOf (exec (.gpwrs 32) base1)).map (·.readReg .status) = some 0x206 ∧
      (nextOf (exec (.gpwrs 31) base1)).map (·.readReg .status) = some 0x200 := by decide +kernel

/-- File 95 §1.3: RMS in the reset state. -/
theorem test_rms :
    (nextOf (exec .rms { small with mem := base1.mem, arg := base1.arg })).map (fun t =>
      [t.readReg .resRms, t.readReg .status]) = some [0x3FE6A09E667F3BCD#64, 0] := by decide +kernel

theorem test_rms_length :
    (nextOf (exec .rms { base1 with arg := { base1.arg with winLen := 9 } })).map (fun t =>
      [t.readReg .status, t.readReg .err]) = some [0x204, 0x8] := by decide +kernel

theorem test_detect_runs :
    (nextOf (exec .detect base1)).map (fun t => (t.readReg .status, t.mem == base1.mem)) = some (0x200, true) := by
  decide +kernel

theorem test_detect_unwritten :
    faultOf (exec .detect { base1 with mem := [] }) = some (.unwrittenElement .win 0) := by decide +kernel

/-- File 95 §3.1. -/
theorem test_map :
    (nextOf (exec (.map 0xA5) State.reset)).map (·.readReg .resSymbol) = some 0x1A0500A5 ∧
      (nextOf (exec (.map 0xFF) State.reset)).map (·.readReg .resSymbol) = some 0x1F0F00FF := by decide +kernel

theorem test_map_range : (nextOf (exec (.map 256) State.reset)).map (·.readReg .status) = some 0x6 := by decide +kernel

/-! ### The bus (file 95 §8.2) -/

theorem test_bus_reads :
    (memRead State.reset 64 0x000).2 = 0x0000000151525443#64 ∧ (memRead State.reset 64 0x138).2 = 0 ∧
      (memRead State.reset 64 0x800).2 = 0 ∧ (memRead State.reset 64 0x180000).2 = 0 := by decide +kernel

theorem test_bus_errors :
    ((memRead State.reset 64 0x004).1.err, (memRead State.reset 64 0x004).2) = (0x40, 0) ∧
      (nextOf (memWrite State.reset 64 0x003800 1)).map (fun t => (t.err, t.irqPend)) = some (0x40, 0x8) ∧
      (nextOf (memWrite State.reset 64 0x300000 1)).map (·.err) = some 0x40 := by decide +kernel

/-- An illegal word: RESULT 1, ERR bit 0, IRQ_PEND.ERROR, and CMD reads back the word (file 95 §8.1a). -/
theorem test_illegal_word :
    (nextOf (step { State.reset with hostQueue := [issueAt Params.default 0x0000FFFF0000000C#64] })).map (fun t =>
      [t.readReg .status, t.readReg .err, t.readReg .irqPend, t.readReg .cmd]) =
      some [0x1, 0x1, 0x8, 0x0000FFFF0000000C#64] := by decide +kernel

/-- Rule R80: the block at 0x40000000 answers for its own 4 MiB, offset 0 first, and for nothing beside them. -/
theorem test_platform_base :
    [0x40000000, 0x403FFFF8, 0x3FFFFFF8, 0x40400000].map (Params.offsetOf? small.params) =
      [some 0x000000, some 0x3FFFF8, none, none] ∧
    (nextOf (step { small with hostQueue := [.read 64 0x40000000] })).map (·.busData) =
      some 0x0000000151525443#64 := by decide +kernel

/-- Every register stands in the map of rules R31 to R41, at its own offset. -/
theorem test_register_map : registerMap = Reg.all.map (fun r => (r.offset, r)) ∧ registerMap.length = 37 := by decide

/-! ### Witnesses -/

/-- The configurations used are valid, at both ends of the payload length (rule R146). -/
theorem witness_valid_configurations :
    validateCode small.params (ex0 1) = 0 ∧ validateCode small.params (ex0 2) = 0 ∧
      validateCode Params.default (ex0 223) = 0 ∧ validateCode Params.default ex1 = 0 ∧
      Params.inRange small.params ∧ Params.inRange Params.default := by decide +kernel

theorem witness_EncodeThenDecode :
    (Instr.synth 65535).wellFormed = true ∧ (Instr.gpwrs 0).wellFormed = true ∧ (Instr.feed true).wellFormed = true := by
  decide

theorem witness_DecodeThenEncode : decode 0x00000000FFFF000C#64 = .ok (.map 65535) := by decide

/-- One word for each of the cases (a) to (d) of rule R114. -/
theorem witness_IllegalWordsAreExactlyTheReservedOnes :
    ∀ v ∈ [0x000000000000000D#64, 0x0000000000000200#64, 0x0000000000000100#64, 0x0000000000010009#64],
      ∃ r, decode v = .error r := by
  intro v hv
  simp only [List.mem_cons, List.not_mem_nil, or_false] at hv
  rcases hv with rfl | rfl | rfl | rfl
  · exact ⟨.reservedOpcode, by decide⟩
  · exact ⟨.reservedBits, by decide⟩
  · exact ⟨.strayMode, by decide⟩
  · exact ⟨.strayImmediate, by decide⟩

/-- The small block with one event pending. -/
def pending (h : HostAccess) : State := { small with hostQueue := [h] }

/-- A legal and an illegal word at CMD's address, a read, a write and a reset that reach the block, the addresses just below
and just above its window, and an empty queue. -/
theorem witness_StepRunsTheIssuedCommand :
    (∀ v, (pending (issueAt small.params v)).hostQueue = .write 64 (small.params.platformBase + 0x008) v :: []) ∧
      decode 0xA5000C#64 = .ok (.map 0xA5) ∧ decode 0x200#64 = .error .reservedBits ∧
      decodeTableWord 64 0xA5000C = some (.map 0xA5) ∧
      (pending (.read 32 0x403FFFFF)).hostQueue = .read 32 (small.params.platformBase + (0x3FFFFF#22).toNat) :: [] ∧
      (pending (.write 64 0x40000000 1)).hostQueue = .write 64 (small.params.platformBase + (0x0#22).toNat) 1 :: [] ∧
      (pending .reset).hostQueue = .reset :: [] ∧
      (∀ n ∈ [0x3FFFFFF8, 0x40400000],
        ¬ (small.params.platformBase ≤ n ∧ n < small.params.platformBase + 0x400000)) ∧
      State.reset.hostQueue = [] := by
  refine ⟨fun v => rfl, ?_⟩
  decide

/-- An access of each erroneous kind, at the edges of the map, and one of the other kind. -/
theorem witness_BusErrorsReportAndDoNothingElse :
    (32 ≠ 64) ∧ (0x004#22).toNat % 8 ≠ 0 ∧ (0x003800 ≤ (0x003800#22).toNat ∧ (0x0FFFF8#22).toNat ≤ 0x0FFFFF) ∧
      0x300000 ≤ (0x300000#22).toNat ∧
      ¬ (64 ≠ 64 ∨ (0x2FFFF8#22).toNat % 8 ≠ 0 ∨ (0x003800 ≤ (0x2FFFF8#22).toNat ∧ (0x2FFFF8#22).toNat ≤ 0x0FFFFF) ∨
        0x300000 ≤ (0x2FFFF8#22).toNat) ∧ (0x2FFFF8#22) ≠ 0x008#22 ∧
      (nextOf (perform State.reset (.write 64 0x2FFFF8#22 1))).isSome = true := by decide +kernel

/-- The offsets just after IRQ_PEND, after the last register, and at the end of the block are reserved. -/
theorem witness_FlagAndReadOnlyRegisterWrites :
    ∀ n ∈ [0x030, 0x138, 0x7F8], n < 0x800 ∧ n % 8 = 0 ∧ ∀ r : Reg, r.offset ≠ n := by
  have h : ∀ n ∈ [0x030, 0x138, 0x7F8], n < 0x800 ∧ n % 8 = 0 ∧ ∀ r ∈ Reg.all, r.offset ≠ n := by decide
  exact fun n hn => ⟨(h n hn).1, (h n hn).2.1, fun r => (h n hn).2.2 r r.mem_all⟩

/-- The last element of each writable buffer, the first word beyond it, and a read-only buffer. -/
theorem witness_BufferElementsHoldWhatIsWritten :
    State.reset.params.inRange ∧ 65535 < Buf.capacity State.reset.params .win ∧
      254 < Buf.capacity State.reset.params .pay ∧ 254 < Buf.capacity State.reset.params .cw ∧
      254 < Buf.capacity State.reset.params .eras ∧
      (8 * 255 < Buf.windowBytes .cw ∧ Buf.capacity State.reset.params .cw ≤ 255) ∧
      (8 * 65536 < Buf.windowBytes .win ∧ Buf.capacity State.reset.params .win ≤ 65536) ∧
      8 * 0 < Buf.windowBytes .obuf := by decide

theorem witness_BufferReadValues :
    (8 * 32 < Buf.windowBytes .freq ∧ Buf.capacity State.reset.params .freq ≤ 32) ∧
      (8 * 254 < Buf.windowBytes .eras ∧ 254 < Buf.capacity State.reset.params .eras ∧
        State.reset.written .eras 254 = false) ∧
      (8 * 65535 < Buf.windowBytes .obuf ∧ 65535 < Buf.capacity State.reset.params .obuf ∧
        State.reset.written .obuf 65535 = false) ∧
      (8 * 7 < Buf.windowBytes .win ∧ 7 < Buf.capacity base1.params .win ∧ base1.sample .win 7 = some 0) ∧
      (8 * 7 < Buf.windowBytes .obuf ∧ 7 < Buf.capacity base1.params .obuf ∧
        (base1.storeObuf (x8.take 7 ++ [fOne])).sample .obuf 7 = some fOne) ∧
      (∀ b ∈ [Buf.pay, .cw], 254 < 255 ∧ (base1.writeElem b 254 0x1A5#64).byteElem b 254 = some 0xA5) ∧
      (254 < 255 ∧ (base1.writeElem .eras 254 1#64).erasElem 254 = some true) := by decide +kernel

theorem witness_CommandsNeverClearFlags : ∃ t, exec (.feed false) State.reset = .next t :=
  next_of_nextOf (by decide +kernel)

/-- A command that raises, and a CONFIG that does. -/
theorem witness_RaiseIsPrecise :
    (∃ t, exec .ilv State.reset = .next t ∧ t.result = .error .noCfg) ∧
      ∃ t, exec .config State.reset = .next t ∧ t.result = .error .config := by
  constructor
  · exact ⟨_, rfl, rfl⟩
  · refine ⟨State.reset.configFail 1, ?_, rfl⟩
    have h : validateCode State.reset.params State.reset.cfg = 1 := by decide +kernel
    simp [exec, execConfig, h]

/-- Both outcomes of the checks: FEED without a configuration, and RMS with its operands. -/
theorem witness_ChecksDecideTheErrorInOrder :
    decode 0x200#64 = .error .reservedBits ∧ firstFailing State.reset (.feed false) = some .noCfg ∧
      firstFailing base1 .rms = none ∧ firstFailing State.reset .config = some .config ∧
      firstFailing { base1 with arg := { base1.arg with winLen := 9, freq := 0 } } .gpwr = some .winLen ∧
      firstFailing { base1 with arg := { base1.arg with freq := 0x409F400000000000#64 } } .gpwr = some .range ∧
      firstFailing { base1 with arg := { base1.arg with payLen := 2 } } .rsenc = some .payLen := by decide +kernel

theorem witness_EveryCommandWordWritesResult :
    (nextOf (execute State.reset 0xA5000C#64)).isSome = true ∧ firstFailing base1 .nop = none ∧
      firstFailing base1 (.gpwrs 32) = some .range ∧ ((0x010#22 : Addr) ≠ 0x008#22) ∧
      (nextOf (perform State.reset (.write 64 0x010#22 1))).isSome = true ∧
      (nextOf (perform State.reset (.read 64 0x010#22))).isSome = true := by decide +kernel

theorem witness_OnlyFiveCommandsExecuteWithoutAConfiguration : State.reset.cfgValid = false := rfl

/-- The commands, each with operands its semantics admits. -/
def everyCommand : List Instr :=
  [.nop, .config, .sreset, .feed false, .feed true, .synth 0, .synth 4, .rsenc, .rsdec] ++
  [.ilv, .dilv, .gpwr, .gpwrs 31, .rms, .detect, .map 255]

/-- One state in which every command passes its checks and finds its operands written. -/
theorem witness_CommandsCompleteOnWrittenOperands :
    ∀ i ∈ everyCommand, firstFailing base1 i = none ∧ operandsWritten base1 i := by
  unfold operandsWritten
  decide +kernel

theorem witness_CommandsFaultExactlyOnUnwrittenOperands :
    firstFailing { base1 with mem := [] } .dilv = none ∧ ¬ operandsWritten { base1 with mem := [] } .dilv ∧
      faultOf (exec .dilv { base1 with mem := [] }) = some (.unwrittenElement .cw 0) := by
  unfold operandsWritten
  decide +kernel

theorem witness_NopWritesOnlyResult : fieldOp 0x100#64 = 0 ∧ (0x100#64 : Word) ≠ 0 := by decide

theorem witness_ConfigCapturesAValidConfiguration :
    validateCode { small with cfg := ex0 1 }.params { small with cfg := ex0 1 }.cfg = 0 := by decide +kernel

theorem witness_ConfigRejectsAnInvalidConfiguration :
    validateCode State.reset.params State.reset.cfg ≠ 0 := by decide +kernel

/-- A register set for which no check fails, and one for each of the ten for which that check is the first to fail. -/
theorem witness_ValidationReportsTheFirstFailingCheck :
    (∀ k, k < 10 → (configChecks Params.default (ex0 1)).getD k false = true) ∧
    (∀ ck ∈ [({ ex0 1 with sampleRate := 0 }, 0), ({ ex0 1 with wordTime := 0 }, 1),
        ({ ex0 1 with wordTime := 0x3F1A36E2EB1C432D#64 }, 2), ({ ex0 1 with firstFreq := 0 }, 3),
        ({ ex0 1 with increment := 0 }, 4), ({ ex0 1 with increment := 0x4051800000000000#64 }, 5),
        (ex0 224, 6), ({ ex0 1 with trig := 0 }, 7), ({ ex0 1 with snr := 0 }, 8),
        ({ ex0 1 with erasureRatio := 0xBFF0000000000000#64 }, 9)],
      (configChecks Params.default ck.1).getD ck.2 true = false ∧
        ∀ j, j < ck.2 → (configChecks Params.default ck.1).getD j false = true) := by decide +kernel

theorem witness_ValidConfigurationsDeriveLengthsInRange :
    Params.inRange Params.default ∧ validateCode Params.default (ex0 1) = 0 ∧
      validateCode Params.default (ex0 223) = 0 := by decide +kernel

theorem witness_WindowLengthRoundsHalfUp :
    fFinite 0x4004000000000000#64 = true ∧ fSign 0x4004000000000000#64 = false ∧ fFinite 0 = true ∧ fSign 0 = false := by
  decide

theorem witness_ValidFrequencyTablesLieInTheGoertzelDomain :
    validateCode Params.default ex1 = 0 ∧ validateCode Params.default (ex0 1) = 0 := by decide +kernel

/-- The hypotheses of the analysis commands, with the frequency of GPWR and the slots of GPWRS. -/
theorem witness_PowerCommandsWriteThePower :
    base1.cfgValid = true ∧ 1 ≤ base1.arg.winLen.toNat ∧ base1.arg.winLen.toNat ≤ base1.params.winMax ∧
      (∀ i, i < base1.arg.winLen.toNat → (base1.sample .win i).isSome = true) ∧
      fFinite base1.arg.freq = true ∧ fGt base1.arg.freq fZero = true ∧
      fLt base1.arg.freq (fMul base1.active.fs fHalf) = true ∧ 31 ≤ 31 := by decide +kernel

theorem witness_RmsWritesTheRootMeanSquare :
    1 ≤ base1.arg.winLen.toNat ∧ base1.arg.winLen.toNat ≤ base1.params.winMax ∧
      ∀ i, i < base1.arg.winLen.toNat → (base1.sample .win i).isSome = true := by decide +kernel

theorem witness_DetectWritesTheSymbolWord :
    base1.cfgValid = true ∧ 1 ≤ base1.arg.winLen.toNat ∧ base1.arg.winLen.toNat ≤ base1.params.winMax ∧
      ∀ i, i < base1.arg.winLen.toNat → (base1.sample .win i).isSome = true := by decide +kernel

theorem witness_DetectOfSilenceIsAnErasure :
    silent.cfgValid = true ∧ 1 ≤ silent.arg.winLen.toNat ∧ silent.arg.winLen.toNat ≤ silent.params.winMax ∧
      ∀ i, i < silent.arg.winLen.toNat → silent.sample .win i = some fZero := by decide +kernel

theorem witness_MapIsABijectionOntoTheSlotPairs :
    0 < 256 ∧ 255 < 256 ∧ (0 < 16 ∧ 16 ≤ 16 ∧ 16 < 32) ∧ (15 < 16 ∧ 16 ≤ 31 ∧ 31 < 32) := by decide

/-- A lane with a NaN at slot 0 and one without. -/
theorem witness_LaneWinnerIsTheLowestGreatest :
    ((0x7FF8000000000000#64 :: List.replicate 15 fOne : List F64)).length = 16 ∧
      fIsNaN ((0x7FF8000000000000#64 :: List.replicate 15 fOne : List F64).getD 0 fZero) = true ∧
      (List.replicate 16 fOne : List F64).length = 16 ∧
      fIsNaN ((List.replicate 16 fOne : List F64).getD 0 fZero) = false := by decide

/-- The two sides of the bound. -/
theorem witness_MapWritesTheSymbolWord : 255 ≤ 255 ∧ 255 < 256 := by decide

theorem witness_NanPropagatesAndDecidesNothing :
    fIsNaN 0x7FF0000000000001#64 = true ∧ (∃ v ∈ [fOne, 0x7FF0000000000001#64], fIsNaN v = true) ∧
      fIsNaN ((List.replicate 16 0x7FF8000000000000#64 : List F64).getD
        (laneWinner (List.replicate 16 0x7FF8000000000000#64)) fZero) = true :=
  ⟨by decide, ⟨0x7FF0000000000001#64, by simp, by decide⟩, by decide +kernel⟩

/-- Finite operands, a divisor that is not zero, and the largest integer `float` is exact at. -/
theorem witness_ArithmeticIsCorrectlyRounded :
    fFinite fOne = true ∧ fFinite fTwo = true ∧ fRat fTwo ≠ 0 ∧ 2 ^ 53 - 1 < 2 ^ 53 := by
  refine ⟨by decide, by decide, ?_, by decide⟩
  have h : fUnpack fTwo = .fin false (2 ^ 52) (-51) := by decide +kernel
  norm_num [fRat, h, signedMant]

theorem witness_SquareRootIsCorrectlyRounded : fFinite fTwo = true ∧ 0 ≤ fRat fTwo := by
  refine ⟨by decide, ?_⟩
  have h : fUnpack fTwo = .fin false (2 ^ 52) (-51) := by decide +kernel
  norm_num [fRat, h, signedMant]

theorem witness_ComparisonsOrderFiniteValues : fFinite 0 = true ∧ fFinite 0x8000000000000000#64 = true := by decide

theorem witness_FieldOperationsAgreeWithTheTables : 253 < 254 ∧ 254 < 255 ∧ (0xFF : Byte) ≠ 0 := by decide

theorem witness_RsencWritesTheCodeword :
    base2.cfgValid = true ∧ base2.arg.payLen = base2.active.len ∧
      ∀ i, i < base2.len → (base2.byteElem .pay i).isSome = true := by decide +kernel

/-- Both results of the decoder. -/
theorem witness_RsdecWritesTheMessageOrReportsFailure :
    (base1.cfgValid = true ∧ (∀ i, i < base1.ncw → (base1.byteElem .cw i).isSome = true) ∧
      (∀ i, i < base1.ncw → (base1.erasElem i).isSome = true) ∧
      rsDecode base1.len base1.parity (base1.cwBytes base1.ncw) (base1.erasBits base1.ncw) = .success [0x01] 0 0) ∧
    (base2.cfgValid = true ∧ (∀ i, i < base2.ncw → (base2.byteElem .cw i).isSome = true) ∧
      (∀ i, i < base2.ncw → (base2.erasElem i).isSome = true) ∧
      rsDecode base2.len base2.parity (base2.cwBytes base2.ncw) (base2.erasBits base2.ncw) = .failure 0) := by
  decide +kernel

/-- A received word with a codeword within the radius (file 95 §4.3), and one with more erasures than parity bytes. -/
theorem witness_RsDecodeFindsTheCodewordWithinTheRadius :
    (RsShape 2 2 [0x12, 0x34, 0x00, 0x04] [false, false, true, false] ∧
      WithinRadius 2 [0x12, 0x34, 0x00, 0x04] [false, false, true, false] [0x12, 0x34, 0x22, 0x04]) ∧
    (RsShape 2 2 [0x12, 0x34, 0x00, 0x04] [true, true, true, false] ∧
      ∀ c, ¬ WithinRadius 2 [0x12, 0x34, 0x00, 0x04] [true, true, true, false] c) := by
  refine ⟨⟨?_, ?_⟩, ?_, ?_⟩
  · unfold RsShape; decide
  · unfold WithinRadius IsCodeword; decide +kernel
  · unfold RsShape; decide
  · intro c h
    have hn : erasureCount [true, true, true, false] = 3 := by decide
    have := h.2
    omega

theorem witness_RsDecodeSuccessIsACodewordWithinTheRadius :
    rsDecode 2 2 [0x12, 0x34, 0x00, 0x04] [false, false, true, false] = .success [0x12, 0x34] 0 1 ∧
      rsDecode 2 2 [0x12, 0x34, 0x00, 0x05] [false, false, false, false] = .failure 0 := by decide +kernel

theorem witness_ErasedValuesDoNotMatter :
    ∀ i, i < ([0x12, 0x34, 0x00, 0x04] : List Byte).length → [false, false, true, false].getD i false = false →
      ([0x12, 0x34, 0x00, 0x04] : List Byte).getD i 0 = ([0x12, 0x34, 0x77, 0x04] : List Byte).getD i 0 := by decide

theorem witness_UnapplyInvertsApply :
    (1 ≤ 1 ∧ 1 ≤ 255 ∧ [7].length = 1) ∧ (1 ≤ 255 ∧ 255 ≤ 255 ∧ (List.range 255).length = 255) := by
  refine ⟨by decide, by decide, by decide, List.length_range⟩

theorem witness_InterleaverCommandsPermuteCwAndEras :
    base2.cfgValid = true ∧ (∀ i, i < base2.ncw → (base2.byteElem .cw i).isSome = true) ∧
      (∀ i, i < base2.ncw → (base2.erasElem i).isSome = true) ∧ base2.ncw ≤ 255 ∧
      base2.permList = buildShuffle base2.ncw := by decide +kernel

/-- A preamble window with nothing in PAY, and the last body window. -/
theorem witness_SynthWritesOneWindowOfTheFrame :
    base1.cfgValid = true ∧ base1.arg.payLen = base1.active.len ∧ 0 < base1.len + base1.parity + 2 ∧
      4 < base1.len + base1.parity + 2 ∧ fFinite base1.arg.amplitude = true ∧
      fGt base1.arg.amplitude fZero = true ∧ ∀ i, i < base1.len → (base1.byteElem .pay i).isSome = true := by
  decide +kernel

/-! #### States that meet the invariant -/

/-- A cell lies in an element a buffer of the small block has; an ERAS element is a bit. -/
def cellOk (c : Host.Cell) : Bool :=
  (c.1 % 8 == 0 && (decide (0x1000 ≤ c.1 ∧ c.1 < 0x17F8) || decide (0x2000 ≤ c.1 ∧ c.1 < 0x27F8)
    || (decide (0x2800 ≤ c.1 ∧ c.1 < 0x2FF8) && decide (c.2.toNat ≤ 1))))
    || decide (0x100000 ≤ c.1 ∧ c.1 < 0x100040)

theorem cellOk_placed {c : Host.Cell} (h : cellOk c = true) : cellPlaced small.params c.1 := by
  simp only [cellOk, Bool.or_eq_true, Bool.and_eq_true, beq_iff_eq, decide_eq_true_eq] at h
  unfold cellPlaced inByteElems inWords Buf.elemAddr
  rcases h with ⟨h8, (h | h) | ⟨h, -⟩⟩ | h
  · exact .inl ⟨(c.1 - 0x1000) / 8, by simp only [Config.bufBytes, Buf.base]; omega⟩
  · exact .inr (.inl ⟨(c.1 - 0x2000) / 8, by simp only [Config.bufBytes, Buf.base]; omega⟩)
  · exact .inr (.inr (.inl ⟨(c.1 - 0x2800) / 8, by simp only [Config.bufBytes, Buf.base]; omega⟩))
  · have h8 : small.params.winMax = 8 := rfl
    exact .inr (.inr (.inr (.inl (by simp only [Buf.base, h8]; omega))))

theorem cellOk_bit {a : Nat} {v : Byte} (h : cellOk (a, v) = true) (h1 : 0x2800 ≤ a) (h2 : a < 0x2FF8) :
    v = 0 ∨ v = 1 := by
  simp only [cellOk, Bool.or_eq_true, Bool.and_eq_true, beq_iff_eq, decide_eq_true_eq] at h
  have hv : v.toNat ≤ 1 := by omega
  rcases Nat.le_one_iff_eq_zero_or_eq_one.1 hv with h0 | h0
  · exact .inl (BitVec.eq_of_toNat_eq h0)
  · exact .inr (BitVec.eq_of_toNat_eq h0)

/-- The stored buffers of the small states. -/
theorem storage_of_cells (s : State) (hp : s.params = small.params) (hw : Memory.wf s.mem)
    (hc : ∀ c ∈ s.mem, cellOk c = true) (h1 : wholeWords s.mem .win 8) (h2 : wholeWords s.mem .obuf 8) :
    StorageOk s := by
  refine ⟨hw, fun c h => by rw [hp]; exact cellOk_placed (hc c h), by rw [hp]; exact h1, by rw [hp]; exact h2, ?_⟩
  intro i hi b hb
  have hm := hc _ (Memory.mem_of_read hb)
  simp only [Config.bufBytes] at hi
  exact cellOk_bit hm (by simp only [Buf.elemAddr, Buf.base]; omega) (by simp only [Buf.elemAddr, Buf.base]; omega)

theorem base1_storage : StorageOk base1 := by
  refine storage_of_cells base1 rfl ?_ ?_ ?_ ?_ <;> (try unfold wholeWords) <;> decide +kernel

theorem base2_storage : StorageOk base2 := by
  refine storage_of_cells base2 rfl ?_ ?_ ?_ ?_ <;> (try unfold wholeWords) <;> decide +kernel

theorem base1_configured : ConfiguredBy base1 (ex0 1) := by
  constructor <;> decide +kernel

theorem base2_configured : ConfiguredBy base2 (ex0 2) := by
  constructor <;> decide +kernel

theorem base1_config : ConfigOk base1 :=
  ⟨by decide, fun _ => ⟨_, base1_configured⟩, fun h => absurd h (by decide +kernel)⟩

theorem base2_config : ConfigOk base2 :=
  ⟨by decide, fun _ => ⟨_, base2_configured⟩, fun h => absurd h (by decide +kernel)⟩

theorem base1_session : SessionOk base1 := by
  constructor <;> decide +kernel

/-- The invariant does not look at CMD, at the pending accesses or at the counter of free values. -/
theorem inv_withFetchWord {s : State} (h : Inv s) (n w : Nat) : Inv (s.withFetchWord n w) :=
  ⟨⟨h.1.1, h.1.2, h.1.3, h.1.4, h.1.5⟩,
    ⟨h.2.1, fun hv => let ⟨c, hc⟩ := h.2.2 hv; ⟨c, hc.1, hc.2, hc.3, hc.4, hc.5⟩, h.2.3⟩,
    ⟨h.3.1, h.3.2, h.3.3, h.3.4, h.3.5, h.3.6, h.3.7, h.3.8, h.3.9, h.3.10⟩⟩

theorem base1_inv : Inv base1 := ⟨base1_storage, base1_config, base1_session⟩

theorem witness_StepKeepsTheInvariant :
    Inv (base1.withFetchWord 64 0x3) ∧ ∃ t, step (base1.withFetchWord 64 0x3) = .next t :=
  ⟨inv_withFetchWord base1_inv 64 0x3, next_of_nextOf (by decide +kernel)⟩

theorem witness_IlvThenDilvRestoresTheState :
    Inv base1 ∧ base1.cfgValid = true ∧ base1.cwReady base1.ncw := by
  refine ⟨base1_inv, by decide +kernel, ?_⟩
  unfold State.cwReady Ready
  decide +kernel

theorem witness_CommandsNeverWriteWinOrArguments : Inv base1 ∧ ∃ t, exec .rsenc base1 = .next t :=
  ⟨base1_inv, next_of_nextOf (by decide +kernel)⟩

theorem witness_ConfigurationIsCapturedNotLive : ∃ t, exec .rsdec base1 = .next t :=
  next_of_nextOf (by decide +kernel)

theorem witness_AnalysisCommandsAreSessionNeutral :
    (∃ t, exec .detect base1 = .next t) ∧
      ∃ t, perform lastBad .reset = .next t ∧ t.ses ≠ lastBad.ses :=
  ⟨next_of_nextOf (by decide +kernel), _, rfl, by decide +kernel⟩

theorem witness_SilentWindowsOnlyAdvanceTheStreamOffset :
    silent.cfgValid = true ∧ silent.arg.winLen = silent.drv.windowLen ∧
      (∀ i, i < silent.windowLen → silent.sample .win i = some fZero) ∧ silent.ses.engine = .idle ∧
      silent.ses.trigSub = .searching := by decide +kernel

theorem lastBad_inv : Inv lastBad := by
  refine ⟨⟨base2_storage.1, base2_storage.2, base2_storage.3, base2_storage.4, base2_storage.5⟩,
    ⟨base2_config.1, fun _ => ⟨ex0 2, base2_configured.1, base2_configured.2, base2_configured.3, base2_configured.4,
      base2_configured.5⟩, fun h => absurd h (by decide +kernel)⟩, ?_⟩
  constructor <;> decide +kernel

/-! #### The end of a body -/

/-- With three erasures already, the body of `lastBad` does not decode, whatever its last symbol. -/
theorem last_bad_fails :
    ∀ v, v < 256 → ∀ e : Bool,
      rsDecode 2 2 (unapplyPerm [0, 2, 3, 1] [0x00, 0x00, 0x00, BitVec.ofNat 8 v])
        (unapplyPerm [0, 2, 3, 1] [true, true, true, e]) = .failure (if e then 4 else 3) := by decide +kernel

/-- A fact about every byte from one about every number below 256. -/
theorem byte_forall {p : Byte → Prop} (h : ∀ v, v < 256 → p (BitVec.ofNat 8 v)) (y : Byte) : p y := by
  have := h y.toNat y.isLt
  rwa [BitVec.ofNat_toNat, BitVec.setWidth_eq] at this

/-- The value at an erased position does not enter the decode of this word. -/
theorem erased_middle (y : Byte) :
    rsDecode 1 2 [0x01, y, 0x02] [false, true, false] = rsDecode 1 2 [0x01, 0x00, 0x02] [false, true, false] := by
  have he (c : List Byte) : errorsOutside [0x01, y, 0x02] [false, true, false] c =
      errorsOutside [0x01, 0x00, 0x02] [false, true, false] c := by
    refine congrArg List.length (List.filter_congr fun i hi => ?_)
    have h3 : i < 3 := List.mem_range.1 hi
    obtain rfl | rfl | rfl : i = 0 ∨ i = 1 ∨ i = 2 := by omega
    all_goals rfl
  have hz : (List.range 3).map (fun i => if [false, true, false].getD i false then 0 else [0x01, y, 0x02].getD i 0) =
      [0x01, 0x00, 0x02] := rfl
  have hz' : (List.range 3).map (fun i => if [false, true, false].getD i false then 0
      else ([0x01, 0x00, 0x02] : List Byte).getD i 0) = [0x01, 0x00, 0x02] := rfl
  simp only [rsDecode, rsCorrect, rsAccept, List.length_cons, List.length_nil, Nat.reduceAdd, hz, hz', he]

/-- The decode at the end of `lastGood` succeeds: the erased last symbol is filled, whatever its value. -/
theorem lastGood_decode (y : Byte) :
    rsDecode lastGood.len lastGood.parity
      (unapplyPerm lastGood.permList (tableTake (lastGood.acc.setIfInBounds lastGood.ses.accCount.toNat y) lastGood.ncw))
      (unapplyPerm lastGood.permList
        (tableTake (lastGood.acce.setIfInBounds lastGood.ses.accCount.toNat true) lastGood.ncw)) =
      .success [0x01] 0 1 := by
  have hl : lastGood.len = 1 ∧ lastGood.parity = 2 ∧ lastGood.permList = [0, 2, 1] ∧
      tableTake lastGood.acc lastGood.ncw = [0x01, 0x02, 0x00] ∧
      tableTake lastGood.acce lastGood.ncw = [false, false, false] ∧ lastGood.ses.accCount.toNat = 2 := by decide +kernel
  rw [tableTake_set, tableTake_set, hl.1, hl.2.1, hl.2.2.1, hl.2.2.2.1, hl.2.2.2.2.1, hl.2.2.2.2.2]
  have hd : rsDecode 1 2 [0x01, 0x00, 0x02] [false, true, false] = .success [0x01] 0 1 := by decide +kernel
  have h1 : unapplyPerm [0, 2, 1] (([0x01, 0x02, 0x00] : List Byte).set 2 y) = [0x01, y, 0x02] := rfl
  have h2 : unapplyPerm [0, 2, 1] ([false, false, false].set 2 true) = [false, true, false] := rfl
  rw [h1, h2, erased_middle, hd]

/-- The window of `lastGood` demodulates to an erasure. -/
theorem lastGood_erasure : (lastGood.detect (lastGood.window lastGood.windowLen)).erasure = true := by
  rw [show lastGood.window lastGood.windowLen = nanWindow by decide +kernel]
  exact detect_nan_last lastGood (List.replicate 7 fZero) (by decide)

/-- The decode at the end of `lastBad` fails. -/
theorem lastBad_decode (y : Byte) (e : Bool) :
    ∃ n, rsDecode lastBad.len lastBad.parity
      (unapplyPerm lastBad.permList (tableTake (lastBad.acc.setIfInBounds lastBad.ses.accCount.toNat y) lastBad.ncw))
      (unapplyPerm lastBad.permList
        (tableTake (lastBad.acce.setIfInBounds lastBad.ses.accCount.toNat e) lastBad.ncw)) = .failure n := by
  have hl : lastBad.len = 2 ∧ lastBad.parity = 2 ∧ lastBad.permList = [0, 2, 3, 1] ∧
      tableTake lastBad.acc lastBad.ncw = [0x00, 0x00, 0x00, 0x00] ∧
      tableTake lastBad.acce lastBad.ncw = [true, true, true, false] ∧ lastBad.ses.accCount.toNat = 3 := by decide +kernel
  rw [tableTake_set, tableTake_set, hl.1, hl.2.1, hl.2.2.1, hl.2.2.2.1, hl.2.2.2.2.1, hl.2.2.2.2.2]
  exact ⟨_, byte_forall (p := fun y => rsDecode 2 2 (unapplyPerm [0, 2, 3, 1] [0x00, 0x00, 0x00, y])
    (unapplyPerm [0, 2, 3, 1] [true, true, true, e]) = .failure (if e then 4 else 3))
    (fun v hv => last_bad_fails v hv e) y⟩

/-- What FEED needs in the body: a symbol in the middle, a last symbol that completes the message, and a last one that
does not, whatever the window demodulates to. -/
theorem witness_FeedAccumulatesAndDecodesTheBody :
    (∀ s ∈ [{ base1 with ses := bodySession 0 }, lastGood, lastBad], s.cfgValid = true ∧
      s.arg.winLen = s.drv.windowLen ∧ (∀ i, i < s.windowLen → (s.sample .win i).isSome = true) ∧
      s.ses.engine = .triggered ∧ s.ses.accCount.toNat < 255) ∧
    ((bodySession 0).accCount + 1 ≠ base1.drv.codewordLen) ∧
    (lastGood.ses.accCount + 1 = lastGood.drv.codewordLen ∧
      ∀ y, y = lastGood.detect (lastGood.window lastGood.windowLen) →
      rsDecode lastGood.len lastGood.parity (unapplyPerm lastGood.permList
        (tableTake (lastGood.acc.setIfInBounds lastGood.ses.accCount.toNat y.value) lastGood.ncw))
        (unapplyPerm lastGood.permList
          (tableTake (lastGood.acce.setIfInBounds lastGood.ses.accCount.toNat y.erasure) lastGood.ncw)) =
        .success [0x01] 0 1) ∧
    (lastBad.ses.accCount + 1 = lastBad.drv.codewordLen ∧ ∀ y e, ∃ n,
      rsDecode lastBad.len lastBad.parity (unapplyPerm lastBad.permList
        (tableTake (lastBad.acc.setIfInBounds lastBad.ses.accCount.toNat y) lastBad.ncw))
        (unapplyPerm lastBad.permList
          (tableTake (lastBad.acce.setIfInBounds lastBad.ses.accCount.toNat e) lastBad.ncw)) = .failure n) := by
  refine ⟨by decide +kernel, by decide +kernel, ⟨by decide +kernel, ?_⟩, by decide +kernel, lastBad_decode⟩
  rintro y rfl
  rw [lastGood_erasure]
  exact lastGood_decode _

/-- The decode at the end of a body, its parts taken from the state before the last symbol. -/
theorem feedDecode_accumulate (y : Symbol) (s : State) :
    feedDecode (feedAccumulate y s) =
      rsDecode s.len s.parity
        (unapplyPerm s.permList (tableTake (s.acc.setIfInBounds s.ses.accCount.toNat y.value) s.ncw))
        (unapplyPerm s.permList (tableTake (s.acce.setIfInBounds s.ses.accCount.toNat y.erasure) s.ncw)) := rfl

/-- A FEED that passes its checks processes the window in WIN. -/
theorem exec_feed_ready (f : Bool) (s : State) (hv : s.cfgValid = true) (hw : s.arg.winLen = s.drv.windowLen)
    (hr : s.winReady s.windowLen) : exec (.feed f) s = .next (feedWindow f (s.window s.windowLen) s) := by
  rcases exec_feed_cases f s with ⟨h, -⟩ | ⟨-, h, -⟩ | ⟨-, -, ⟨-, h⟩ | ⟨j, hj, hn, -⟩⟩
  · exact absurd (hv.symm.trans h) (by decide)
  · exact absurd hw h
  · exact h
  · exact absurd (hr j hj) (by rw [hn]; decide)

/-- A step that runs FEED on the last window of a body: the session ends as the decode says. -/
theorem step_last (s : State) (hv : s.cfgValid = true) (hw : s.arg.winLen = s.drv.windowLen)
    (hr : s.winReady s.windowLen) (he : s.ses.engine = .triggered) (hc : s.ses.accCount + 1 = s.drv.codewordLen) :
    ∃ u t, step (s.withFetchWord 64 0x3) = .next t ∧
      t.ses.engine =
        (feedFinish (feedDecode (feedAccumulate (s.detect (s.window s.windowLen)) s)) u).ses.engine ∧
      t.ses.payloadValid =
        (feedFinish (feedDecode (feedAccumulate (s.detect (s.window s.windowLen)) s)) u).ses.payloadValid := by
  have hd : tableWord 64 0x3 = 0x3#64 := by decide
  have hf : decode 0x3#64 = .ok (.feed false) := by decide
  have h1 : s.ses.consumed = s.ses := by rw [Session.consumed, he]
  have hs : step (s.withFetchWord 64 0x3) =
      exec (.feed false) { s with cmd := 0x3, freeEpoch := s.freeEpoch + 1 } := by
    rw [State.withFetchWord, step, hd]
    show performHost { s with hostQueue := s.hostQueue } (issueAt s.params 0x3#64) = _
    rw [performHost_issueAt, perform_issue, execute, hf]
    rfl
  refine ⟨feedAccumulate (s.detect (s.window s.windowLen)) { s with cmd := 0x3, freeEpoch := s.freeEpoch + 1 },
    feedWindow false (s.window s.windowLen) { s with cmd := 0x3, freeEpoch := s.freeEpoch + 1 }, hs.trans ?_, ?_⟩
  · exact exec_feed_ready false { s with cmd := 0x3, freeEpoch := s.freeEpoch + 1 } hv hw hr
  · have h2 : feedBody (s.detect (s.window s.windowLen)) { s with cmd := 0x3, freeEpoch := s.freeEpoch + 1 } =
        _ := if_pos hc
    have h3 : feedWindow false (s.window s.windowLen) { s with cmd := 0x3, freeEpoch := s.freeEpoch + 1 } =
        State.done { feedBody (s.detect (s.window s.windowLen)) { s with cmd := 0x3, freeEpoch := s.freeEpoch + 1 } with
          ses := { (feedBody (s.detect (s.window s.windowLen))
            { s with cmd := 0x3, freeEpoch := s.freeEpoch + 1 }).ses with
            offset := s.ses.offset + s.drv.windowLen } } := by
      simp only [feedWindow, h1, he, if_true]
      rfl
    have h4 : feedDecode (feedAccumulate (s.detect (s.window s.windowLen))
        { s with cmd := 0x3, freeEpoch := s.freeEpoch + 1 }) =
        feedDecode (feedAccumulate (s.detect (s.window s.windowLen)) s) := rfl
    rw [h3, h2, h4]
    cases feedDecode (feedAccumulate (s.detect (s.window s.windowLen)) s) <;> exact ⟨rfl, rfl⟩

/-- A step that shows a payload, and one that fails a message from a state that meets the invariant. -/
theorem witness_PayloadIsExposedOnlyByASuccessfulDecode :
    (lastGood.ses.payloadValid = false ∧
      ∃ t, step (lastGood.withFetchWord 64 0x3) = .next t ∧ t.ses.payloadValid = true) ∧
    (Inv (lastBad.withFetchWord 64 0x3) ∧
      ∃ t, step (lastBad.withFetchWord 64 0x3) = .next t ∧ t.ses.engine = .failed) := by
  refine ⟨⟨rfl, ?_⟩, inv_withFetchWord lastBad_inv 64 0x3, ?_⟩
  · obtain ⟨u, t, h1, -, h3⟩ := step_last lastGood (by decide +kernel) (by decide +kernel)
      (by unfold State.winReady Ready; decide +kernel) rfl (by decide +kernel)
    rw [feedDecode_accumulate, lastGood_erasure, lastGood_decode] at h3
    exact ⟨t, h1, h3⟩
  · obtain ⟨u, t, h1, h2, -⟩ := step_last lastBad (by decide +kernel) (by decide +kernel)
      (by unfold State.winReady Ready; decide +kernel) rfl (by decide +kernel)
    rw [feedDecode_accumulate] at h2
    obtain ⟨n, h⟩ := lastBad_decode (lastBad.detect (lastBad.window lastBad.windowLen)).value
      (lastBad.detect (lastBad.window lastBad.windowLen)).erasure
    rw [h] at h2
    exact ⟨t, h1, h2⟩

/-! #### The preamble -/

/-- EX0 with the trigger slots of `trig`: slot 18 is the 1000 Hz tone of x8 (file 95 §1.3). -/
def tuned (trig : Word) (win : List F64) (sub : TrigSub) : State :=
  { State.configure { small with cfg := { ex0 1 with trig := trig } } with
    mem := stored win [] []
    arg := { base1.arg with winLen := 8 }
    ses := { Session.initial with trigSub := sub } }

/-- The test of a window against the slot TA. -/
def testA (s : State) : Bool :=
  trigDecide s.active.snr (power (s.window s.windowLen) s.active.fs (tableGet s.freq s.active.ta.toNat 0))
    (meanSq (s.window s.windowLen))

/-- The test of a window against the slot TB. -/
def testB (s : State) : Bool :=
  trigDecide s.active.snr (power (s.window s.windowLen) s.active.fs (tableGet s.freq s.active.tb.toNat 0))
    (meanSq (s.window s.windowLen))

/-- The two tests for the coefficients `a` and `b` of the slots TA and TB. -/
def testsAt (s : State) (a b : F64) : Bool × Bool :=
  (trigDecide s.active.snr (powerOfCoef (fMul fTwo a) (s.window s.windowLen)) (meanSq (s.window s.windowLen)),
    trigDecide s.active.snr (powerOfCoef (fMul fTwo b) (s.window s.windowLen)) (meanSq (s.window s.windowLen)))

/-- What FEED needs in IDLE, and each of its five rows. The tests are those for the values the correctly rounded cosine
takes at the angles of 1000 Hz (slot 18, file 95 §1.1) and of 1650 Hz (slot 31); COS64 itself is free (log entry 4). -/
theorem witness_FeedMakesOneTriggerTransition :
    (∀ s ∈ [tuned 0x1F12 x8 .searching, tuned 0x1F12 (List.replicate 8 fZero) .searching, tuned 0x121F x8 .candidate,
        tuned 0x1F12 x8 .candidate, tuned 0x1F12 (List.replicate 8 fZero) .candidate],
      s.cfgValid = true ∧ s.arg.winLen = s.drv.windowLen ∧
        (∀ i, i < s.windowLen → (s.sample .win i).isSome = true) ∧ s.ses.engine ≠ .triggered) ∧
    (∀ s, Config.cos64 (angStep s.active.fs (tableGet s.freq s.active.ta.toNat 0)) = 0x3C91A62633145C07#64 →
      Config.cos64 (angStep s.active.fs (tableGet s.freq s.active.tb.toNat 0)) = 0xBFEB48D406A50540#64 →
      (testA s, testB s) = testsAt s 0x3C91A62633145C07#64 0xBFEB48D406A50540#64) ∧
    (∀ s, Config.cos64 (angStep s.active.fs (tableGet s.freq s.active.ta.toNat 0)) = 0xBFEB48D406A50540#64 →
      Config.cos64 (angStep s.active.fs (tableGet s.freq s.active.tb.toNat 0)) = 0x3C91A62633145C07#64 →
      (testA s, testB s) = testsAt s 0xBFEB48D406A50540#64 0x3C91A62633145C07#64) ∧
    (testsAt (tuned 0x1F12 x8 .searching) 0x3C91A62633145C07#64 0xBFEB48D406A50540#64).1 = true ∧
    (testsAt (tuned 0x1F12 (List.replicate 8 fZero) .searching) 0x3C91A62633145C07#64 0xBFEB48D406A50540#64).1 = false ∧
    (testsAt (tuned 0x121F x8 .candidate) 0xBFEB48D406A50540#64 0x3C91A62633145C07#64).2 = true ∧
    testsAt (tuned 0x1F12 x8 .candidate) 0x3C91A62633145C07#64 0xBFEB48D406A50540#64 = (true, false) ∧
    testsAt (tuned 0x1F12 (List.replicate 8 fZero) .candidate) 0x3C91A62633145C07#64 0xBFEB48D406A50540#64 =
      (false, false) := by
  refine ⟨by decide +kernel, fun s h1 h2 => ?_, fun s h1 h2 => ?_, by decide +kernel, by decide +kernel,
    by decide +kernel, by decide +kernel, by decide +kernel⟩
  · simp only [testA, testB, testsAt, power, h1, h2]
  · simp only [testA, testB, testsAt, power, h1, h2]

end Sys2Proof.Tests
end

section
/-! PROOFS. What a validated configuration derives (rules R7, R143, R146, R210). -/

namespace Sys2Proof.Machine

/-! ### Validation -/

/-- The checks of rule R146 that bound what CONFIG derives. -/
structure LengthsValid (p : Params) (c : CfgRegs) : Prop where
  windowPos : 1 ≤ windowLenOf c
  windowFits : windowLenOf c ≤ p.winMax
  payloadPos : 1 ≤ c.payloadLen.toNat
  payloadFits : c.payloadLen.toNat ≤ 223

/-- A check whose failure has a nonzero code has not failed when the code is 0. -/
theorem check_passed {fails : Prop} [Decidable fails] {code rest : Byte} (hc : code ≠ 0)
    (h : (if fails then code else rest) = 0) : ¬ fails ∧ rest = 0 := by
  split at h
  · exact absurd h hc
  · exact ⟨‹_›, h⟩

/-- A code of 0 says that the window length and the payload length passed their checks (codes 3 and 7). -/
theorem lengthsValid_of_validateCode {p : Params} {c : CfgRegs} (h : validateCode p c = 0) : LengthsValid p c := by
  unfold validateCode at h
  obtain ⟨-, h⟩ := check_passed (by decide) h
  obtain ⟨-, h⟩ := check_passed (by decide) h
  obtain ⟨hwindow, h⟩ := check_passed (by decide) h
  obtain ⟨-, h⟩ := check_passed (by decide) h
  obtain ⟨-, h⟩ := check_passed (by decide) h
  obtain ⟨-, h⟩ := check_passed (by decide) h
  obtain ⟨hpayload, -⟩ := check_passed (by decide) h
  simp only [not_or, Nat.not_lt] at hwindow hpayload
  obtain ⟨-, hw, hw'⟩ := hwindow
  obtain ⟨hl, hl'⟩ := hpayload
  exact ⟨hw, hw', hl, hl'⟩

/-- The parity length is 2 to 32 whatever the payload length (rule R210). -/
theorem parityLen_range (l : Nat) : 2 ≤ parityLen l ∧ parityLen l ≤ 32 := by
  unfold parityLen
  omega

/-- A codeword has at most 255 symbols (rule R210). -/
theorem add_parityLen_le {l : Nat} (h : l ≤ 223) : l + parityLen l ≤ 255 := by
  unfold parityLen
  omega

/-! ### The derived registers hold the numbers they are computed from -/

theorem derivedRegs_windowLen {p : Params} {c : CfgRegs} (hp : p.inRange) (h : LengthsValid p c) :
    (derivedRegs c).windowLen.toNat = windowLenOf c := by
  have hmax : windowLenOf c ≤ 131072 := h.windowFits.trans hp.2
  rw [derivedRegs, BitVec.toNat_ofNat]
  omega

theorem derivedRegs_parityLen (c : CfgRegs) : (derivedRegs c).parityLen.toNat = parityLen c.payloadLen.toNat := by
  have := parityLen_range c.payloadLen.toNat
  rw [derivedRegs, BitVec.toNat_ofNat]
  omega

theorem derivedRegs_codewordLen {p : Params} {c : CfgRegs} (h : LengthsValid p c) :
    (derivedRegs c).codewordLen.toNat = c.payloadLen.toNat + parityLen c.payloadLen.toNat := by
  have := add_parityLen_le h.payloadFits
  rw [derivedRegs, BitVec.toNat_ofNat]
  omega

theorem derivedRegs_frameWindows {p : Params} {c : CfgRegs} (h : LengthsValid p c) :
    (derivedRegs c).frameWindows.toNat = c.payloadLen.toNat + parityLen c.payloadLen.toNat + 2 := by
  have := add_parityLen_le h.payloadFits
  rw [derivedRegs, BitVec.toNat_ofNat]
  omega

/-- Settles O24: the derived registers hold their numbers without wrapping, and validation bounds those. -/
theorem validConfigurationsDeriveLengthsInRange : Obligations.ValidConfigurationsDeriveLengthsInRange := by
  intro p c hp hc
  have h := lengthsValid_of_validateCode hc
  have hpar := parityLen_range c.payloadLen.toNat
  rw [derivedRegs_windowLen hp h, derivedRegs_parityLen, derivedRegs_codewordLen h, derivedRegs_frameWindows h]
  exact ⟨rfl, h.windowPos, h.windowFits, h.payloadPos, h.payloadFits, rfl, hpar.1, hpar.2, rfl,
    add_parityLen_le h.payloadFits, rfl⟩

end Sys2Proof.Machine
end

section
/-! PROOFS. Stores keep the storage invariant (rules R43, R86, R364). -/

namespace Sys2Proof.Machine

/-! ### Where elements lie -/

/-- Elements lie on word boundaries, so a word write meets another element's word in all of its bytes or in none. -/
theorem elemAddr_mod (b : Buf) (i : Nat) : b.elemAddr i % 8 = 0 := by
  have hb : b.base % 8 = 0 := by cases b <;> rfl
  unfold Buf.elemAddr
  omega

/-- The byte elements a host or a command can write: PAY, CW and ERAS (rule R43). -/
def Buf.isBytes (b : Buf) : Prop := b = .pay ∨ b = .cw ∨ b = .eras

/-- The word buffers: WIN and OBUF (rule R43). -/
def Buf.isWords (b : Buf) : Prop := b = .win ∨ b = .obuf

/-- A byte element lies below both word buffers. -/
theorem elemAddr_lt_words {b w : Buf} {i : Nat} (hb : b.isBytes) (hw : w.isWords) (hi : i < Config.bufBytes) :
    b.elemAddr i < w.base := by
  have hi' : i < 255 := hi
  rcases hb with rfl | rfl | rfl <;> rcases hw with rfl | rfl <;> simp only [Buf.elemAddr, Buf.base] <;> omega

/-- Elements of different byte buffers have different addresses, and so have different elements of one. -/
theorem elemAddr_injective {b b' : Buf} {i j : Nat} (hb : b.isBytes) (hb' : b'.isBytes) (hi : i < Config.bufBytes)
    (hj : j < Config.bufBytes) (h : b.elemAddr i = b'.elemAddr j) : b = b' ∧ i = j := by
  have hi' : i < 255 := hi
  have hj' : j < 255 := hj
  have hu : b = b' := by
    refine Buf.holds_unique (n := b.elemAddr i) ?_ ?_
    · rw [Buf.holds_iff, Buf.elemAddr]
      rcases hb with rfl | rfl | rfl <;> simp only [Buf.base, Buf.windowBytes] <;> omega
    · rw [h, Buf.holds_iff, Buf.elemAddr]
      rcases hb' with rfl | rfl | rfl <;> simp only [Buf.base, Buf.windowBytes] <;> omega
  subst hu
  unfold Buf.elemAddr at h
  exact ⟨rfl, by omega⟩

/-! ### Cells a store lists -/

theorem cellPlaced_byte {p : Params} {b : Buf} {i : Nat} (hb : b.isBytes) (hi : i < Config.bufBytes) :
    cellPlaced p (b.elemAddr i) := by
  rcases hb with rfl | rfl | rfl
  · exact .inl ⟨i, hi, rfl⟩
  · exact .inr (.inl ⟨i, hi, rfl⟩)
  · exact .inr (.inr (.inl ⟨i, hi, rfl⟩))

theorem cellPlaced_word {p : Params} {b : Buf} {i k : Nat} (hb : b.isWords) (hi : i < p.winMax) (hk : k < 8) :
    cellPlaced p (b.elemAddr i + k) := by
  have hin : inWords b p.winMax (b.elemAddr i + k) := by
    unfold inWords Buf.elemAddr
    omega
  rcases hb with rfl | rfl
  · exact .inr (.inr (.inr (.inl hin)))
  · exact .inr (.inr (.inr (.inr hin)))

/-- The listed addresses after some lanes of a word have been written. -/
theorem Memory.mem_writeLanes {c : Host.Cell} (a : Nat) (v : Word) :
    ∀ (lanes : List Nat) {m : Memory}, c ∈ m.writeLanes a v lanes → c ∈ m ∨ ∃ k ∈ lanes, c.1 = a + k
  | [], _, h => .inl h
  | k :: ks, m, h => by
    rcases Memory.mem_writeLanes a v ks (m := m.write (a + k) (v.lane k)) h with h | ⟨j, hj, he⟩
    · rcases Memory.mem_write h with rfl | h
      · exact .inr ⟨k, List.mem_cons_self, rfl⟩
      · exact .inl h
    · exact .inr ⟨j, List.mem_cons_of_mem _ hj, he⟩

/-- The listed addresses after a word write. -/
theorem Memory.mem_writeWord {c : Host.Cell} {m : Memory} {a : Nat} {v : Word} (h : c ∈ m.writeWord a v) :
    c ∈ m ∨ ∃ k, k < 8 ∧ c.1 = a + k := by
  refine (Memory.mem_writeLanes a v _ h).imp_right ?_
  rintro ⟨k, hk, he⟩
  exact ⟨k, List.mem_range.1 hk, he⟩

/-! ### Whole words -/

/-- A byte written below a buffer leaves its words whole. -/
theorem wholeWords_write {m : Memory} {b : Buf} {n a : Nat} (v : Byte) (h : wholeWords m b n) (ha : a < b.base) :
    wholeWords (m.write a v) b n := by
  intro i hi k hk
  have hk0 : b.elemAddr i + k ≠ a := by unfold Buf.elemAddr; omega
  have h0 : b.elemAddr i ≠ a := by unfold Buf.elemAddr; omega
  rw [Memory.read_write_ne _ _ _ _ hk0, Memory.read_write_ne _ _ _ _ h0]
  exact h i hi k hk

/-- A word written to an element of any buffer leaves the words of every buffer whole. -/
theorem wholeWords_writeWord {m : Memory} {b : Buf} {n : Nat} (w : Buf) (j : Nat) (v : Word) (h : wholeWords m b n) :
    wholeWords (m.writeWord (w.elemAddr j) v) b n := by
  intro i hi k hk
  have hb := elemAddr_mod b i
  have hw := elemAddr_mod w j
  rw [Memory.read_writeWord, Memory.read_writeWord]
  by_cases he : b.elemAddr i = w.elemAddr j
  · rw [if_pos (by omega), if_pos (by omega)]
    rfl
  · rw [if_neg (by omega), if_neg (by omega)]
    exact h i hi k hk

/-! ### The storage invariant -/

/-- The storage invariant speaks of the parameters and the memory only. -/
theorem StorageOk.congr {s t : State} (h : StorageOk s) (hp : t.params = s.params) (hm : t.mem = s.mem) :
    StorageOk t := by
  obtain ⟨hc, hpl, hw, ho, he⟩ := h
  refine ⟨hm ▸ hc, ?_, ?_, ?_, ?_⟩
  · rw [hm, hp]; exact hpl
  · rw [hm, hp]; exact hw
  · rw [hm, hp]; exact ho
  · intro i hi b hb
    exact he i hi b (by rw [State.byteElem, ← hm]; exact hb)

/-- Storing a byte element keeps the storage invariant; an ERAS element has to be a single bit. -/
theorem StorageOk.writeByte {s : State} (h : StorageOk s) {b : Buf} {i : Nat} {v : Byte} (hb : b.isBytes)
    (hi : i < Config.bufBytes) (hv : b = .eras → v = 0 ∨ v = 1) :
    StorageOk { s with mem := s.mem.write (b.elemAddr i) v } where
  canonical := Memory.wf_write _ _ h.canonical
  placed := by
    intro c hc
    rcases Memory.mem_write hc with rfl | hc
    · exact cellPlaced_byte hb hi
    · exact h.placed c hc
  winWhole := wholeWords_write v h.winWhole (elemAddr_lt_words hb (.inl rfl) hi)
  obufWhole := wholeWords_write v h.obufWhole (elemAddr_lt_words hb (.inr rfl) hi)
  erasBit := by
    intro j hj x hx
    rw [State.byteElem, Memory.read_write] at hx
    split at hx
    · rename_i he
      obtain ⟨hbe, -⟩ := elemAddr_injective (.inr (.inr rfl)) hb hj hi he
      obtain rfl := Option.some.inj hx
      exact hv hbe.symm
    · exact h.erasBit j hj x hx

/-- Storing a WIN or OBUF element keeps the storage invariant. -/
theorem StorageOk.writeWord {s : State} (h : StorageOk s) {b : Buf} {i : Nat} (v : Word) (hb : b.isWords)
    (hi : i < s.params.winMax) : StorageOk { s with mem := s.mem.writeWord (b.elemAddr i) v } where
  canonical := Memory.wf_writeWord _ _ h.canonical
  placed := by
    intro c hc
    rcases Memory.mem_writeWord hc with hc | ⟨k, hk, he⟩
    · exact h.placed c hc
    · rw [he]; exact cellPlaced_word hb hi hk
  winWhole := wholeWords_writeWord b i v h.winWhole
  obufWhole := wholeWords_writeWord b i v h.obufWhole
  erasBit := by
    intro j hj x hx
    have hlt := elemAddr_lt_words (.inr (.inr rfl)) hb hj
    have hle : b.base ≤ b.elemAddr i := Nat.le_add_right _ _
    rw [State.byteElem, Memory.read_writeWord, if_neg (by omega)] at hx
    exact h.erasBit j hj x hx

/-- Storing consecutive byte elements from element `i` on keeps the storage invariant. -/
theorem StorageOk.writeBytes {b : Buf} (hb : b.isBytes) :
    ∀ (bs : List Byte) {s : State} (i : Nat), StorageOk s → i + bs.length ≤ Config.bufBytes →
      (b = .eras → ∀ v ∈ bs, v = 0 ∨ v = 1) → StorageOk { s with mem := s.mem.writeBytes (b.elemAddr i) bs }
  | [], _, _, h, _, _ => h
  | v :: bs, s, i, h, hi, hv => by
    rw [List.length_cons] at hi
    have h1 := h.writeByte (v := v) hb (by omega : i < Config.bufBytes) fun he => hv he v List.mem_cons_self
    exact StorageOk.writeBytes hb bs (i + 1) h1 (by omega) fun he w hw => hv he w (List.mem_cons_of_mem _ hw)

/-- Storing consecutive words from element `i` on keeps the storage invariant. -/
theorem StorageOk.writeWords {b : Buf} (hb : b.isWords) :
    ∀ (vs : List Word) {s : State} (i : Nat), StorageOk s → i + vs.length ≤ s.params.winMax →
      StorageOk { s with mem := s.mem.writeWords (b.elemAddr i) vs }
  | [], _, _, h, _ => h
  | v :: vs, s, i, h, hi => by
    rw [List.length_cons] at hi
    exact StorageOk.writeWords hb vs (i + 1) (h.writeWord v hb (by omega)) (by simp only; omega)

/-! ### The named stores -/

theorem StorageOk.storeBytes {s : State} (h : StorageOk s) {b : Buf} {bs : List Byte} (hb : b = .pay ∨ b = .cw)
    (hn : bs.length ≤ 255) : StorageOk (s.storeBytes b bs) := by
  refine StorageOk.writeBytes (b := b) ?_ bs 0 h (by rwa [Nat.zero_add]) ?_
  · exact hb.imp_right .inl
  · rintro rfl
    exact absurd hb (by decide)

/-- A stored erasure flag is a single bit. -/
theorem erasByte_eq (e : Bool) : erasByte e = 0 ∨ erasByte e = 1 := by cases e <;> decide

theorem StorageOk.storeEras {s : State} (h : StorageOk s) {es : List Bool} (hn : es.length ≤ 255) :
    StorageOk (s.storeEras es) := by
  have hn' : 0 + (es.map erasByte).length ≤ Config.bufBytes := by rwa [Nat.zero_add, List.length_map]
  refine StorageOk.writeBytes (b := .eras) (.inr (.inr rfl)) (es.map erasByte) 0 h hn' fun _ v hv => ?_
  obtain ⟨e, -, rfl⟩ := List.mem_map.1 hv
  exact erasByte_eq e

theorem StorageOk.storeObuf {s : State} (h : StorageOk s) {xs : List F64} (hn : xs.length ≤ s.params.winMax) :
    StorageOk (s.storeObuf xs) :=
  StorageOk.writeWords (b := .obuf) (.inr rfl) xs 0 h (by omega)

/-- A host write to a buffer element keeps the storage invariant (rules R43, R85). -/
theorem StorageOk.writeElem {s : State} (h : StorageOk s) (b : Buf) (i : Nat) (v : Word) :
    StorageOk (s.writeElem b i v) := by
  unfold State.writeElem
  split
  · exact h
  · rename_i hi
    have hi' := Nat.lt_of_not_le hi
    cases b with
    | freq | perm | rxpay | obuf => exact h
    | pay => exact h.writeByte (.inl rfl) hi' (by simp)
    | cw => exact h.writeByte (.inr (.inl rfl)) hi' (by simp)
    | eras => exact h.writeByte (.inr (.inr rfl)) hi' fun _ => erasByte_eq _
    | win => exact h.writeWord v (.inl rfl) hi'

end Sys2Proof.Machine
end

section
/-! PROOFS. Every step keeps the invariant: the lengths of what the commands store, the session's transitions, and then
each command, each access and the step. -/

namespace Sys2Proof.Machine

/-! ### Lengths of computed tables and messages -/

theorem swapEntries_length (p : List Nat) (i j : Nat) : (swapEntries p i j).length = p.length := by simp [swapEntries]

theorem shuffleFrom_length : ∀ (i s : Nat) (p : List Nat), (shuffleFrom i s p).length = p.length
  | 0, _, _ => rfl
  | i + 1, s, p => by rw [shuffleFrom, shuffleFrom_length i, swapEntries_length]

@[simp] theorem permBytes_length (n : Nat) : (permBytes n).length = n := by
  rw [permBytes, List.length_map, buildShuffle, shuffleFrom_length, List.length_range]

theorem geometricFrom_length (ratio : F64) : ∀ (n : Nat) (f : F64), (geometricFrom ratio n f).length = n
  | 0, _ => rfl
  | n + 1, f => by rw [geometricFrom, List.length_cons, geometricFrom_length ratio n]

/-- The Frequency Table has an entry for each slot (rules R145, R147). -/
@[simp] theorem freqTable_length (c : CfgRegs) : (freqTable c).length = 32 := by
  unfold freqTable
  split
  · rw [List.length_map, List.length_range]; rfl
  · exact geometricFrom_length _ _ _

theorem xorFront_length : ∀ (g r : List Byte), (xorFront g r).length = r.length
  | [], _ => rfl
  | _ :: _, [] => rfl
  | a :: g, b :: r => by rw [xorFront, List.length_cons, List.length_cons, xorFront_length g r]

theorem rsRemainder_length (g : List Byte) : ∀ (n : Nat) (r : List Byte), (rsRemainder g n r).length = r.length - n
  | 0, _ => rfl
  | _ + 1, [] => by simp [rsRemainder]
  | n + 1, c :: r => by
    rw [rsRemainder, rsRemainder_length g n, xorFront_length, List.length_cons, Nat.add_sub_add_right]

/-- A codeword is the payload and `p` symbols more (rule R214). -/
@[simp] theorem rsEncode_length (p : Nat) (m : List Byte) : (rsEncode p m).length = m.length + p := by
  rw [rsEncode, List.length_append, rsRemainder_length, List.length_append, List.length_replicate,
    Nat.add_sub_cancel_left]

@[simp] theorem applyPerm_length {α : Type} (d : α) (perm : List Nat) (c : List α) :
    (applyPerm d perm c).length = perm.length := List.length_map _

@[simp] theorem unapplyPerm_length {α : Type} (perm : List Nat) (y : List α) :
    (unapplyPerm perm y).length = y.length := by
  have h : ∀ (ps : List (Nat × α)) (c : List α), (ps.foldl (fun c jv => c.set jv.1 jv.2) c).length = c.length := by
    intro ps
    induction ps with
    | nil => exact fun _ => rfl
    | cons p ps ih => exact fun c => by rw [List.foldl_cons, ih, List.length_set]
  exact h _ y

theorem permList_length_le (s : State) : s.permList.length ≤ 255 := by
  rw [State.permList, List.length_map, tableTake_length]
  exact Nat.min_le_right _ _

theorem rsAccept_message_length {len p s : Nat} {r : List Byte} {era : List Bool} {c m : List Byte} {e n : Nat}
    (h : rsAccept len p s r era c = .success m e n) : m.length ≤ len := by
  unfold rsAccept at h
  split_ifs at h
  cases h
  exact List.length_take_le _ _

theorem rsCorrect_message_length {len p s : Nat} {r : List Byte} {era : List Bool} {rz synd psi m : List Byte}
    {e n : Nat} (h : rsCorrect len p s r era rz synd psi = .success m e n) : m.length ≤ len := by
  unfold rsCorrect at h
  simp only at h
  split_ifs at h
  exact rsAccept_message_length h

/-- A decoded message is at most the payload length long (rule R215). -/
theorem rsDecode_message_length {len p : Nat} {r : List Byte} {era : List Bool} {m : List Byte} {e n : Nat}
    (h : rsDecode len p r era = .success m e n) : m.length ≤ len := by
  unfold rsDecode at h
  simp only at h
  split_ifs at h
  exact rsCorrect_message_length h

@[simp] theorem preambleWindow_length (s : State) (slot : Byte) : (s.preambleWindow slot).length = s.windowLen := by
  simp [State.preambleWindow, tone1]

@[simp] theorem symbolWindow_length (s : State) (y : Byte) : (s.symbolWindow y).length = s.windowLen := by
  simp [State.symbolWindow, tone2]

/-! ### Numbers of a configured state -/

/-- The numbers the commands of a configured state use, in range (rule R7). -/
structure LengthsOk (s : State) : Prop where
  window : s.windowLen ≤ s.params.winMax
  payload : s.len ≤ 223
  codeword : s.ncw = s.len + s.parity
  codewordPos : 1 ≤ s.ncw
  codewordFits : s.ncw ≤ 255

theorem ConfigOk.lengths {s : State} (h : ConfigOk s) (hv : s.cfgValid = true) : LengthsOk s := by
  obtain ⟨c, hc⟩ := h.built hv
  have hl := lengthsValid_of_validateCode hc.valid
  have hpar := parityLen_range c.payloadLen.toNat
  have hsum := add_parityLen_le hl.payloadFits
  have hlen : s.len = c.payloadLen.toNat := by rw [State.len, hc.active, captureConfig]
  have hp : s.parity = parityLen c.payloadLen.toNat := by rw [State.parity, hc.derived, derivedRegs_parityLen]
  have hn : s.ncw = c.payloadLen.toNat + parityLen c.payloadLen.toNat := by
    rw [State.ncw, hc.derived, derivedRegs_codewordLen hl]
  have hw : s.windowLen = windowLenOf c := by rw [State.windowLen, hc.derived, derivedRegs_windowLen h.winMax hl]
  exact ⟨hw ▸ hl.windowFits, hlen ▸ hl.payloadFits, by rw [hn, hlen, hp], by omega, by omega⟩

/-! ### States that agree on what the invariant speaks of -/

/-- `t` has the parameters and the configuration state of `s`; `{}` proves it of a `t` that is an update of other
fields. -/
structure SameConfig (s t : State) : Prop where
  params : t.params = s.params := by rfl
  cfgValid : t.cfgValid = s.cfgValid := by rfl
  active : t.active = s.active := by rfl
  drv : t.drv = s.drv := by rfl
  freq : t.freq = s.freq := by rfl
  perm : t.perm = s.perm := by rfl

theorem ConfiguredBy.congr {s t : State} {c : CfgRegs} (h : ConfiguredBy s c) (k : SameConfig s t) :
    ConfiguredBy t c := by
  have hn : t.ncw = s.ncw := by rw [State.ncw, k.drv, State.ncw]
  refine ⟨?_, ?_, ?_, ?_, ?_⟩
  · rw [k.params]; exact h.valid
  · rw [k.active]; exact h.active
  · rw [k.drv]; exact h.derived
  · rw [k.freq]; exact h.freq
  · rw [hn, k.perm]; exact h.perm

/-- The configuration invariant holds on with the configuration state; the session may change while CFG_VALID is 1. -/
theorem ConfigOk.congr {s t : State} (h : ConfigOk s) (k : SameConfig s t)
    (hs : s.cfgValid = false → t.ses = s.ses) : ConfigOk t where
  winMax := by rw [k.params]; exact h.winMax
  built hv := by
    obtain ⟨c, hc⟩ := h.built (k.cfgValid ▸ hv)
    exact ⟨c, hc.congr k⟩
  cleared hv := by
    rw [k.cfgValid] at hv
    rw [k.drv, hs hv]
    exact h.cleared hv

/-- The session invariant speaks of the session and the codeword length only. -/
theorem SessionOk.congr {s t : State} (h : SessionOk s) (hs : t.ses = s.ses) (hd : t.drv = s.drv) : SessionOk t := by
  obtain ⟨h1, h2, h3, h4, h5, h6, h7, h8, h9, h10⟩ := h
  simp only [State.ncw, ← hs, ← hd] at *
  exact ⟨h1, h2, h3, h4, h5, h6, h7, h8, h9, h10⟩

/-- The invariant holds on when only the stored buffers change, and change well. -/
theorem Inv.of_storage {s t : State} (h : Inv s) (k : SameConfig s t) (hs : t.ses = s.ses) (hm : StorageOk t) : Inv t :=
  ⟨hm, h.config.congr k fun _ => hs, h.session.congr hs k.drv⟩

/-- The invariant holds on when nothing it speaks of changes. -/
theorem Inv.of_same {s t : State} (h : Inv s) (k : SameConfig s t) (hs : t.ses = s.ses) (hm : t.mem = s.mem) : Inv t :=
  h.of_storage k hs (h.storage.congr k.params hm)

/-! ### What an answer keeps -/

/-- If the answer is a next state, that state meets the invariant and has the parameters of `s`. -/
def KeepsInv (s : State) (a : Answer) : Prop := ∀ t, a = .next t → Inv t ∧ t.params = s.params

theorem KeepsInv.next {s t : State} (h : Inv t) (hp : t.params = s.params) : KeepsInv s (.next t) := by
  rintro _ ⟨⟩
  exact ⟨h, hp⟩

theorem KeepsInv.fault (s : State) (r : Fault) : KeepsInv s (.fault r) := by
  rintro _ ⟨⟩

/-- An answer that leaves alone what the invariant speaks of. -/
theorem KeepsInv.same {s t : State} (h : Inv s) (k : SameConfig s t) (hs : t.ses = s.ses) (hm : t.mem = s.mem) :
    KeepsInv s (.next t) := .next (h.of_same k hs hm) k.params

/-- An answer that stores elements and leaves the rest alone. -/
theorem KeepsInv.stores {s t : State} (h : Inv s) (k : SameConfig s t) (hs : t.ses = s.ses) (hm : StorageOk t) :
    KeepsInv s (.next t) := .next (h.of_storage k hs hm) k.params

theorem KeepsInv.raise {s : State} (h : Inv s) (c : ErrCode) : KeepsInv s (.next (s.raise c)) :=
  .same h {} rfl rfl

/-! ### The commands that leave the session and the configuration alone -/

theorem keepsInv_nop {s : State} (h : Inv s) : KeepsInv s (exec .nop s) :=
  .same h {} rfl rfl

theorem keepsInv_map {s : State} (h : Inv s) (v : Nat) : KeepsInv s (exec (.map v) s) := by
  rcases exec_map_cases s v with ⟨-, e⟩ | ⟨-, e⟩ <;> rw [e]
  · exact .raise h _
  · exact .same h {} rfl rfl

theorem keepsInv_rms {s : State} (h : Inv s) : KeepsInv s (exec .rms s) := by
  rcases exec_rms_cases s with ⟨-, e⟩ | ⟨-, ⟨-, e⟩ | ⟨j, -, -, e⟩⟩ <;> rw [e]
  · exact .raise h _
  · exact .same h {} rfl rfl
  · exact .fault s _

theorem keepsInv_detect {s : State} (h : Inv s) : KeepsInv s (exec .detect s) := by
  rcases exec_detect_cases s with ⟨-, e⟩ | ⟨-, -, e⟩ | ⟨-, -, ⟨-, e⟩ | ⟨j, -, -, e⟩⟩ <;> rw [e]
  · exact .raise h _
  · exact .raise h _
  · exact .same h {} rfl rfl
  · exact .fault s _

theorem keepsInv_gpwr {s : State} (h : Inv s) : KeepsInv s (exec .gpwr s) := by
  rcases exec_gpwr_cases s with ⟨-, e⟩ | ⟨-, -, e⟩ | ⟨-, -, -, e⟩ | ⟨-, -, -, ⟨-, e⟩ | ⟨j, -, -, e⟩⟩ <;> rw [e]
  · exact .raise h _
  · exact .raise h _
  · exact .raise h _
  · exact .same h {} rfl rfl
  · exact .fault s _

theorem keepsInv_gpwrs {s : State} (h : Inv s) (slot : Nat) : KeepsInv s (exec (.gpwrs slot) s) := by
  rcases exec_gpwrs_cases slot s with ⟨-, e⟩ | ⟨-, -, e⟩ | ⟨-, -, -, e⟩ | ⟨-, -, -, ⟨-, e⟩ | ⟨j, -, -, e⟩⟩ <;> rw [e]
  · exact .raise h _
  · exact .raise h _
  · exact .raise h _
  · exact .same h {} rfl rfl
  · exact .fault s _

/-! ### The commands that store elements -/

/-- A window of the configured length stored to OBUF (rule R284). -/
theorem keepsInv_storeObuf {s : State} (h : Inv s) (hv : s.cfgValid = true) {xs : List F64}
    (hn : xs.length = s.windowLen) : KeepsInv s (.next (s.storeObuf xs).done) := by
  have hm : StorageOk (s.storeObuf xs) := h.storage.storeObuf (hn ▸ (h.config.lengths hv).window)
  exact .stores h {} rfl (hm.congr rfl rfl)

/-- CW and ERAS stored together (rules R243, R244). -/
theorem keepsInv_storeCodeword {s : State} (h : Inv s) {c : List Byte} {e : List Bool} (hc : c.length ≤ 255)
    (he : e.length ≤ 255) : KeepsInv s (.next ((s.storeBytes .cw c).storeEras e).done) := by
  have hm : StorageOk ((s.storeBytes .cw c).storeEras e) := (h.storage.storeBytes (.inr rfl) hc).storeEras he
  exact .stores h {} rfl (hm.congr rfl rfl)

theorem keepsInv_synth {s : State} (h : Inv s) (k : Nat) : KeepsInv s (exec (.synth k) s) := by
  rcases exec_synth_cases k s with
    ⟨-, e⟩ | ⟨-, -, e⟩ | ⟨-, -, -, e⟩ | ⟨hv, -, -, -, ⟨-, e⟩ | ⟨-, e⟩ | ⟨-, -, e⟩ | ⟨-, j, -, -, e⟩⟩ <;> rw [e]
  · exact .raise h _
  · exact .raise h _
  · exact .raise h _
  · exact keepsInv_storeObuf h hv (preambleWindow_length s _)
  · exact keepsInv_storeObuf h hv (preambleWindow_length s _)
  · exact keepsInv_storeObuf h hv (symbolWindow_length s _)
  · exact .fault s _

theorem keepsInv_rsenc {s : State} (h : Inv s) : KeepsInv s (exec .rsenc s) := by
  rcases exec_rsenc_cases s with ⟨-, e⟩ | ⟨-, -, e⟩ | ⟨hv, -, ⟨-, e⟩ | ⟨j, -, -, e⟩⟩ <;> rw [e]
  · exact .raise h _
  · exact .raise h _
  · have hl := h.config.lengths hv
    have hn : (rsEncode s.parity (s.payload s.len)).length ≤ 255 := by
      rw [rsEncode_length, values_length, ← hl.codeword]
      exact hl.codewordFits
    exact .stores h {} rfl ((h.storage.storeBytes (.inr rfl) hn).congr rfl rfl)
  · exact .fault s _

theorem keepsInv_rsdec {s : State} (h : Inv s) : KeepsInv s (exec .rsdec s) := by
  rcases exec_rsdec_cases s with ⟨-, e⟩ | ⟨hv, ⟨-, e⟩ | ⟨b, j, -, -, -, e⟩⟩ <;> rw [e]
  · exact .raise h _
  · cases hres : rsDecode s.len s.parity (s.cwBytes s.ncw) (s.erasBits s.ncw) with
    | success m errs n =>
      have hn : m.length ≤ 255 := by
        have hm := rsDecode_message_length hres
        have hl := (h.config.lengths hv).payload
        omega
      exact .stores h {} rfl ((h.storage.storeBytes (.inl rfl) hn).congr rfl rfl)
    | failure n => exact .same h {} rfl rfl
  · exact .fault s _

theorem keepsInv_ilv {s : State} (h : Inv s) : KeepsInv s (exec .ilv s) := by
  rcases exec_ilv_cases s with ⟨-, e⟩ | ⟨-, ⟨-, e⟩ | ⟨b, j, -, -, -, e⟩⟩ <;> rw [e]
  · exact .raise h _
  · refine keepsInv_storeCodeword h ?_ ?_ <;> rw [applyPerm_length] <;> exact permList_length_le s
  · exact .fault s _

theorem keepsInv_dilv {s : State} (h : Inv s) : KeepsInv s (exec .dilv s) := by
  rcases exec_dilv_cases s with ⟨-, e⟩ | ⟨hv, ⟨-, e⟩ | ⟨b, j, -, -, -, e⟩⟩ <;> rw [e]
  · exact .raise h _
  · have hn := (h.config.lengths hv).codewordFits
    refine keepsInv_storeCodeword h ?_ ?_ <;> rw [unapplyPerm_length, values_length] <;> exact hn
  · exact .fault s _

/-! ### The session -/

/-- An answer under a valid configuration that changes the session, and nothing else the invariant speaks of. -/
theorem KeepsInv.session {s t : State} (h : Inv s) (k : SameConfig s t) (hv : s.cfgValid = true)
    (hm : t.mem = s.mem) (hs : SessionOk t) : KeepsInv s (.next t) :=
  .next ⟨h.storage.congr k.params hm, h.config.congr k fun hf => absurd (hv.symm.trans hf) (by decide), hs⟩ k.params

section Sessions

variable {s : State}

/-! What the session invariant asks in each state of the engine. -/

theorem SessionOk.of_idle (he : s.ses.engine = .idle) (hf : s.ses.feedStatus = .processing)
    (hc : s.ses.accCount.toNat ≤ s.ncw) (hp : s.ses.payloadValid = true → s.ses.trigValid = true) : SessionOk s := by
  constructor <;> simp_all

theorem SessionOk.of_triggered (he : s.ses.engine = .triggered) (hsub : s.ses.trigSub = .searching)
    (hf : s.ses.feedStatus = .processing) (hc : s.ses.accCount.toNat < s.ncw) (hp : s.ses.payloadValid = false)
    (ht : s.ses.trigValid = true) : SessionOk s := by
  constructor <;> simp_all

theorem SessionOk.of_complete (he : s.ses.engine = .complete) (hsub : s.ses.trigSub = .searching)
    (hf : s.ses.feedStatus = .messageComplete) (hc : s.ses.accCount = s.drv.codewordLen)
    (hp : s.ses.payloadValid = true) (ht : s.ses.trigValid = true) : SessionOk s := by
  constructor <;> simp_all

theorem SessionOk.of_failed (he : s.ses.engine = .failed) (hsub : s.ses.trigSub = .searching)
    (hf : s.ses.feedStatus = .messageFailed) (hc : s.ses.accCount = s.drv.codewordLen)
    (hp : s.ses.payloadValid = false) (ht : s.ses.trigValid = true) : SessionOk s := by
  constructor <;> simp_all

/-- A session that has just been reset meets the session invariant (rule R300). -/
theorem SessionOk.of_initial (h : s.ses = Session.initial) : SessionOk s :=
  .of_idle (by rw [h]; rfl) (by rw [h]; rfl) (by rw [h]; exact Nat.zero_le _) (by simp [h, Session.initial])

end Sessions

/-- The session invariant does not speak of SES_OFFSET. -/
theorem SessionOk.withOffset {s : State} (h : SessionOk s) (o : Word) :
    SessionOk { s with ses := { s.ses with offset := o } } := by
  obtain ⟨h1, h2, h3, h4, h5, h6, h7, h8, h9, h10⟩ := h
  exact ⟨h1, h2, h3, h4, h5, h6, h7, h8, h9, h10⟩

/-- Adding a symbol counts one more; in the body of a configured session the count does not wrap (rule R303). -/
theorem accCount_succ {s : State} (h : LengthsOk s) (hc : s.ses.accCount.toNat < s.ncw) :
    (s.ses.accCount + 1).toNat = s.ses.accCount.toNat + 1 := by
  have hn := h.codewordFits
  rw [BitVec.toNat_add, show (1 : Word).toNat = 1 from rfl]
  exact Nat.mod_eq_of_lt (by omega)

/-- A body symbol that is not the last keeps the session invariant. -/
theorem SessionOk.feedAccumulate {s : State} (h : SessionOk s) (hl : LengthsOk s) (ht : s.ses.engine = .triggered)
    (hne : s.ses.accCount + 1 ≠ s.drv.codewordLen) (y : Symbol) : SessionOk (feedAccumulate y s) := by
  have hlt := h.countTriggered ht
  have hsucc := accCount_succ hl hlt
  have hcount : (s.ses.accCount + 1).toNat < s.ncw := by
    have : (s.ses.accCount + 1).toNat ≠ s.ncw := fun he => hne (BitVec.eq_of_toNat_eq he)
    omega
  exact .of_triggered ht (h.subIdle (by simp [ht])) rfl hcount (h.noPayload (.inl ht)) (h.triggered (by simp [ht]))

/-- The end of a body keeps the session invariant, whatever the decoder answers (rule R303). -/
theorem SessionOk.feedFinish {s : State} (h : SessionOk s) (ht : s.ses.engine = .triggered) (y : Symbol)
    (he : s.ses.accCount + 1 = s.drv.codewordLen) (res : RsResult) :
    SessionOk (feedFinish res (Machine.feedAccumulate y s)) := by
  have hsub := h.subIdle (by simp [ht])
  have htrig := h.triggered (by simp [ht])
  cases res with
  | success m e n => exact .of_complete rfl hsub rfl he rfl htrig
  | failure n => exact .of_failed rfl hsub rfl he (h.noPayload (.inl ht)) htrig

/-- FEED in the body keeps the session invariant (rule R303). -/
theorem SessionOk.feedBody {s : State} (h : SessionOk s) (hl : LengthsOk s) (ht : s.ses.engine = .triggered)
    (y : Symbol) : SessionOk (feedBody y s) := by
  rcases feedBody_cases y s with ⟨hne, e⟩ | ⟨he, e⟩ <;> rw [e]
  · exact h.feedAccumulate hl ht hne y
  · exact h.feedFinish ht y he _

/-- The session FEED goes on with outside a body: idle, its count and its payload flag as the invariant has them (rules
R302, R303). -/
theorem SessionOk.consumed {s : State} (h : SessionOk s) (ht : s.ses.engine ≠ .triggered) :
    s.ses.consumed.engine = .idle ∧ s.ses.consumed.accCount.toNat ≤ s.ncw ∧
      (s.ses.consumed.payloadValid = true → s.ses.consumed.trigValid = true) := by
  rcases Session.consumed_cases s.ses with ⟨he, e⟩ | ⟨he, e⟩ <;> rw [e]
  · have hi : s.ses.engine = .idle := he.resolve_right ht
    exact ⟨hi, h.countIdle hi, h.payloadTrigger⟩
  · have hc : s.ses.accCount.toNat = s.ncw := congrArg BitVec.toNat (h.countDone he)
    exact ⟨rfl, hc.le, h.payloadTrigger⟩

/-- FEED while idle makes a session that meets the invariant: still idle, or a body with no symbol yet (rule R303). -/
theorem sessionOk_feedIdle {s : State} (ma mb : Bool) (start : Word) (he : s.ses.engine = .idle)
    (hn : 1 ≤ s.ncw) (hc : s.ses.accCount.toNat ≤ s.ncw) (hp : s.ses.payloadValid = true → s.ses.trigValid = true) :
    SessionOk (feedIdle ma mb start s) := by
  unfold feedIdle
  rcases triggerStep_cases ma mb start s.ses with ⟨-, -, e⟩ | ⟨-, -, e⟩ | ⟨-, -, e⟩ <;> rw [e]
  · exact .of_idle he rfl hc hp
  · exact .of_idle he rfl hc hp
  · exact .of_triggered rfl rfl rfl hn rfl rfl

/-- What FEED does for its window, but for SES_OFFSET and RESULT (rule R303). -/
def feedCore (x : List F64) (start : Word) (s : State) : State :=
  if s.ses.consumed.engine = .triggered then feedBody (s.detect x) { s with ses := s.ses.consumed }
  else feedIdle (s.trigMatch x s.active.ta.toNat) (s.trigMatch x s.active.tb.toNat) start
    { s with ses := s.ses.consumed }

/-- FEED is its core, and then SES_OFFSET and RESULT. -/
theorem feedWindow_eq (offset : Bool) (x : List F64) (s : State) :
    ∃ start, feedWindow offset x s = State.done
      { feedCore x start s with ses := { (feedCore x start s).ses with offset := start + s.drv.windowLen } } :=
  ⟨if offset then s.arg.offset else s.ses.offset, rfl⟩

theorem SessionOk.feedCore {s : State} (h : SessionOk s) (hl : LengthsOk s) (x : List F64) (start : Word) :
    SessionOk (feedCore x start s) := by
  unfold Machine.feedCore
  by_cases ht : s.ses.engine = .triggered
  · have hcons : s.ses.consumed = s.ses := by simp [Session.consumed, ht]
    rw [hcons, if_pos ht]
    exact h.feedBody hl ht _
  · obtain ⟨hi, hc, hp⟩ := h.consumed ht
    rw [if_neg (by simp [hi])]
    exact sessionOk_feedIdle _ _ start hi hl.codewordPos hc hp

/-- The body of FEED moves no configuration state and stores no element. -/
theorem feedBody_same (y : Symbol) (s : State) : SameConfig s (feedBody y s) ∧ (feedBody y s).mem = s.mem := by
  rcases feedBody_cases y s with ⟨-, e⟩ | ⟨-, e⟩ <;> rw [e]
  · exact ⟨{}, rfl⟩
  · cases feedDecode (feedAccumulate y s) <;> exact ⟨{}, rfl⟩

theorem feedIdle_same (ma mb : Bool) (start : Word) (s : State) :
    SameConfig s (feedIdle ma mb start s) ∧ (feedIdle ma mb start s).mem = s.mem := by
  unfold feedIdle
  split <;> exact ⟨{}, rfl⟩

theorem feedCore_same (x : List F64) (start : Word) (s : State) :
    SameConfig s (feedCore x start s) ∧ (feedCore x start s).mem = s.mem := by
  unfold feedCore
  split
  · obtain ⟨⟨hp, hv, ha, hd, hf, hq⟩, hm⟩ := feedBody_same (s.detect x) { s with ses := s.ses.consumed }
    exact ⟨⟨hp, hv, ha, hd, hf, hq⟩, hm⟩
  · obtain ⟨⟨hp, hv, ha, hd, hf, hq⟩, hm⟩ := feedIdle_same (s.trigMatch x s.active.ta.toNat)
      (s.trigMatch x s.active.tb.toNat) start { s with ses := s.ses.consumed }
    exact ⟨⟨hp, hv, ha, hd, hf, hq⟩, hm⟩

/-! ### The commands of the session and of the configuration -/

theorem keepsInv_feed {s : State} (h : Inv s) (f : Bool) : KeepsInv s (exec (.feed f) s) := by
  rcases exec_feed_cases f s with ⟨-, e⟩ | ⟨-, -, e⟩ | ⟨hv, -, ⟨-, e⟩ | ⟨j, -, -, e⟩⟩ <;> rw [e]
  · exact .raise h _
  · exact .raise h _
  · obtain ⟨start, e⟩ := feedWindow_eq f (s.window s.windowLen) s
    obtain ⟨⟨hp, hval, ha, hd, hf, hq⟩, hm⟩ := feedCore_same (s.window s.windowLen) start s
    have hs := (h.session.feedCore (h.config.lengths hv) (s.window s.windowLen) start).withOffset
      (start + s.drv.windowLen)
    rw [e]
    exact .session h ⟨hp, hval, ha, hd, hf, hq⟩ hv hm (hs.congr rfl rfl)
  · exact .fault s _

theorem keepsInv_sreset {s : State} (h : Inv s) : KeepsInv s (exec .sreset s) := by
  rw [exec_sreset]
  refine .next ⟨h.storage.congr rfl rfl, ⟨h.config.winMax, fun hv => ?_, fun hv => ?_⟩, .of_initial rfl⟩ rfl
  · obtain ⟨c, hc⟩ := h.config.built hv
    exact ⟨c, hc.congr {}⟩
  · exact ⟨(h.config.cleared hv).1, rfl⟩

/-- A successful CONFIG leaves the configuration state its registers make (rule R142). -/
theorem configuredBy_configure {s : State} (hc : validateCode s.params s.cfg = 0) : ConfiguredBy s.configure s.cfg := by
  have hl := lengthsValid_of_validateCode hc
  have hn : s.configure.ncw = s.cfg.payloadLen.toNat + parityLen s.cfg.payloadLen.toNat := derivedRegs_codewordLen hl
  have hperm := tableTake_tableWrite s.perm (permBytes (s.cfg.payloadLen.toNat + parityLen s.cfg.payloadLen.toNat))
    (by rw [permBytes_length]; exact add_parityLen_le hl.payloadFits)
  rw [permBytes_length] at hperm
  exact ⟨hc, rfl, rfl, tableWrite_whole s.freq _ (freqTable_length _), by rw [hn]; exact hperm⟩

theorem keepsInv_config {s : State} (h : Inv s) : KeepsInv s (exec .config s) := by
  rcases exec_config_cases s with ⟨-, e⟩ | ⟨hc, e⟩ <;> rw [e]
  · refine .next ⟨h.storage.congr rfl rfl, ⟨h.config.winMax, fun hv => ?_, fun _ => ⟨rfl, rfl⟩⟩, .of_initial rfl⟩ rfl
    exact absurd hv Bool.false_ne_true
  · refine .next ⟨h.storage.congr rfl rfl, ⟨h.config.winMax, fun _ => ⟨s.cfg, configuredBy_configure hc⟩, fun hv => ?_⟩,
      .of_initial rfl⟩ rfl
    exact absurd hv.symm Bool.false_ne_true

/-! ### Accesses and steps -/

/-- Every command keeps the invariant. -/
theorem keepsInv_exec {s : State} (h : Inv s) : ∀ i, KeepsInv s (exec i s)
  | .nop => keepsInv_nop h
  | .config => keepsInv_config h
  | .sreset => keepsInv_sreset h
  | .feed f => keepsInv_feed h f
  | .synth k => keepsInv_synth h k
  | .rsenc => keepsInv_rsenc h
  | .rsdec => keepsInv_rsdec h
  | .ilv => keepsInv_ilv h
  | .dilv => keepsInv_dilv h
  | .gpwr => keepsInv_gpwr h
  | .gpwrs slot => keepsInv_gpwrs h slot
  | .rms => keepsInv_rms h
  | .detect => keepsInv_detect h
  | .map v => keepsInv_map h v

/-- Every command word keeps the invariant, an illegal one included. -/
theorem keepsInv_execute {s : State} (h : Inv s) (v : Word) : KeepsInv s (execute s v) := by
  unfold execute
  split
  · exact keepsInv_exec h _
  · exact .raise h _

/-- A register write leaves alone what the invariant speaks of. -/
theorem writeReg_same (s : State) (v : Word) (r : Reg) :
    SameConfig s (s.writeReg v r) ∧ (s.writeReg v r).ses = s.ses ∧ (s.writeReg v r).mem = s.mem := by
  cases r <;> exact ⟨{}, rfl, rfl⟩

/-- An element write stores the element and leaves the rest alone. -/
theorem writeElem_same (s : State) (b : Buf) (i : Nat) (v : Word) :
    SameConfig s (s.writeElem b i v) ∧ (s.writeElem b i v).ses = s.ses := by
  unfold State.writeElem
  split
  · exact ⟨{}, rfl⟩
  · cases b <;> exact ⟨{}, rfl⟩

/-- Moving the counter of free values leaves alone what the invariant speaks of. -/
theorem Inv.advanceFree {s : State} (h : Inv s) : Inv s.advanceFree :=
  h.of_same {} rfl rfl

theorem keepsInv_memWrite {s : State} (h : Inv s) (w : Nat) (a : Addr) (v : Word) :
    KeepsInv s (memWrite s w a v) := by
  rcases memWrite_cases s w a v with
    ⟨-, e⟩ | ⟨-, -, e⟩ | ⟨-, -, e⟩ | ⟨r, -, -, -, e⟩ | ⟨b, i, -, -, e⟩ <;> rw [e]
  · exact .same h {} rfl rfl
  · exact .same h {} rfl rfl
  · have hcmd : Inv (s.advanceFree.writeReg v .cmd) := h.of_same {} rfl rfl
    exact keepsInv_execute hcmd v
  · obtain ⟨hk, hs, hm⟩ := writeReg_same s.advanceFree v r
    have hkeeps : KeepsInv s.advanceFree _ := .same h.advanceFree hk hs hm
    exact hkeeps
  · obtain ⟨hk, hs⟩ := writeElem_same s.advanceFree b i v
    have hkeeps : KeepsInv s.advanceFree _ := .stores h.advanceFree hk hs (h.advanceFree.storage.writeElem b i v)
    exact hkeeps

/-- The hardware reset leads to a state with nothing stored, no configuration and a reset session (rule R361). -/
theorem Inv.hardReset {s : State} (h : Inv s) : Inv s.hardReset where
  storage := by
    refine ⟨Memory.wf_nil, fun c hc => ?_, fun _ _ _ _ => rfl, fun _ _ _ _ => rfl, fun _ _ _ hb => ?_⟩
    · exact absurd hc List.not_mem_nil
    · exact absurd hb (by simp [State.byteElem, State.hardReset, State.reset])
  config := ⟨h.config.winMax, fun hv => absurd hv Bool.false_ne_true, fun _ => ⟨rfl, rfl⟩⟩
  session := .of_initial rfl

/-- Every event on the block's inputs keeps the invariant (rules R82, R360). -/
theorem keepsInv_perform {s : State} (h : Inv s) : ∀ a, KeepsInv s (perform s a)
  | .read w a => by
    have hr : Inv (memRead s w a).1 ∧ (memRead s w a).1.params = s.params := by
      rcases memRead_state s w a with e | ⟨e, -⟩ <;> rw [e]
      · exact ⟨h, rfl⟩
      · exact ⟨h.of_same {} rfl rfl, rfl⟩
    exact .next (hr.1.of_same {} rfl rfl) hr.2
  | .write w a v => keepsInv_memWrite h w a v
  | .reset => .next h.hardReset rfl

/-- Settles O58: a step is one event on the block's inputs, or none, and every event keeps the invariant. -/
theorem stepKeepsTheInvariant : Obligations.StepKeepsTheInvariant := by
  intro s t h
  suffices KeepsInv s (step s) from this t
  rcases step_cases s with ⟨-, e⟩ | ⟨a, rest, -, ⟨-, e⟩ | ⟨b, -, e⟩⟩ <;> rw [e]
  · exact .next h rfl
  · exact .same h {} rfl rfl
  · have hq : Inv { s with hostQueue := rest } := h.of_same {} rfl rfl
    exact keepsInv_perform hq b

end Sys2Proof.Machine
end

section
/-! PROOFS. A NaN moves through the arithmetic and the detector, and decides nothing (rules R10, R177). -/

namespace Sys2Proof.Machine

/-! ### Operations and comparisons -/

theorem fDiv_nan_right (a : F64) {b : F64} (h : fIsNaN b = true) : fIsNaN (fDiv a b) = true := by
  rw [fDiv, fUnpack_nan h]
  cases fUnpack a <;> simp

/-- Every comparison with a NaN is false. -/
theorem compare_nan {a b : F64} (h : fIsNaN a = true ∨ fIsNaN b = true) :
    fLt a b = false ∧ fLe a b = false ∧ fGt a b = false ∧ fGe a b = false ∧ fEq a b = false := by
  rcases h with h | h <;> simp [fLt, fLe, fGt, fGe, fEq, h]

/-- Every operation with a NaN operand delivers a NaN. -/
theorem arith_nan {a b : F64} (h : fIsNaN a = true ∨ fIsNaN b = true) :
    fIsNaN (fAdd a b) = true ∧ fIsNaN (fSub a b) = true ∧ fIsNaN (fMul a b) = true ∧ fIsNaN (fDiv a b) = true := by
  rcases h with h | h
  · exact ⟨fAdd_nan_left b h, fSub_nan_left b h, fMul_nan_left b h, fDiv_nan_left b h⟩
  · exact ⟨fAdd_nan_right a h, fSub_nan_right a h, fMul_nan_right a h, fDiv_nan_right a h⟩

theorem clampNegative_nan {q : F64} (h : fIsNaN q = true) : fIsNaN (clampNegative q) = true := by
  rwa [clampNegative, fLt_nan_left _ h, if_neg (by decide)]

/-! ### A NaN sample -/

/-- What a fold keeps once some element has made it true, holds at the end. -/
theorem foldl_of_mem {α β : Type} {f : β → α → β} {P : β → Prop} {Q : α → Prop} (hmake : ∀ b a, Q a → P (f b a))
    (hkeep : ∀ b a, P b → P (f b a)) : ∀ (l : List α) (b : β), (P b ∨ ∃ a ∈ l, Q a) → P (l.foldl f b)
  | [], _, h => by
    rcases h with h | ⟨a, ha, -⟩
    · exact h
    · exact absurd ha List.not_mem_nil
  | x :: l, b, h => by
    refine foldl_of_mem hmake hkeep l (f b x) ?_
    rcases h with h | ⟨a, ha, hq⟩
    · exact .inl (hkeep b x h)
    · rcases List.mem_cons.1 ha with rfl | ha
      · exact .inl (hmake b a hq)
      · exact .inr ⟨a, ha, hq⟩

/-- A NaN sample leaves the recursion's first term a NaN to the end: each step adds a multiple of it (rule R171). -/
theorem goertzel_nan (c : F64) {x : List F64} (h : ∃ v ∈ x, fIsNaN v = true) :
    fIsNaN (x.foldl (goertzelStep c) (fZero, fZero)).1 = true := by
  have hmake (st : F64 × F64) (v : F64) (hv : fIsNaN v = true) : fIsNaN (goertzelStep c st v).1 = true :=
    fSub_nan_left _ (fAdd_nan_left _ hv)
  have hkeep (st : F64 × F64) (v : F64) (hst : fIsNaN st.1 = true) : fIsNaN (goertzelStep c st v).1 = true :=
    fSub_nan_left _ (fAdd_nan_right _ (fMul_nan_right _ hst))
  exact foldl_of_mem (P := fun st : F64 × F64 => fIsNaN st.1 = true) hmake hkeep x _ (.inr h)

theorem powerOfCoef_nan (c : F64) {x : List F64} (h : ∃ v ∈ x, fIsNaN v = true) : fIsNaN (powerOfCoef c x) = true :=
  have hq : fIsNaN (goertzelQ c (x.foldl (goertzelStep c) (fZero, fZero))) = true :=
    fSub_nan_left _ (fAdd_nan_left _ (fMul_nan_left _ (goertzel_nan c h)))
  fDiv_nan_left _ (fMul_nan_right _ (clampNegative_nan hq))

theorem meanSq_nan {x : List F64} (h : ∃ v ∈ x, fIsNaN v = true) : fIsNaN (meanSq x) = true := by
  have hmake (acc v : F64) (hv : fIsNaN v = true) : fIsNaN (fAdd acc (fMul v v)) = true :=
    fAdd_nan_right _ (fMul_nan_left _ hv)
  have hkeep (acc v : F64) (ha : fIsNaN acc = true) : fIsNaN (fAdd acc (fMul v v)) = true := fAdd_nan_left _ ha
  exact fDiv_nan_left _ (foldl_of_mem (P := fun acc : F64 => fIsNaN acc = true) hmake hkeep x _ (.inr h))

/-! ### Tests -/

/-- A NaN power, or a NaN threshold from a NaN mean square, fails the trigger test (rule R261). -/
theorem trigDecide_nan (snr : F64) {p ms : F64} (h : fIsNaN p = true ∨ fIsNaN ms = true) :
    trigDecide snr p ms = false := by
  rcases h with h | h
  · rw [trigDecide, fGt_nan_left _ h, Bool.false_and]
  · have hthr : fIsNaN (fMul snr (clampNegative (fSub ms p))) = true :=
      fMul_nan_right _ (clampNegative_nan (fSub_nan_left _ h))
    obtain ⟨-, -, -, hge, -⟩ := compare_nan (a := p) (.inr hthr)
    rw [trigDecide, hge, Bool.and_false]

/-- Settles O34: each operation and each test passes the NaN on. -/
theorem nanPropagatesAndDecidesNothing : Obligations.NanPropagatesAndDecidesNothing := by
  refine ⟨fun a b h => ?_, fun c x h => ⟨powerOfCoef_nan c h, meanSq_nan h⟩, fun snr p ms h => trigDecide_nan snr h,
    fun pw bmin er h => fGt_nan_left _ h⟩
  obtain ⟨hadd, hsub, hmul, hdiv⟩ := arith_nan h
  exact ⟨hadd, hsub, hmul, hdiv, compare_nan h⟩

end Sys2Proof.Machine
end

section
/-! PROOFS. What a finite encoding stands for: its magnitude bits count the finite magnitudes in their order, and so the
comparisons order the values (rule R10). -/

namespace Sys2Proof.Machine

/-! ### The magnitude bits -/

/-- The magnitude bits 62:0 of an encoding: the biased exponent above the fraction (rule R10). -/
def fMag (x : F64) : Nat := (x.extractLsb' 0 63).toNat

theorem fMag_eq_mod (x : F64) : fMag x = x.toNat % 2 ^ 63 := by
  rw [fMag, BitVec.extractLsb'_toNat, Nat.shiftRight_zero]

theorem fMag_lt (x : F64) : fMag x < 2 ^ 63 := (x.extractLsb' 0 63).isLt

theorem fExpField_eq (x : F64) : fExpField x = fMag x / 2 ^ 52 := by
  rw [fExpField, BitVec.extractLsb'_toNat, Nat.shiftRight_eq_div_pow, fMag_eq_mod]
  omega

theorem fFraction_eq (x : F64) : fFraction x = fMag x % 2 ^ 52 := by
  rw [fFraction, BitVec.extractLsb'_toNat, Nat.shiftRight_zero, fMag_eq_mod]
  omega

/-- The finite encodings are those whose magnitude bits are below an infinity's. -/
theorem fFinite_iff (x : F64) : fFinite x = true ↔ fMag x < fInfMag := by
  have := fMag_lt x
  rw [fFinite, decide_eq_true_eq, fExpField_eq, fInfMag]
  omega

/-! ### The magnitudes, in units and as reals -/

/-- How many times the unit of magnitude `n` has doubled from the least one, 2^-1074. -/
def magExp (n : Nat) : Nat := n / 2 ^ 52 - 1

/-- Magnitude `n` in its unit. -/
def magMant (n : Nat) : Nat := n - magExp n * 2 ^ 52

/-- The real number magnitude bits `n` stand for; from the infinity's on, what a wider exponent would give. -/
noncomputable def magVal (n : Nat) : ℝ := magMant n * 2 ^ ((magExp n : ℤ) - 1074)

/-- A finite encoding stands for its magnitude in its unit (rule R10: subnormals kept). -/
theorem fUnpack_finite {x : F64} (h : fFinite x = true) :
    fUnpack x = .fin (fSign x) (magMant (fMag x)) ((magExp (fMag x) : ℤ) - 1074) := by
  have hne : fExpField x ≠ 2047 := by simpa [fFinite] using h
  rw [fUnpack, if_neg hne, fExpField_eq, fFraction_eq, magMant, magExp]
  split <;> congr 1 <;> omega

@[simp] theorem magVal_zero : magVal 0 = 0 := by simp [magVal, magMant]

theorem magVal_nonneg (n : Nat) : 0 ≤ magVal n := by
  unfold magVal
  positivity

/-- Magnitude `k·2^52 + n` is `n` units of 2^(k-1074), for every `n` that is normal in that unit, one unit above it, or
subnormal where `k = 0`. -/
theorem magVal_eq {k n : Nat} (hn : n ≤ 2 ^ 53) (hk : k = 0 ∨ 2 ^ 52 ≤ n) :
    magVal (k * 2 ^ 52 + n) = n * 2 ^ ((k : ℤ) - 1074) := by
  rcases Nat.lt_or_ge n (2 ^ 53) with hlt | hge
  · have he : magExp (k * 2 ^ 52 + n) = k := by unfold magExp; omega
    rw [magVal, magMant, he, Nat.add_sub_cancel_left]
  · obtain rfl : n = 2 ^ 53 := Nat.le_antisymm hn hge
    have he : magExp (k * 2 ^ 52 + 2 ^ 53) = k + 1 := by unfold magExp; omega
    have hm : k * 2 ^ 52 + 2 ^ 53 - (k + 1) * 2 ^ 52 = 2 ^ 52 := by omega
    rw [magVal, magMant, he, hm, show ((k + 1 : ℕ) : ℤ) - 1074 = ((k : ℤ) - 1074) + 1 by push_cast; ring,
      zpow_add_one₀ two_ne_zero]
    push_cast
    ring

/-- Every magnitude is `k·2^52 + n` for one of those pairs. -/
theorem mag_split (m : Nat) : magExp m * 2 ^ 52 + magMant m = m ∧ magMant m < 2 ^ 53 ∧
    (magExp m = 0 ∨ 2 ^ 52 ≤ magMant m) := by
  unfold magMant magExp
  omega

/-- The magnitude bits are in the order of the values. -/
theorem magVal_strictMono : StrictMono magVal := by
  refine strictMono_nat_of_lt_succ fun m => ?_
  obtain ⟨hsum, hlt, hnorm⟩ := mag_split m
  have hsucc : magVal (m + 1) = (magMant m + 1 : ℕ) * 2 ^ ((magExp m : ℤ) - 1074) := by
    rw [← magVal_eq (by omega) (by omega), ← Nat.add_assoc, hsum]
  rw [hsucc, magVal]
  have hunit : (0 : ℝ) < 2 ^ ((magExp m : ℤ) - 1074) := by positivity
  exact mul_lt_mul_of_pos_right (by push_cast; linarith) hunit

/-! ### Keys -/

/-- The real number a key stands for. -/
noncomputable def keyVal : ℤ → ℝ
  | .ofNat n => magVal n
  | .negSucc n => -magVal (n + 1)

/-- The keys are in the order of the values. -/
theorem keyVal_strictMono : StrictMono keyVal := by
  refine strictMono_int_of_lt_succ fun k => ?_
  match k with
  | .ofNat n => exact magVal_strictMono (Nat.lt_succ_self n)
  | .negSucc 0 =>
    have h : magVal 0 < magVal 1 := magVal_strictMono Nat.zero_lt_one
    show -magVal 1 < magVal 0
    linarith [magVal_zero]
  | .negSucc (n + 1) => exact neg_lt_neg (magVal_strictMono (Nat.lt_succ_self (n + 1)))

/-- A real number with a sign of its own. -/
def signedVal (neg : Bool) (v : ℝ) : ℝ := if neg then -v else v

theorem keyVal_signedMant (neg : Bool) (n : Nat) : keyVal (signedMant neg n) = signedVal neg (magVal n) := by
  cases neg
  · rfl
  · cases n with
    | zero => simp [signedMant, signedVal, keyVal]
    | succ n => rfl

theorem signedMant_cast (neg : Bool) (m : Nat) (w : ℝ) : (signedMant neg m : ℝ) * w = signedVal neg (m * w) := by
  cases neg <;> simp [signedMant, signedVal]

/-- The value of a finite encoding: its magnitude with its sign. -/
theorem fRat_finite {x : F64} (h : fFinite x = true) :
    ((fRat x : ℚ) : ℝ) = signedVal (fSign x) (magVal (fMag x)) := by
  rw [fRat, fUnpack_finite h]
  push_cast
  exact signedMant_cast _ _ _

/-- A finite encoding stands for the number its key stands for. -/
theorem fRat_eq_keyVal {x : F64} (h : fFinite x = true) : ((fRat x : ℚ) : ℝ) = keyVal (fKey x) := by
  rw [fRat_finite h, fKey, keyVal_signedMant, fMag]

theorem fRat_lt_iff {a b : F64} (ha : fFinite a = true) (hb : fFinite b = true) :
    fRat a < fRat b ↔ fKey a < fKey b := by
  rw [← keyVal_strictMono.lt_iff_lt, ← fRat_eq_keyVal ha, ← fRat_eq_keyVal hb, Rat.cast_lt]

/-! ### The comparisons -/

theorem fIsNaN_finite {x : F64} (h : fFinite x = true) : fIsNaN x = false := by
  have hne : fExpField x ≠ 2047 := by simpa [fFinite] using h
  simp [fIsNaN, hne]

theorem fLt_iff {a b : F64} (ha : fFinite a = true) (hb : fFinite b = true) : fLt a b = true ↔ fRat a < fRat b := by
  rw [fRat_lt_iff ha hb]
  simp [fLt, fIsNaN_finite ha, fIsNaN_finite hb]

theorem fLe_iff {a b : F64} (ha : fFinite a = true) (hb : fFinite b = true) : fLe a b = true ↔ fRat a ≤ fRat b := by
  rw [← not_lt, fRat_lt_iff hb ha, not_lt]
  simp [fLe, fIsNaN_finite ha, fIsNaN_finite hb]

theorem fEq_iff {a b : F64} (ha : fFinite a = true) (hb : fFinite b = true) : fEq a b = true ↔ fRat a = fRat b := by
  rw [← Rat.cast_inj (α := ℝ), fRat_eq_keyVal ha, fRat_eq_keyVal hb, keyVal_strictMono.injective.eq_iff]
  simp [fEq, fIsNaN_finite ha, fIsNaN_finite hb]

/-- Settles O37: the comparisons compare keys, and keys order the values. -/
theorem comparisonsOrderFiniteValues : Obligations.ComparisonsOrderFiniteValues := fun _ _ ha hb =>
  ⟨fLt_iff ha hb, fLe_iff ha hb, fLt_iff hb ha, fLe_iff hb ha, fEq_iff ha hb⟩

end Sys2Proof.Machine
end

section
/-! PROOFS. Rounding to the nearest integer, ties to even (rule R10). Rounding is stated over the reals, so that it
serves the square root too. -/

namespace Sys2Proof.Machine

/-! ### The nearest integer -/

/-- `n` is an integer nearest to `x`, and the even one where two are as near. -/
structure NearestInt (n : Nat) (x : ℝ) : Prop where
  dist : |(n : ℝ) - x| ≤ 1 / 2
  tie : |(n : ℝ) - x| = 1 / 2 → n % 2 = 0

theorem NearestInt.self (n : Nat) : NearestInt n n := by
  constructor <;> simp

/-- No integer is nearer, and if another is as near then `n` is even. -/
theorem NearestInt.dist_le {n : Nat} {x : ℝ} (h : NearestInt n x) (j : ℤ) :
    |(n : ℝ) - x| ≤ |(j : ℝ) - x| ∧ (|(n : ℝ) - x| = |(j : ℝ) - x| → (j : ℝ) ≠ n → n % 2 = 0) := by
  by_cases hj : j = n
  · subst hj
    exact ⟨by simp, fun _ hne => absurd (by simp) hne⟩
  · have hgap : (1 : ℝ) ≤ |(j : ℝ) - n| := by
      have : 1 ≤ |j - n| := Int.one_le_abs (sub_ne_zero.2 hj)
      exact_mod_cast this
    have htri : |(j : ℝ) - n| ≤ |(j : ℝ) - x| + |(n : ℝ) - x| := by
      rw [abs_sub_comm (n : ℝ) x]
      exact abs_sub_le _ _ _
    have hd := h.dist
    exact ⟨by linarith, fun he _ => h.tie (by linarith)⟩

theorem nearestInt_below {q : Nat} {t : ℝ} (h0 : 0 ≤ t) (h1 : t ≤ 1 / 2) (htie : t = 1 / 2 → q % 2 = 0) :
    NearestInt q (q + t) := by
  have habs : |(q : ℝ) - (q + t)| = t := by rw [sub_add_cancel_left, abs_neg, abs_of_nonneg h0]
  exact ⟨habs.trans_le h1, fun he => htie (habs ▸ he)⟩

theorem nearestInt_above {q : Nat} {t : ℝ} (h0 : 1 / 2 ≤ t) (h1 : t ≤ 1) (htie : t = 1 / 2 → q % 2 = 1) :
    NearestInt (q + 1) (q + t) := by
  have habs : |((q + 1 : ℕ) : ℝ) - (q + t)| = 1 - t := by
    rw [Nat.cast_succ, add_sub_add_left_eq_sub, abs_of_nonneg (by linarith)]
  refine ⟨by rw [habs]; linarith, fun he => ?_⟩
  have := htie (by linarith)
  omega

/-- `roundShift` rounds to the nearest integer, ties to even; `δ` is what the exact value has above `m`. -/
theorem roundShift_nearest {m sh : Nat} {sticky : Bool} {δ : ℝ} (h0 : 0 ≤ δ) (h1 : δ < 1)
    (hs : sticky = true ↔ δ ≠ 0) (hsh : 1 ≤ sh) : NearestInt (roundShift m sh sticky) ((m + δ) / 2 ^ sh) := by
  obtain ⟨k, rfl⟩ : ∃ k, sh = k + 1 := ⟨sh - 1, by omega⟩
  obtain ⟨half, hhalf⟩ : ∃ half, 2 ^ k = half := ⟨_, rfl⟩
  have hpow : 2 ^ (k + 1) = 2 * half := by rw [pow_succ, mul_comm, hhalf]
  have hpos : 0 < half := hhalf ▸ Nat.two_pow_pos k
  have hposR : (0 : ℝ) < 2 * half := by exact_mod_cast Nat.mul_pos two_pos hpos
  obtain ⟨q, hq⟩ : ∃ q, m / (2 * half) = q := ⟨_, rfl⟩
  obtain ⟨r, hr⟩ : ∃ r, m % (2 * half) = r := ⟨_, rfl⟩
  have hrlt : r < 2 * half := hr ▸ Nat.mod_lt _ (by omega)
  have hx : ((m : ℝ) + δ) / 2 ^ (k + 1) = q + (r + δ) / (2 * half) := by
    have hp : (2 : ℝ) ^ (k + 1) = 2 * half := by exact_mod_cast hpow
    have hm : (m : ℝ) = 2 * half * q + r := by exact_mod_cast hq ▸ hr ▸ (Nat.div_add_mod m (2 * half)).symm
    rw [hp, hm, add_assoc, add_div, mul_div_cancel_left₀ _ hposR.ne']
  have hround : roundShift m (k + 1) sticky =
      if 2 * half < 2 * r ∨ (2 * r = 2 * half ∧ (sticky = true ∨ q % 2 = 1)) then q + 1 else q := by
    simp only [roundShift, hpow, hq, hr]
  have hle : ((r : ℝ) + δ) / (2 * half) ≤ 1 / 2 ↔ (r : ℝ) + δ ≤ half := by
    rw [div_le_iff₀ hposR]
    constructor <;> intro h <;> linarith
  have heq : ((r : ℝ) + δ) / (2 * half) = 1 / 2 ↔ (r : ℝ) + δ = half := by
    rw [div_eq_iff hposR.ne']
    constructor <;> intro h <;> linarith
  rw [hround, hx]
  split_ifs with hup
  · have hge : half ≤ r := by omega
    have hgeR : (half : ℝ) ≤ r := by exact_mod_cast hge
    have hltR : (r : ℝ) + 1 ≤ 2 * half := by exact_mod_cast hrlt
    refine nearestInt_above ?_ ?_ fun ht => ?_
    · rw [le_div_iff₀ hposR]
      linarith
    · rw [div_le_one hposR]
      linarith
    · have hsum := heq.1 ht
      have hrh : (r : ℝ) = half := by linarith
      have hrh' : r = half := by exact_mod_cast hrh
      have hδ : ¬ sticky = true := fun h => hs.1 h (by linarith)
      have hodd := (hup.resolve_left (by omega)).2
      exact hodd.resolve_left hδ
  · have hcases : r < half ∨ (r = half ∧ ¬ sticky = true ∧ q % 2 = 0) := by
      by_cases hr' : r = half
      · have hno : ¬ (sticky = true ∨ q % 2 = 1) := fun h => hup (.inr ⟨by omega, h⟩)
        exact .inr ⟨hr', fun h => hno (.inl h), by omega⟩
      · omega
    have hnonneg : 0 ≤ ((r : ℝ) + δ) / (2 * half) := by positivity
    rcases hcases with hlt | ⟨hr', hns, heven⟩
    · have hltR : (r : ℝ) + 1 ≤ half := by exact_mod_cast hlt
      exact nearestInt_below hnonneg (hle.2 (by linarith)) fun ht => by linarith [heq.1 ht]
    · have hδ : δ = 0 := by_contra fun h => hns (hs.2 h)
      exact nearestInt_below hnonneg (hle.2 (by rw [hr', hδ, add_zero])) fun _ => heven

end Sys2Proof.Machine
end

section
/-! PROOFS. What `fRound` packs: the integer nearest to the number it is told of, in a unit that leaves it 53 bits (rule
R10). -/

namespace Sys2Proof.Machine

/-! ### What `fRound` packs -/

/-- `u` lies at `m` units of `2^e`, or above it and below the next where `sticky` says so: what `fRound` is told of the
number it rounds. -/
structure Brackets (u : ℝ) (m : Nat) (e : ℤ) (sticky : Bool) : Prop where
  low : m * 2 ^ e ≤ u
  high : u < (m + 1) * 2 ^ e
  sticks : sticky = true ↔ u ≠ m * 2 ^ e
  wide : sticky = true → 2 ^ 54 ≤ m

/-- A number given exactly. -/
theorem Brackets.exact (m : Nat) (e : ℤ) : Brackets (m * 2 ^ e) m e false where
  low := le_rfl
  high := by
    have : (0 : ℝ) < 2 ^ e := by positivity
    linarith
  sticks := by simp
  wide := by simp

theorem Brackets.nonneg {u : ℝ} {m : Nat} {e : ℤ} {sticky : Bool} (h : Brackets u m e sticky) : 0 ≤ u :=
  le_trans (by positivity) h.low

/-- The unit of magnitudes whose exponent is `k` above the least. -/
noncomputable abbrev magUnit (k : Nat) : ℝ := 2 ^ ((k : ℤ) - 1074)

theorem magUnit_pos (k : Nat) : 0 < magUnit k := by unfold magUnit; positivity

/-- `r` packs the sign and the integer `n` nearest to `u` in units of exponent `k`, the unit in which `u` has 53 bits,
or the least unit. -/
structure RoundedAt (neg : Bool) (u : ℝ) (r : F64) (k n : Nat) : Prop where
  packed : r = fPack neg (min (k * 2 ^ 52 + n) fInfMag)
  nearest : NearestInt n (u / magUnit k)
  below : u < 2 ^ 53 * magUnit k
  normal : k = 0 ∨ 2 ^ 52 * magUnit k ≤ u

/-- A signed zero is zero rounded. -/
theorem RoundedAt.zero (neg : Bool) : RoundedAt neg 0 (fPack neg 0) 0 0 where
  packed := by simp
  nearest := by simpa using NearestInt.self 0
  below := by positivity
  normal := .inl rfl

/-- The integer `fRound` packs is the nearest in its unit. -/
theorem fRound_nearest {u : ℝ} {m : Nat} {e q : ℤ} {sticky : Bool} (h : Brackets u m e sticky)
    (hwide : sticky = true → e < q) :
    NearestInt (if q ≤ e then m * 2 ^ (e - q).toNat else roundShift m (q - e).toNat sticky) (u / 2 ^ q) := by
  split_ifs with hq
  · have hs : ¬ sticky = true := fun hs => absurd (hwide hs) (by omega)
    have hu : u = m * 2 ^ e := not_not.1 fun hne => hs (h.sticks.2 hne)
    have hx : u / 2 ^ q = (m * 2 ^ (e - q).toNat : ℕ) := by
      rw [hu, mul_div_assoc, ← zpow_sub₀ two_ne_zero, Nat.cast_mul, Nat.cast_pow, Nat.cast_ofNat, ← zpow_natCast,
        Int.toNat_of_nonneg (by omega)]
    rw [hx]
    exact .self _
  · have hunit : (0 : ℝ) < 2 ^ e := by positivity
    have hx : u / 2 ^ q = (m + (u / 2 ^ e - m)) / 2 ^ (q - e).toNat := by
      rw [add_sub_cancel, div_div, ← zpow_natCast (2 : ℝ), ← zpow_add₀ two_ne_zero, Int.toNat_of_nonneg (by omega),
        add_sub_cancel]
    have hlow : (m : ℝ) ≤ u / 2 ^ e := (le_div_iff₀ hunit).2 h.low
    have hhigh : u / 2 ^ e < m + 1 := (div_lt_iff₀ hunit).2 h.high
    have hsticks : sticky = true ↔ u / 2 ^ e - m ≠ 0 := by
      rw [h.sticks, sub_ne_zero, ne_eq, ne_eq, div_eq_iff hunit.ne']
    rw [hx]
    exact roundShift_nearest (by linarith) (by linarith) hsticks (by omega)

/-- `fRound` rounds the number it is told of. -/
theorem fRound_roundedAt (neg : Bool) {u : ℝ} {m : Nat} {e : ℤ} {sticky : Bool} (h : Brackets u m e sticky) :
    ∃ k n, RoundedAt neg u (fRound neg m e sticky) k n := by
  by_cases hm : m = 0
  · subst hm
    have hs : ¬ sticky = true := fun hs => absurd (h.wide hs) (by decide)
    have hu : u = 0 := by
      have : u = ((0 : ℕ) : ℝ) * 2 ^ e := not_not.1 fun hne => hs (h.sticks.2 hne)
      simpa using this
    rw [fRound, if_pos rfl, hu]
    exact ⟨0, 0, .zero neg⟩
  · obtain ⟨l, hl⟩ : ∃ l, Nat.log2 m = l := ⟨_, rfl⟩
    have hlow : 2 ^ l ≤ m := hl ▸ Nat.log2_self_le hm
    have hhigh : m + 1 ≤ 2 ^ (l + 1) := hl ▸ Nat.lt_log2_self
    obtain ⟨q, hq⟩ : ∃ q : ℤ, max (e + (l : ℤ) - 52) (-1074) = q := ⟨_, rfl⟩
    have hk : ((q + 1074).toNat : ℤ) - 1074 = q := by omega
    have hunit : magUnit (q + 1074).toNat = 2 ^ q := by rw [magUnit, hk]
    have hepos : (0 : ℝ) < 2 ^ e := by positivity
    have hlowR : (2 : ℝ) ^ (l : ℤ) ≤ m := by rw [zpow_natCast]; exact_mod_cast hlow
    have hhighR : (m : ℝ) + 1 ≤ 2 ^ ((l : ℤ) + 1) := by
      rw [show ((l : ℤ) + 1) = ((l + 1 : ℕ) : ℤ) by push_cast; rfl, zpow_natCast]
      exact_mod_cast hhigh
    have hwide (hs : sticky = true) : e < q := by
      have h54 : 54 < l + 1 := (Nat.pow_lt_pow_iff_right one_lt_two).1 ((h.wide hs).trans_lt hhigh)
      omega
    refine ⟨(q + 1074).toNat, _, ?_, hunit ▸ fRound_nearest h hwide, ?_, ?_⟩
    · rw [fRound, if_neg hm, hl, hq]
    · rw [hunit]
      calc u < (m + 1) * 2 ^ e := h.high
        _ ≤ 2 ^ ((l : ℤ) + 1) * 2 ^ e := by gcongr
        _ = 2 ^ ((l : ℤ) + 1 + e) := (zpow_add₀ two_ne_zero _ _).symm
        _ ≤ 2 ^ (53 + q) := zpow_le_zpow_right₀ one_le_two (by omega)
        _ = 2 ^ 53 * 2 ^ q := by rw [zpow_add₀ two_ne_zero]; norm_cast
    · by_cases hmin : q = -1074
      · exact .inl (by omega)
      · refine .inr ?_
        rw [hunit]
        calc (2 : ℝ) ^ 52 * 2 ^ q = 2 ^ (52 + q) := by rw [zpow_add₀ two_ne_zero]; norm_cast
          _ = 2 ^ ((l : ℤ) + e) := by rw [show 52 + q = (l : ℤ) + e by omega]
          _ = 2 ^ (l : ℤ) * 2 ^ e := zpow_add₀ two_ne_zero _ _
          _ ≤ m * 2 ^ e := by gcongr
          _ ≤ u := h.low

/-! ### The fields of a packed encoding -/

theorem fMag_fPack (neg : Bool) {n : Nat} (h : n ≤ fInfMag) : fMag (fPack neg n) = n := by
  unfold fInfMag at h
  rw [fMag_eq_mod, fPack, BitVec.toNat_ofNat]
  split <;> omega

theorem fSign_fPack (neg : Bool) {n : Nat} (h : n ≤ fInfMag) : fSign (fPack neg n) = neg := by
  unfold fInfMag at h
  rw [fSign, fPack, BitVec.getLsbD_ofNat, Nat.testBit_eq_decide_div_mod_eq]
  cases neg
  · simp; omega
  · simp; omega

theorem lsb_fPack (neg : Bool) {n : Nat} (h : n % 2 = 0) : (fPack neg n).getLsbD 0 = false := by
  rw [fPack, BitVec.getLsbD_ofNat, Nat.testBit_eq_decide_div_mod_eq]
  cases neg <;> simp <;> omega

end Sys2Proof.Machine
end

section
/-! PROOFS. A rounded number is finite below the overflow bound, and then no finite encoding is nearer; from the bound
on it is the infinity of its sign (rule R10; log entry 18). -/

namespace Sys2Proof.Machine

/-! ### Signs -/

theorem signedVal_dist (neg : Bool) (a b : ℝ) : |signedVal neg a - signedVal neg b| = |a - b| := by
  cases neg
  · rfl
  · rw [signedVal, signedVal, if_pos rfl, if_pos rfl, neg_sub_neg, abs_sub_comm]

theorem abs_signedVal (neg : Bool) (a : ℝ) : |signedVal neg a| = |a| := by
  cases neg <;> simp [signedVal]

theorem signedVal_signedVal (neg : Bool) (a : ℝ) : signedVal neg (signedVal neg a) = a := by
  cases neg <;> simp [signedVal]

theorem signedVal_mul (na nb : Bool) (a b : ℝ) : signedVal na a * signedVal nb b = signedVal (na != nb) (a * b) := by
  cases na <;> cases nb <;> simp [signedVal]

theorem signedVal_div (na nb : Bool) (a b : ℝ) : signedVal na a / signedVal nb b = signedVal (na != nb) (a / b) := by
  cases na <;> cases nb <;> simp [signedVal, neg_div, div_neg]

/-! ### The overflow bound -/

theorem overflowBound_eq : ((overflowBound : ℚ) : ℝ) = (2 ^ 53 - 1 / 2) * magUnit 2045 := by
  have h1 : (2 : ℝ) ^ 1024 = 2 ^ 54 * 2 ^ 970 := by rw [← pow_add]
  have h2 : magUnit 2045 = 2 * 2 ^ 970 := by
    rw [magUnit, show ((2045 : ℕ) : ℤ) - 1074 = ((971 : ℕ) : ℤ) by norm_num, zpow_natCast, ← pow_succ']
  rw [overflowBound, h2]
  push_cast
  rw [h1]
  generalize (2 : ℝ) ^ 970 = x
  ring

/-- Doubling units. -/
theorem magUnit_add (k d : Nat) : magUnit (k + d) = 2 ^ d * magUnit k := by
  rw [magUnit, magUnit, ← zpow_natCast, ← zpow_add₀ two_ne_zero]
  congr 1
  push_cast
  ring

theorem magUnit_le {k l : Nat} (h : k ≤ l) : magUnit k ≤ magUnit l :=
  zpow_le_zpow_right₀ one_le_two (by omega)

section Rounded

variable {neg : Bool} {u : ℝ} {r : F64} {k n : Nat} (h : RoundedAt neg u r k n)
include h

/-- The integer has at most 53 bits, or is the first number with 54. -/
theorem RoundedAt.le_two_pow : n ≤ 2 ^ 53 := by
  have hd := (abs_le.1 h.nearest.dist).2
  have hu : u / magUnit k < 2 ^ 53 := (div_lt_iff₀ (magUnit_pos k)).2 h.below
  have hn : (n : ℝ) < (2 ^ 53 + 1 : ℕ) := by push_cast; linarith
  exact Nat.lt_succ_iff.1 (by exact_mod_cast hn)

theorem RoundedAt.normal_int : k = 0 ∨ 2 ^ 52 ≤ n := by
  refine h.normal.imp_right fun hu => ?_
  have hd := (abs_le.1 h.nearest.dist).1
  have hu : 2 ^ 52 ≤ u / magUnit k := (le_div_iff₀ (magUnit_pos k)).2 hu
  have hn : ((2 ^ 52 : ℕ) : ℝ) < (n + 1 : ℕ) := by push_cast; linarith
  exact Nat.lt_succ_iff.1 (by exact_mod_cast hn)

/-- The integer has 53 bits exactly when the number is nearer to the last of those than to 2^53: halfway between them it
goes to 2^53, which is even. -/
theorem RoundedAt.lt_two_pow_iff : n < 2 ^ 53 ↔ u / magUnit k < 2 ^ 53 - 1 / 2 := by
  obtain ⟨hd1, hd2⟩ := abs_le.1 h.nearest.dist
  constructor
  · intro hlt
    have hn : (n : ℝ) + 1 ≤ 2 ^ 53 := by exact_mod_cast hlt
    refine lt_of_le_of_ne (by linarith) fun he => ?_
    have hne : (n : ℝ) + 1 = 2 ^ 53 := by linarith
    have heven := h.nearest.tie (by rw [he, abs_eq (by norm_num)]; right; linarith)
    have hne' : n + 1 = 2 ^ 53 := by exact_mod_cast hne
    omega
  · intro hlt
    have hn : (n : ℝ) < 2 ^ 53 := by linarith
    exact_mod_cast hn

/-- The magnitude bits stay below an infinity's exactly below the overflow bound. -/
theorem RoundedAt.mag_lt_iff : k * 2 ^ 52 + n < fInfMag ↔ u < (overflowBound : ℚ) := by
  have hle := h.le_two_pow
  have hnorm := h.normal_int
  have hlarge := magUnit_pos 2045
  rw [fInfMag, overflowBound_eq]
  rcases Nat.lt_trichotomy k 2045 with hk | rfl | hk
  · have hunit : 2 * magUnit k ≤ magUnit 2045 := by
      rw [← pow_one (2 : ℝ), ← magUnit_add]
      exact magUnit_le hk
    have hu := h.below
    exact iff_of_true (by omega) (by nlinarith [magUnit_pos k])
  · rw [← div_lt_iff₀ hlarge, ← h.lt_two_pow_iff]
    omega
  · have hunit : 2 * magUnit 2045 ≤ magUnit k := by
      rw [← pow_one (2 : ℝ), ← magUnit_add]
      exact magUnit_le hk
    have hu := h.normal.resolve_left (by omega)
    exact iff_of_false (by omega) (by nlinarith)

/-- Below the overflow bound the result is finite, and stands for the integer in its unit. -/
theorem RoundedAt.finite (hu : u < (overflowBound : ℚ)) :
    fFinite r = true ∧ ((fRat r : ℚ) : ℝ) = signedVal neg (n * magUnit k) := by
  have hlt := h.mag_lt_iff.2 hu
  have hr : r = fPack neg (k * 2 ^ 52 + n) := by rw [h.packed, Nat.min_eq_left hlt.le]
  have hmag : fMag r = k * 2 ^ 52 + n := hr ▸ fMag_fPack neg hlt.le
  have hfin : fFinite r = true := by rwa [fFinite_iff, hmag]
  refine ⟨hfin, ?_⟩
  rw [fRat_finite hfin, hmag, magVal_eq h.le_two_pow h.normal_int, hr, fSign_fPack neg hlt.le]

/-- From the overflow bound on the result is an infinity. -/
theorem RoundedAt.overflow (hu : ¬ u < (overflowBound : ℚ)) : r = fPack neg fInfMag := by
  rw [h.packed, Nat.min_eq_right (Nat.le_of_not_lt fun hlt => hu (h.mag_lt_iff.1 hlt))]

/-- For the value `y` of any finite encoding some multiple of the unit is as near to `u`, and nearer if `y` is none. -/
theorem RoundedAt.multiple_near {y : ℝ} {m : Nat} (hy : |y| = magVal m) :
    ∃ j : ℤ, |j * magUnit k - u| ≤ |y - u| ∧ (|j * magUnit k - u| = |y - u| → y = j * magUnit k) := by
  rcases Nat.lt_or_ge (magExp m) k with hk | hk
  · have hunit : 2 * magUnit (magExp m) ≤ magUnit k := by
      rw [← pow_one (2 : ℝ), ← magUnit_add]
      exact magUnit_le hk
    have hpos := magUnit_pos (magExp m)
    have hu := h.normal.resolve_left (by omega)
    have hmant : (magMant m : ℝ) < 2 ^ 53 := by exact_mod_cast (mag_split m).2.1
    have hlt : y < 2 ^ 52 * magUnit k := by
      calc y ≤ |y| := le_abs_self y
        _ = magMant m * magUnit (magExp m) := hy
        _ < 2 ^ 53 * magUnit (magExp m) := by gcongr
        _ = 2 ^ 52 * (2 * magUnit (magExp m)) := by ring
        _ ≤ 2 ^ 52 * magUnit k := by gcongr
    have hnear : |((2 ^ 52 : ℤ) : ℝ) * magUnit k - u| < |y - u| := by
      push_cast
      rw [abs_of_nonpos (by linarith), abs_of_nonpos (by linarith)]
      linarith
    exact ⟨2 ^ 52, hnear.le, fun he => absurd he hnear.ne⟩
  · obtain ⟨d, hd⟩ := Nat.exists_eq_add_of_le hk
    obtain ⟨j, hj⟩ : ∃ j : ℤ, y = j * magUnit k := by
      have hval : magVal m = (magMant m * 2 ^ d : ℕ) * magUnit k := by
        rw [magVal, hd, ← magUnit, magUnit_add]
        push_cast
        ring
      rw [hval] at hy
      rcases abs_choice y with hs | hs
      · exact ⟨(magMant m * 2 ^ d : ℕ), by rw [← hs, hy, Int.cast_natCast]⟩
      · exact ⟨-(magMant m * 2 ^ d : ℕ), by rw [← neg_neg y, ← hs, hy, Int.cast_neg, Int.cast_natCast, neg_mul]⟩
    exact ⟨j, by rw [hj], fun _ => hj⟩

/-- No multiple of the unit is nearer to `u` than the rounded one, and on a tie its integer is even. -/
theorem RoundedAt.dist_le (j : ℤ) : |n * magUnit k - u| ≤ |j * magUnit k - u| ∧
    (|n * magUnit k - u| = |j * magUnit k - u| → (j : ℝ) ≠ n → n % 2 = 0) := by
  have hpos := magUnit_pos k
  have hscale (x : ℝ) : |x * magUnit k - u| = |x - u / magUnit k| * magUnit k := by
    rw [← abs_of_pos hpos, ← abs_mul, abs_of_pos hpos, sub_mul, div_mul_cancel₀ _ hpos.ne']
  obtain ⟨hle, htie⟩ := h.nearest.dist_le j
  rw [hscale, hscale, mul_le_mul_iff_left₀ hpos, mul_left_inj' hpos.ne']
  exact ⟨hle, htie⟩

/-- Below the overflow bound no finite encoding is nearer, and on a tie the result is even. -/
theorem RoundedAt.nearest_finite (hu : u < (overflowBound : ℚ)) {z : F64} (hz : fFinite z = true) :
    |((fRat r : ℚ) : ℝ) - signedVal neg u| ≤ |((fRat z : ℚ) : ℝ) - signedVal neg u| ∧
      (|((fRat r : ℚ) : ℝ) - signedVal neg u| = |((fRat z : ℚ) : ℝ) - signedVal neg u| →
        fRat z ≠ fRat r → r.getLsbD 0 = false) := by
  obtain ⟨-, hval⟩ := h.finite hu
  obtain ⟨y, hy⟩ : ∃ y, signedVal neg ((fRat z : ℚ) : ℝ) = y := ⟨_, rfl⟩
  have hz' : ((fRat z : ℚ) : ℝ) = signedVal neg y := by rw [← hy, signedVal_signedVal]
  have habs : |y| = magVal (fMag z) := by
    rw [← hy, abs_signedVal, fRat_finite hz, abs_signedVal, abs_of_nonneg (magVal_nonneg _)]
  obtain ⟨j, hj, hjy⟩ := h.multiple_near habs
  obtain ⟨hn, htie⟩ := h.dist_le j
  rw [hval, hz', signedVal_dist, signedVal_dist]
  refine ⟨hn.trans hj, fun he hne => ?_⟩
  have hyj : y = j * magUnit k := hjy (le_antisymm hj (he ▸ hn))
  have hjn : (j : ℝ) ≠ n := by
    intro hjn
    refine hne ?_
    have : ((fRat z : ℚ) : ℝ) = fRat r := by rw [hz', hval, hyj, hjn]
    exact_mod_cast this
  have heven := htie (le_antisymm hn (by rw [he, hyj])) hjn
  rw [h.packed, Nat.min_eq_left (h.mag_lt_iff.2 hu).le]
  exact lsb_fPack neg (by omega)

/-- A rounded rational is correctly rounded (rule R10; log entry 18). -/
theorem RoundedAt.roundsTo {v : ℚ} (hv : (v : ℝ) = signedVal neg u) (hu : 0 ≤ u) : RoundsTo r v := by
  have habs : ((|v| : ℚ) : ℝ) = u := by rw [Rat.cast_abs, hv, abs_signedVal, abs_of_nonneg hu]
  have hiff : |v| < overflowBound ↔ u < (overflowBound : ℚ) := by rw [← habs, Rat.cast_lt]
  unfold RoundsTo
  split_ifs with hb
  · have hb' := hiff.1 hb
    refine ⟨(h.finite hb').1, fun z hz => ?_⟩
    have hnear := h.nearest_finite hb' hz
    rw [← hv] at hnear
    exact_mod_cast hnear
  · have hb' := mt hiff.2 hb
    have hpos : 0 < u := by
      refine lt_of_lt_of_le ?_ (not_lt.1 hb')
      rw [overflowBound_eq]
      exact mul_pos (by norm_num) (magUnit_pos _)
    have hneg : v < 0 ↔ neg = true := by
      rw [← Rat.cast_lt (K := ℝ), hv, Rat.cast_zero]
      cases neg
      · simp [signedVal, hu]
      · simp [signedVal, hpos]
    have hsign : decide (v < 0) = neg := by rw [Bool.eq_iff_iff, decide_eq_true_iff, hneg]
    rw [hsign]
    exact h.overflow hb'

end Rounded

end Sys2Proof.Machine
end

section
/-! PROOFS. The arithmetic is correctly rounded: each operation hands `fRound` its exact result (rule R10). -/

namespace Sys2Proof.Machine

/-! ### Rounding an exact result -/

theorem roundsTo_fRound (neg : Bool) {v : ℚ} {u : ℝ} {m : Nat} {e : ℤ} {sticky : Bool} (h : Brackets u m e sticky)
    (hv : (v : ℝ) = signedVal neg u) : RoundsTo (fRound neg m e sticky) v := by
  obtain ⟨k, n, hr⟩ := fRound_roundedAt neg h
  exact hr.roundsTo hv h.nonneg

theorem roundsTo_fRoundInt {v : ℚ} {x e : ℤ} (zeroNeg : Bool) (hv : (v : ℝ) = x * 2 ^ e) :
    RoundsTo (fRoundInt x e zeroNeg) v := by
  unfold fRoundInt
  split_ifs with hx
  · have hv0 : (v : ℝ) = signedVal zeroNeg 0 := by
      rw [hv, hx]
      cases zeroNeg <;> simp [signedVal]
    exact (RoundedAt.zero zeroNeg).roundsTo hv0 le_rfl
  · refine roundsTo_fRound _ (.exact x.natAbs e) ?_
    rw [hv, Nat.cast_natAbs, Int.cast_abs]
    by_cases hneg : x < 0
    · have hnegR : (x : ℝ) < 0 := by exact_mod_cast hneg
      rw [decide_eq_true hneg, signedVal, if_pos rfl, abs_of_neg hnegR, neg_mul, neg_neg]
    · have hposR : 0 ≤ (x : ℝ) := by exact_mod_cast not_lt.1 hneg
      rw [decide_eq_false hneg, abs_of_nonneg hposR]
      rfl

/-- A mantissa brought to a smaller unit keeps its value. -/
theorem align_mul {m : Nat} {e f : ℤ} (h : f ≤ e) : ((m * 2 ^ (e - f).toNat : ℕ) : ℝ) * 2 ^ f = m * 2 ^ e := by
  rw [Nat.cast_mul, Nat.cast_pow, Nat.cast_ofNat, ← zpow_natCast, Int.toNat_of_nonneg (by omega), mul_assoc,
    ← zpow_add₀ two_ne_zero, sub_add_cancel]

theorem roundsTo_fAddFin {v : ℚ} (na nb : Bool) (ma mb : Nat) (ea eb : ℤ)
    (hv : (v : ℝ) = signedVal na (ma * 2 ^ ea) + signedVal nb (mb * 2 ^ eb)) :
    RoundsTo (fAddFin na ma ea nb mb eb) v := by
  refine roundsTo_fRoundInt _ ?_
  rw [Int.cast_add, add_mul, signedMant_cast, signedMant_cast, align_mul (min_le_left _ _),
    align_mul (min_le_right _ _), hv]

/-- A number given in units of `2^e`. -/
theorem Brackets.of_scaled {x : ℝ} {m : Nat} {sticky : Bool} (e : ℤ) (hlow : (m : ℝ) ≤ x) (hhigh : x < m + 1)
    (hs : sticky = true ↔ x ≠ m) (hw : sticky = true → 2 ^ 54 ≤ m) : Brackets (x * 2 ^ e) m e sticky := by
  have hunit : (0 : ℝ) < 2 ^ e := by positivity
  refine ⟨by gcongr, by gcongr, ?_, hw⟩
  rw [hs, ne_eq, ne_eq, mul_left_inj' hunit.ne']

/-- A quotient of integers below 2^53, by 120 bits more than the divisor has. -/
theorem Brackets.quotient {ma mb : Nat} (hpos : mb ≠ 0) (hlt : mb < 2 ^ 53) (e : ℤ) :
    Brackets (((ma * 2 ^ 120 : ℕ) / mb : ℝ) * 2 ^ e) (ma * 2 ^ 120 / mb) e (decide (ma * 2 ^ 120 % mb ≠ 0)) := by
  obtain ⟨a, ha⟩ : ∃ a, ma * 2 ^ 120 = a := ⟨_, rfl⟩
  rw [ha]
  have hposR : (0 : ℝ) < mb := by exact_mod_cast Nat.pos_of_ne_zero hpos
  refine .of_scaled e Nat.cast_div_le ?_ ?_ ?_
  · rw [div_lt_iff₀ hposR]
    exact_mod_cast Nat.lt_mul_of_div_lt (Nat.lt_succ_self _) (Nat.pos_of_ne_zero hpos)
  · rw [decide_eq_true_iff, not_iff_not, div_eq_iff hposR.ne', ← Nat.dvd_iff_mod_eq_zero]
    constructor
    · intro hd
      exact_mod_cast (Nat.div_mul_cancel hd).symm
    · intro he
      exact ⟨a / mb, by rw [mul_comm]; exact_mod_cast he⟩
  · intro hs
    rw [decide_eq_true_iff] at hs
    have hma : 1 ≤ ma := by
      rcases Nat.eq_zero_or_pos ma with h0 | h1
      · exact absurd (by rw [← ha, h0, Nat.zero_mul, Nat.zero_mod]) hs
      · exact h1
    rw [Nat.le_div_iff_mul_le (Nat.pos_of_ne_zero hpos)]
    omega

/-! ### The operations -/

theorem signedVal_not (neg : Bool) (x : ℝ) : signedVal (!neg) x = -signedVal neg x := by
  cases neg <;> simp [signedVal]

section Operations

variable {a b : F64} (ha : fFinite a = true) (hb : fFinite b = true)
include ha hb

theorem roundsTo_fAdd : RoundsTo (fAdd a b) (fRat a + fRat b) := by
  rw [fAdd, fUnpack_finite ha, fUnpack_finite hb]
  refine roundsTo_fAddFin _ _ _ _ _ _ ?_
  rw [Rat.cast_add, fRat_finite ha, fRat_finite hb, magVal, magVal]

theorem roundsTo_fSub : RoundsTo (fSub a b) (fRat a - fRat b) := by
  rw [fSub, fUnpack_finite ha, fUnpack_finite hb]
  refine roundsTo_fAddFin _ _ _ _ _ _ ?_
  rw [Rat.cast_sub, fRat_finite ha, fRat_finite hb, signedVal_not, magVal, magVal, sub_eq_add_neg]

theorem roundsTo_fMul : RoundsTo (fMul a b) (fRat a * fRat b) := by
  rw [fMul, fUnpack_finite ha, fUnpack_finite hb]
  refine roundsTo_fRound _ (.exact _ _) ?_
  rw [Rat.cast_mul, fRat_finite ha, fRat_finite hb, signedVal_mul, magVal, magVal, mul_mul_mul_comm,
    ← zpow_add₀ two_ne_zero, Nat.cast_mul]

theorem roundsTo_fDiv (h0 : fRat b ≠ 0) : RoundsTo (fDiv a b) (fRat a / fRat b) := by
  have hm : magMant (fMag b) ≠ 0 := by
    intro hm
    have h : ((fRat b : ℚ) : ℝ) = 0 := by
      rw [fRat_finite hb, magVal, hm]
      cases fSign b <;> simp [signedVal]
    exact h0 (by exact_mod_cast h)
  rw [fDiv, fUnpack_finite ha, fUnpack_finite hb]
  simp only [if_neg hm]
  refine roundsTo_fRound _ (.quotient hm (mag_split _).2.1 _) ?_
  rw [Rat.cast_div, fRat_finite ha, fRat_finite hb, signedVal_div, magVal, magVal, mul_div_mul_comm,
    ← zpow_sub₀ two_ne_zero, zpow_sub₀ two_ne_zero _ 120, Nat.cast_mul, Nat.cast_pow, Nat.cast_ofNat]
  congr 1
  have h120 : (2 : ℝ) ^ (120 : ℤ) = 2 ^ 120 := by norm_cast
  rw [h120]
  field_simp

end Operations

/-! ### `float(k)` -/

/-- `float(k)` is handed `k` itself. -/
theorem brackets_nat (k : Nat) : Brackets k k 0 false := by simpa using Brackets.exact k 0

theorem roundsTo_fOfNat (k : Nat) : RoundsTo (fOfNat k) k := roundsTo_fRound _ (brackets_nat k) rfl

/-- A number below 2^53 is below the overflow bound. -/
theorem lt_overflowBound {u : ℝ} (h : u < 2 ^ 53) : u < (overflowBound : ℚ) := by
  have h2 : 2 ≤ magUnit 2045 := by
    calc (2 : ℝ) = magUnit 1075 := by norm_num [magUnit]
      _ ≤ magUnit 2045 := magUnit_le (by norm_num)
  rw [overflowBound_eq]
  nlinarith

/-- An integer below 2^53 is a whole number of its units, and so its own rounding. -/
theorem fOfNat_exact {k : Nat} (hk : k < 2 ^ 53) : fFinite (fOfNat k) = true ∧ fRat (fOfNat k) = k := by
  have hkR : (k : ℝ) < 2 ^ 53 := by exact_mod_cast hk
  obtain ⟨x, n, hr⟩ := fRound_roundedAt false (brackets_nat k)
  obtain ⟨hfin, hval⟩ := hr.finite (lt_overflowBound hkR)
  have hx : x ≤ 1074 := by
    by_contra hx
    have hunit : magUnit 1075 ≤ magUnit x := magUnit_le (by omega)
    have h2 : magUnit 1075 = 2 := by norm_num [magUnit]
    have hnorm := hr.normal.resolve_left (by omega)
    linarith
  have hwhole : (k : ℝ) / magUnit x = ((k * 2 ^ (1074 - x) : ℕ) : ℤ) := by
    have hone : magUnit x * 2 ^ (1074 - x) = 1 := by
      rw [mul_comm, ← magUnit_add, Nat.add_sub_cancel' hx]
      norm_num [magUnit]
    rw [div_eq_iff (magUnit_pos x).ne']
    push_cast
    rw [mul_assoc, mul_comm (2 ^ (1074 - x)) (magUnit x), hone, mul_one]
  have hn : (n : ℝ) = k / magUnit x := by
    have hle := (hr.nearest.dist_le (k * 2 ^ (1074 - x) : ℕ)).1
    rw [← hwhole, sub_self, abs_zero] at hle
    exact sub_eq_zero.1 (abs_nonpos_iff.1 hle)
  rw [hn, div_mul_cancel₀ _ (magUnit_pos x).ne'] at hval
  have hval' : ((fRat (fOfNat k) : ℚ) : ℝ) = k := hval
  exact ⟨hfin, by exact_mod_cast hval'⟩

/-- Settles O35: each operation hands `fRound` its exact result, and `fRound` delivers the nearest encoding. -/
theorem arithmeticIsCorrectlyRounded : Obligations.ArithmeticIsCorrectlyRounded :=
  ⟨fun _ _ ha hb => ⟨roundsTo_fAdd ha hb, roundsTo_fSub ha hb, roundsTo_fMul ha hb, roundsTo_fDiv ha hb⟩,
    roundsTo_fOfNat, fun _ hk => fOfNat_exact hk⟩

end Sys2Proof.Machine
end

section
/-! PROOFS. The square root is correctly rounded: `isqrt` is the integer root, and what it leaves is sticky (rule
R10). -/

namespace Sys2Proof.Machine

/-! ### The integer root -/

/-- The bits found so far bracket the root; at the end they are the root. -/
theorem isqrtFrom_spec (n : Nat) : ∀ (k acc : Nat), acc * acc ≤ n → n < (acc + 2 ^ k) * (acc + 2 ^ k) →
    isqrtFrom n k acc * isqrtFrom n k acc ≤ n ∧ n < (isqrtFrom n k acc + 1) * (isqrtFrom n k acc + 1)
  | 0, _, hlow, hhigh => ⟨hlow, hhigh⟩
  | k + 1, acc, hlow, hhigh => by
    rw [isqrtFrom]
    split_ifs with hbit
    · refine isqrtFrom_spec n k _ hbit ?_
      rwa [add_assoc, ← two_mul, ← pow_succ']
    · exact isqrtFrom_spec n k acc hlow (Nat.lt_of_not_le hbit)

theorem isqrt_spec {n : Nat} (h : n < 2 ^ 176) : isqrt n * isqrt n ≤ n ∧ n < (isqrt n + 1) * (isqrt n + 1) := by
  refine isqrtFrom_spec n 88 0 (Nat.zero_le n) ?_
  rw [Nat.zero_add, ← pow_add]
  exact h

/-- The root of an integer of at least 2^120, bracketed by its integer root. -/
theorem Brackets.sqrt {n : Nat} (hlow : 2 ^ 120 ≤ n) (hhigh : n < 2 ^ 176) (e : ℤ) :
    Brackets (Real.sqrt n * 2 ^ e) (isqrt n) e (decide (isqrt n * isqrt n ≠ n)) := by
  obtain ⟨h1, h2⟩ := isqrt_spec hhigh
  refine .of_scaled e ?_ ?_ ?_ fun _ => ?_
  · refine Real.le_sqrt_of_sq_le ?_
    rw [sq]
    exact_mod_cast h1
  · rw [Real.sqrt_lt' (by positivity), sq]
    exact_mod_cast h2
  · rw [decide_eq_true_iff, not_iff_not, Real.sqrt_eq_iff_mul_self_eq (by positivity) (by positivity)]
    exact_mod_cast eq_comm
  · by_contra hlt
    have : (isqrt n + 1) * (isqrt n + 1) ≤ 2 ^ 54 * 2 ^ 54 := Nat.mul_le_mul (by omega) (by omega)
    omega

/-! ### The root of a finite positive value -/

/-- The exponent of the scaled mantissa is even, so the root of its unit is a unit. -/
theorem sqrt_scaled (m : Nat) {e : ℤ} {k : Nat} (hk : (e - k) % 2 = 0) :
    Real.sqrt (m * 2 ^ e) = Real.sqrt (m * 2 ^ k : ℕ) * 2 ^ ((e - k) / 2) := by
  obtain ⟨f, hf⟩ : ∃ f, (e - k) / 2 = f := ⟨_, rfl⟩
  have he : e = k + (f + f) := by omega
  have hsq : (m : ℝ) * 2 ^ e = (m * 2 ^ k : ℕ) * (2 ^ f * 2 ^ f) := by
    rw [he, zpow_add₀ two_ne_zero, zpow_add₀ two_ne_zero, zpow_natCast]
    push_cast
    ring
  rw [hf, hsq, Real.sqrt_mul (by positivity), Real.sqrt_mul_self (by positivity)]

/-- `fSqrtFin` rounds the root of the value it is given. -/
theorem fSqrtFin_roundedAt {m : Nat} (hpos : m ≠ 0) (hlt : m < 2 ^ 53) (e : ℤ) :
    ∃ k n, RoundedAt false (Real.sqrt (m * 2 ^ e)) (fSqrtFin m e) k n := by
  obtain ⟨k, hk⟩ : ∃ k : Nat, (if e % 2 = 0 then 120 else 121) = k := ⟨_, rfl⟩
  have hkval : k = 120 ∨ k = 121 := by split_ifs at hk <;> omega
  have heven : (e - k) % 2 = 0 := by split_ifs at hk <;> omega
  have hfin : fSqrtFin m e = fRound false (isqrt (m * 2 ^ k)) ((e - k) / 2)
      (decide (isqrt (m * 2 ^ k) * isqrt (m * 2 ^ k) ≠ m * 2 ^ k)) := by
    simp only [fSqrtFin, hk]
  rw [sqrt_scaled m heven, hfin]
  refine fRound_roundedAt false (.sqrt ?_ ?_ _)
  · rcases hkval with rfl | rfl <;> omega
  · rcases hkval with rfl | rfl <;> omega

/-- The root of a finite value is far below the overflow bound. -/
theorem sqrt_lt_overflowBound {n : Nat} (h : n < fInfMag) : Real.sqrt (magVal n) < (overflowBound : ℚ) := by
  have hv : magVal n < 2 ^ 53 * magUnit 2045 := by
    have hinf : magVal fInfMag = 2 ^ 53 * magUnit 2045 := by
      rw [show fInfMag = 2045 * 2 ^ 52 + 2 ^ 53 by decide, magVal_eq le_rfl (.inr (by decide)), Nat.cast_pow,
        Nat.cast_ofNat]
    exact hinf ▸ magVal_strictMono h
  have hunit : 1 ≤ magUnit 2045 := by
    calc (1 : ℝ) = magUnit 1074 := by norm_num [magUnit]
      _ ≤ magUnit 2045 := magUnit_le (by norm_num)
  have hsqrt := Real.sqrt_nonneg (magVal n)
  have hsq := Real.mul_self_sqrt (magVal_nonneg n)
  rw [overflowBound_eq]
  nlinarith [sq_nonneg (Real.sqrt (magVal n) - 1)]

/-! ### The root of a finite value -/

/-- A finite non-negative value is a zero, which is its own root, or is positive. -/
theorem fSqrt_cases {a : F64} (ha : fFinite a = true) (h0 : 0 ≤ fRat a) :
    (magVal (fMag a) = 0 ∧ fSqrt a = a) ∨
      (magMant (fMag a) ≠ 0 ∧ fSign a = false ∧
        fSqrt a = fSqrtFin (magMant (fMag a)) ((magExp (fMag a) : ℤ) - 1074)) := by
  rw [fSqrt, fUnpack_finite ha]
  by_cases hm : magMant (fMag a) = 0
  · exact .inl ⟨by rw [magVal, hm, Nat.cast_zero, zero_mul], by simp only [if_pos hm]⟩
  · have hpos : 0 < magVal (fMag a) := by
      have : 0 < magMant (fMag a) := Nat.pos_of_ne_zero hm
      unfold magVal
      positivity
    have hsign : fSign a = false := by
      have h0R : 0 ≤ ((fRat a : ℚ) : ℝ) := by exact_mod_cast h0
      rw [fRat_finite ha] at h0R
      cases hs : fSign a
      · rfl
      · rw [hs, signedVal, if_pos rfl] at h0R
        linarith
    refine .inr ⟨hm, hsign, ?_⟩
    simp [hm, hsign]

/-- Settles O36: the root of a zero is exact, and every other root is handed to `fRound` with what it leaves sticky. -/
theorem squareRootIsCorrectlyRounded : Obligations.SquareRootIsCorrectlyRounded := by
  intro a ha h0
  rcases fSqrt_cases ha h0 with ⟨hzero, e⟩ | ⟨hm, hsign, e⟩
  · have hval : ((fRat a : ℚ) : ℝ) = 0 := by
      rw [fRat_finite ha, hzero]
      cases fSign a <;> simp [signedVal]
    rw [e, hval, Real.sqrt_zero, sub_zero, abs_zero]
    exact ⟨ha, h0, fun z _ => abs_nonneg _⟩
  · have hval : ((fRat a : ℚ) : ℝ) = magVal (fMag a) := by rw [fRat_finite ha, hsign]; rfl
    obtain ⟨k, n, hr⟩ := fSqrtFin_roundedAt hm (mag_split _).2.1 ((magExp (fMag a) : ℤ) - 1074)
    have hu := sqrt_lt_overflowBound ((fFinite_iff a).1 ha)
    rw [← e] at hr
    obtain ⟨hfin, hroot⟩ := hr.finite hu
    have hnonneg : 0 ≤ ((fRat (fSqrt a) : ℚ) : ℝ) := by
      rw [hroot]
      exact mul_nonneg (Nat.cast_nonneg n) (magUnit_pos k).le
    refine ⟨hfin, by exact_mod_cast hnonneg, fun z hz => ?_⟩
    rw [hval]
    exact (hr.nearest_finite hu hz).1

end Sys2Proof.Machine
end

section
/-! PROOFS. What the bus does at a register, a reserved offset and a buffer element, and what each register holds (rules
R31 to R42, R84, R85, R88). -/

namespace Sys2Proof.Machine

/-! ### Accesses at an address of the map -/

/-- No register has the offset, so none stands there. -/
theorem Reg.at?_eq_none {n : Nat} (h : ∀ r : Reg, r.offset ≠ n) : Reg.at? n = none :=
  List.find?_eq_none.2 fun r _ => by simpa using h r

theorem placeOf_reserved {n : Nat} (hn : n < 0x800) (h8 : n % 8 = 0) (h : ∀ r : Reg, r.offset ≠ n) :
    placeOf (BitVec.ofNat 22 n) = .reserved := by
  have hnat : (BitVec.ofNat 22 n).toNat = n := by
    rw [BitVec.toNat_ofNat]
    exact Nat.mod_eq_of_lt (by omega)
  simp only [placeOf, hnat, Reg.at?_eq_none h]
  rw [if_neg (by omega), if_pos hn]

theorem perform_read_register (s : State) (r : Reg) :
    perform s (.read 64 (BitVec.ofNat 22 r.offset)) = .next { s with busData := s.readReg r } := by
  simp [perform, memRead, placeOf_register]

theorem perform_write_register (s : State) {r : Reg} (v : Word) (hr : r ≠ .cmd) :
    perform s (.write 64 (BitVec.ofNat 22 r.offset) v) = .next (s.advanceFree.writeReg v r) := by
  simp [perform, memWrite, placeOf_register, hr]

theorem perform_read_reserved (s : State) {a : Addr} (h : placeOf a = .reserved) :
    perform s (.read 64 a) = .next { s with busData := 0 } := by
  simp [perform, memRead, h]

theorem perform_write_reserved (s : State) {a : Addr} (v : Word) (h : placeOf a = .reserved) :
    perform s (.write 64 a v) = .next s.advanceFree := by
  simp [perform, memWrite, h]

theorem perform_read_element (s : State) {b : Buf} {i : Nat} (h : 8 * i < b.windowBytes) :
    perform s (.read 64 (BitVec.ofNat 22 (b.elemAddr i))) =
      .next { s with busData := s.readElem b i (BitVec.ofNat 22 (b.elemAddr i)) } := by
  simp [perform, memRead, placeOf_element b i h]

theorem perform_write_element (s : State) {b : Buf} {i : Nat} (v : Word) (h : 8 * i < b.windowBytes) :
    perform s (.write 64 (BitVec.ofNat 22 (b.elemAddr i)) v) = .next (s.advanceFree.writeElem b i v) := by
  simp [perform, memWrite, placeOf_element b i h]

/-! ### Register reads and writes -/

/-- The layout of rules R31 to R41 is `Reg.offset`'s. -/
theorem offset_of_mem_registerMap : ∀ nr ∈ registerMap, nr.2.offset = nr.1 := by decide

/-- The read-write registers: the configuration registers and the arguments (rules R36, R38). -/
def Reg.readWrite : List Reg :=
  [.cfgSampleRate, .cfgFirstFreq, .cfgRatio, .cfgIncrement, .cfgWordTime, .cfgPayloadLen, .cfgTrig, .cfgSnr,
    .cfgErasureRatio, .argFreq, .argAmplitude, .argOffset, .winLen, .payLen]

/-- The read-only registers: those a host write is ignored at (rules R31, R33, R37, R39, R41). -/
def Reg.readOnly : List Reg :=
  [.id, .status, .drvWindowLen, .drvParityLen, .drvCodewordLen, .drvFrameWindows, .drvNumSlots, .cfgErr, .drvWinMax,
    .resPower, .resRms, .resSymbol, .resDecode, .sesOffset, .sesTrigIndex, .sesAccCount, .sesCandOffset, .sesDecode,
    .sesLastSymbol]

/-- What every register reads after a write to a read-write one. -/
theorem readReg_writeReg (s : State) (v : Word) {r : Reg} (hr : r ∈ Reg.readWrite) (q : Reg) :
    (s.writeReg v r).readReg q = if q = r then v else s.readReg q := by
  unfold Reg.readWrite at hr
  fin_cases hr <;> cases q <;> rfl

/-- A read-write register lies in the configuration or the argument registers, and nothing else is written. -/
theorem writeReg_readWrite (s : State) (v : Word) {r : Reg} (hr : r ∈ Reg.readWrite) :
    s.writeReg v r = { s with cfg := (s.writeReg v r).cfg, arg := (s.writeReg v r).arg } := by
  unfold Reg.readWrite at hr
  fin_cases hr <;> rfl

theorem writeReg_readOnly (s : State) (v : Word) {r : Reg} (hr : r ∈ Reg.readOnly) : s.writeReg v r = s := by
  unfold Reg.readOnly at hr
  fin_cases hr <;> rfl

/-- Settles O8: the bus reads `readReg` and writes `writeReg` at a register's offset, and those agree on a read-write
register. -/
theorem readWriteRegistersHoldWhatIsWritten : Obligations.ReadWriteRegistersHoldWhatIsWritten := by
  refine ⟨fun r s => perform_read_register s r, fun nr hnr s => ?_, fun r hr s v => ?_⟩
  · rw [← offset_of_mem_registerMap nr hnr]
    exact perform_read_register s nr.2
  · have hr : r ∈ Reg.readWrite := hr
    have hcmd : r ≠ .cmd := by
      rintro rfl
      exact absurd hr (by decide)
    have hread := readReg_writeReg s.advanceFree v hr
    refine ⟨_, perform_write_register s v hcmd, by rw [hread, if_pos rfl], fun q hq => ?_,
      writeReg_readWrite s.advanceFree v hr⟩
    rw [hread, if_neg hq]
    rfl

/-! ### Flags -/

/-- Clearing the bits written 1: write-1-to-clear (rules R34, R35, R88). -/
theorem getLsbD_clear {n : Nat} (x : BitVec n) (v : Word) {k : Nat} (hk : k < n) :
    (x &&& ~~~ v.setWidth n).getLsbD k = (x.getLsbD k && !v.getLsbD k) := by
  simp [hk]

/-- Settles O9: `writeReg` at the flags bit by bit, at a read-only register nothing, and a reserved offset names no
register. -/
theorem flagAndReadOnlyRegisterWrites : Obligations.FlagAndReadOnlyRegisterWrites := by
  refine ⟨fun s v => ?_, fun s v => ?_, fun s v => ?_, fun r hr s v => ?_, fun n hn h8 hres s v => ?_⟩
  · exact ⟨_, perform_write_register s (r := .err) v (by decide), fun k hk => getLsbD_clear s.err v hk, rfl⟩
  · exact ⟨_, perform_write_register s (r := .irqPend) v (by decide), fun k hk => getLsbD_clear s.irqPend v hk, rfl⟩
  · refine ⟨_, perform_write_register s (r := .irqEn) v (by decide), fun k hk => ?_, rfl⟩
    show (v.setWidth 4).getLsbD k = v.getLsbD k
    simp [hk]
  · have hr : r ∈ Reg.readOnly := hr
    have hcmd : r ≠ .cmd := by
      rintro rfl
      exact absurd hr (by decide)
    rw [perform_write_register s v hcmd, writeReg_readOnly _ v hr]
    rfl
  · have hp := placeOf_reserved hn h8 hres
    exact ⟨perform_write_reserved s v hp, perform_read_reserved s hp⟩

end Sys2Proof.Machine
end

section
/-! PROOFS. What a buffer element holds and what it reads as (rules R43, R80, R84, R85, R364). -/

namespace Sys2Proof.Machine

/-! ### Element addresses in their windows -/

/-- Every element a buffer has lies in its window (rules R6, R43). -/
theorem elem_in_window {p : Params} {b : Buf} {i : Nat} (hp : p.inRange) (hi : i < b.capacity p) :
    8 * i < b.windowBytes := by
  have hmax : p.winMax ≤ 131072 := hp.2
  cases b <;> simp only [Buf.capacity, Buf.windowBytes, Config.numSlots, Config.bufBytes] at hi ⊢ <;> omega

/-! ### What an element reads as -/

section Reads

variable {s : State} {b : Buf} {i : Nat} (a : Addr)

theorem readElem_beyond (h : b.capacity s.params ≤ i) : s.readElem b i a = 0 := if_pos h

theorem readElem_freq (h : i < 32) : s.readElem .freq i a = if s.cfgValid = true then tableGet s.freq i 0 else 0 :=
  if_neg (Nat.not_le.2 h)

theorem readElem_perm (h : i < 255) : s.readElem .perm i a =
    if s.cfgValid = true ∧ i < s.drv.codewordLen.toNat then (tableGet s.perm i 0).setWidth 64 else 0 :=
  (if_neg (Nat.not_le.2 h)).trans (if_congr (by rw [Bool.and_eq_true, decide_eq_true_iff]; rfl) rfl rfl)

theorem readElem_rxpay (h : i < 255) : s.readElem .rxpay i a =
    if s.ses.payloadValid = true ∧ i < s.active.len.toNat then (tableGet s.rxpay i 0).setWidth 64 else 0 :=
  (if_neg (Nat.not_le.2 h)).trans (if_congr (by rw [Bool.and_eq_true, decide_eq_true_iff]; rfl) rfl rfl)

theorem readElem_words (hb : b.isWords) (h : i < b.capacity s.params) :
    s.readElem b i a = (s.sample b i).getD (Config.freeRead s.freeEpoch a) := by
  rcases hb with rfl | rfl <;> exact if_neg (Nat.not_le.2 h)

theorem readElem_byte (hb : b = .pay ∨ b = .cw) (h : i < b.capacity s.params) :
    s.readElem b i a = ((s.byteElem b i).map (·.setWidth 64)).getD (Config.freeRead s.freeEpoch a) := by
  rcases hb with rfl | rfl <;> exact if_neg (Nat.not_le.2 h)

theorem readElem_eras (h : i < 255) : s.readElem .eras i a =
    ((s.erasElem i).map fun e => if e = true then 1 else 0).getD (Config.freeRead s.freeEpoch a) := by
  have hword : (fun e => if e = true then (1 : Word) else 0) = fun e => (BitVec.ofBool e).setWidth 64 := by
    funext e
    cases e <;> rfl
  rw [hword]
  exact if_neg (Nat.not_le.2 h)

/-- An element nothing has written reads the free value of its address (rule R364; log entry 6). -/
theorem readElem_unwritten (h : i < b.capacity s.params) (hw : s.written b i = false) :
    s.readElem b i a = Config.freeRead s.freeEpoch a := by
  cases b with
  | freq | perm | rxpay => exact absurd hw.symm Bool.false_ne_true
  | pay | cw =>
    rw [readElem_byte a (by simp) h, Option.isNone_iff_eq_none.1 (Option.isSome_eq_false_iff.1 hw)]
    rfl
  | eras =>
    rw [readElem_eras a h, Option.isNone_iff_eq_none.1 (Option.isSome_eq_false_iff.1 hw)]
    rfl
  | win | obuf =>
    rw [readElem_words a (by simp [Buf.isWords]) h, Option.isNone_iff_eq_none.1 (Option.isSome_eq_false_iff.1 hw)]
    rfl

end Reads

/-- Settles O11: the bus reads `readElem`, and that is the table's entry, the element's word, byte or bit, or the free
value. -/
theorem bufferReadValues : Obligations.BufferReadValues := by
  refine ⟨rfl, fun s i => ⟨?beyond, ?freq, ?perm, ?rxpay, ?words, ?byte, ?eras, ?unwritten⟩⟩
  case beyond =>
    intro b hw hi
    rw [perform_read_element s hw, readElem_beyond _ hi]
  case freq =>
    intro hi
    rw [perform_read_element s (show 8 * i < 0x800 by omega), readElem_freq _ hi]
  case perm =>
    intro hi
    rw [perform_read_element s (show 8 * i < 0x800 by omega), readElem_perm _ hi]
  case rxpay =>
    intro hi
    rw [perform_read_element s (show 8 * i < 0x800 by omega), readElem_rxpay _ hi]
  case words =>
    intro b hb hw hi v hv
    rw [perform_read_element s hw, readElem_words _ hb hi, hv, Option.getD_some]
  case byte =>
    intro b hb hi v hv
    have hw : 8 * i < b.windowBytes := by
      rcases hb with rfl | rfl <;> exact (show 8 * i < 0x800 by omega)
    have hcap : i < b.capacity s.params := by rcases hb with rfl | rfl <;> exact hi
    rw [perform_read_element s hw, readElem_byte _ hb hcap, hv, Option.map_some, Option.getD_some]
  case eras =>
    intro hi e he
    rw [perform_read_element s (show 8 * i < 0x800 by omega), readElem_eras _ hi, he, Option.map_some, Option.getD_some]
  case unwritten =>
    intro b hw hi hun
    rw [perform_read_element s hw, readElem_unwritten _ hi hun]

/-! ### What a write to an element does -/

/-- The byte a host write stores in an element of a byte buffer: bits 7:0, and of them bit 0 only in ERAS (rule R43). -/
def storedByte (b : Buf) (v : Word) : Byte := if b = .eras then erasByte (v.getLsbD 0) else v.setWidth 8

/-- How many bytes a writable element stores: a word of WIN, a byte of PAY, CW and ERAS (rule R43). -/
def Buf.elemBytes (b : Buf) : Nat := if b = .win then 8 else 1

/-- Keeping bits 7:0 of a word is masking it. -/
theorem setWidth_byte_word (v : Word) : (v.setWidth 8).setWidth 64 = v &&& 0xFF#64 := by
  apply BitVec.eq_of_toNat_eq
  rw [BitVec.toNat_setWidth_of_le (by omega), BitVec.toNat_setWidth, BitVec.toNat_and]
  exact (Nat.and_two_pow_sub_one_eq_mod v.toNat 8).symm

/-- Keeping bit 0 of a word is masking it. -/
theorem bit_word (v : Word) : (if v.getLsbD 0 = true then 1 else 0) = v &&& 0x1#64 := by
  rw [BitVec.and_one_eq_setWidth_ofBool_getLsbD]
  cases v.getLsbD 0 <;> rfl

section Writes

variable (s : State) {b : Buf} {i : Nat} (v : Word)

theorem writeElem_win (h : i < s.params.winMax) :
    s.writeElem .win i v = { s with mem := s.mem.writeWord (Buf.elemAddr .win i) v } := if_neg (Nat.not_le.2 h)

theorem writeElem_bytes (hb : b.isBytes) (h : i < b.capacity s.params) :
    s.writeElem b i v = { s with mem := s.mem.write (b.elemAddr i) (storedByte b v) } := by
  rcases hb with rfl | rfl | rfl <;> exact if_neg (Nat.not_le.2 h)

/-- A write beyond the capacity or to a buffer the host cannot write is ignored (rule R43). -/
theorem writeElem_ignored (h : b.capacity s.params ≤ i ∨ b = .freq ∨ b = .perm ∨ b = .rxpay ∨ b = .obuf) :
    s.writeElem b i v = s := by
  rcases h with h | rfl | rfl | rfl | rfl
  · exact if_pos h
  all_goals exact ite_self s

/-- An element write changes the memory only, and there only the element's stored bytes. -/
theorem writeElem_frame (hb : b = .win ∨ b.isBytes) (h : i < b.capacity s.params) :
    s.writeElem b i v = { s with mem := (s.writeElem b i v).mem } ∧
      ∀ a, ¬ (b.elemAddr i ≤ a ∧ a < b.elemAddr i + b.elemBytes) → (s.writeElem b i v).mem.read a = s.mem.read a := by
  rcases hb with rfl | hb
  · rw [writeElem_win s v h]
    refine ⟨rfl, fun a ha => ?_⟩
    rw [Memory.read_writeWord]
    exact if_neg ha
  · have hone : b.elemBytes = 1 := by rcases hb with rfl | rfl | rfl <;> rfl
    rw [writeElem_bytes s v hb h, hone]
    exact ⟨rfl, fun a ha => Memory.read_write_ne _ _ _ _ (by omega)⟩

theorem sample_writeElem (h : i < s.params.winMax) : (s.writeElem .win i v).sample .win i = some v := by
  rw [writeElem_win s v h]
  exact Memory.readWord_writeWord_same _ _ _

theorem byteElem_writeElem (hb : b.isBytes) (h : i < b.capacity s.params) :
    (s.writeElem b i v).byteElem b i = some (storedByte b v) := by
  rw [writeElem_bytes s v hb h]
  exact Memory.read_write_same _ _ _

/-- An element just written reads the bits of the word that its buffer keeps (rules R43, R85). -/
theorem readElem_writeElem (hb : b = .win ∨ b.isBytes) (h : i < b.capacity s.params) (a : Addr) :
    (s.writeElem b i v).readElem b i a =
      if b = .win then v else if b = .eras then v &&& 0x1#64 else v &&& 0xFF#64 := by
  have hcap : i < b.capacity (s.writeElem b i v).params := by rwa [(writeElem_same s b i v).1.params]
  rcases hb with rfl | hb
  · rw [readElem_words a (.inl rfl) hcap, sample_writeElem s v h]
    rfl
  · have hbyte := byteElem_writeElem s v hb h
    rcases hb with rfl | rfl | rfl
    · rw [readElem_byte a (.inl rfl) hcap, hbyte]
      exact setWidth_byte_word v
    · rw [readElem_byte a (.inr rfl) hcap, hbyte]
      exact setWidth_byte_word v
    · have hbit : (storedByte .eras v).getLsbD 0 = v.getLsbD 0 := erasByte_bit _
      rw [readElem_eras a h, State.erasElem, hbyte, Option.map_some, hbit]
      exact bit_word v

end Writes

/-- Settles O10: a write of an element stores the bits the buffer keeps, and a read then returns them. -/
theorem bufferElementsHoldWhatIsWritten : Obligations.BufferElementsHoldWhatIsWritten := by
  refine ⟨fun s b i v hp hi hb => ?_, fun s b i v hw h => ?_⟩
  · have hw := elem_in_window hp hi
    obtain ⟨hstate, hmem⟩ := writeElem_frame s.advanceFree v hb hi
    refine ⟨_, perform_write_element s v hw, ?_, hstate, hmem⟩
    rw [perform_read_element _ hw, readElem_writeElem s.advanceFree v hb hi]
  · rw [perform_write_element s v hw, writeElem_ignored s.advanceFree v h]
    rfl

end Sys2Proof.Machine
end

section
/-! PROOFS. The STATUS word field by field, and what commands do to the sticky flags (rules R33 to R35, R330, R340,
R341). -/

namespace Sys2Proof.Machine

/-! ### The STATUS word -/

/-- The fields of more than a bit, each above the fields of fewer bits (rule R33). -/
theorem statusWord_fields (s : State) :
    s.statusWord.extractLsb' 0 4 = s.result.code ∧ s.statusWord.extractLsb' 4 2 = s.ses.feedStatus.code ∧
      s.statusWord.extractLsb' 6 2 = s.ses.engine.code ∧ s.statusWord.extractLsb' 8 1 = s.ses.trigSub.code ∧
      s.statusWord.extractLsb' 14 50 = 0 := by
  refine ⟨BitVec.extractLsb'_append_eq_right, ?feed, ?engine, ?sub, ?upper⟩
  case feed =>
    exact (BitVec.extractLsb'_append_eq_of_le (by decide)).trans BitVec.extractLsb'_append_eq_right
  case engine =>
    iterate 2 refine (BitVec.extractLsb'_append_eq_of_le (by decide)).trans ?_
    exact BitVec.extractLsb'_append_eq_right
  case sub =>
    iterate 3 refine (BitVec.extractLsb'_append_eq_of_le (by decide)).trans ?_
    exact BitVec.extractLsb'_append_eq_right
  case upper =>
    iterate 9 refine (BitVec.extractLsb'_append_eq_of_le (by decide)).trans ?_
    exact BitVec.extractLsb'_zero

/-- The fields of one bit (rule R33). -/
theorem statusWord_bits (s : State) :
    s.statusWord.getLsbD 9 = s.cfgValid ∧ s.statusWord.getLsbD 10 = s.ses.payloadValid ∧
      s.statusWord.getLsbD 11 = s.ses.trigValid ∧ s.statusWord.getLsbD 12 = false ∧
      s.statusWord.getLsbD 13 = s.irq := by
  simp only [State.statusWord, BitVec.getLsbD_append]
  simp

/-- The irq output is high exactly when some bit is both pending and enabled (rule R341). -/
theorem irq_iff (s : State) :
    s.irq = true ↔ ∃ k, k < 4 ∧ s.irqPend.getLsbD k = true ∧ s.irqEn.getLsbD k = true := by
  have hzero : s.irq = true ↔ s.irqPend &&& s.irqEn ≠ 0 := bne_iff_ne
  rw [hzero, ne_eq, BitVec.eq_of_getLsbD_eq_iff]
  simp

/-- Settles O12: STATUS is its fields side by side, and each field's code is the encoding the rules give. -/
theorem statusWordFields : Obligations.StatusWordFields := by
  intro s
  obtain ⟨hresult, hfeed, hengine, hsub, hrest⟩ := statusWord_fields s
  obtain ⟨hcfg, hpayload, htrig, hbusy, hirq⟩ := statusWord_bits s
  refine ⟨hresult.trans ?_, hfeed.trans ?_, hengine.trans ?_, hsub.trans ?_, hcfg, hpayload, htrig, hbusy, hirq, hrest,
    irq_iff s⟩
  · rcases s.result with _ | c | _
    · rfl
    · cases c <;> rfl
    · rfl
  · cases s.ses.feedStatus <;> rfl
  · cases s.ses.engine <;> rfl
  · cases s.ses.trigSub <;> rfl

/-! ### What a command does to the flags -/

/-- The IRQ_PEND bits a command can set: none, or one of COMPLETE, FAILED, TRIGGER and ERROR (rule R340). -/
def irqBits : List (BitVec 4) := [0b0000, irqComplete, irqFailed, irqTrigger, irqError]

/-- From `s` to `t` no ERR bit is cleared, IRQ_EN is kept, and at most one IRQ_PEND bit is set. -/
def FlagsKept (s t : State) : Prop :=
  s.err &&& t.err = s.err ∧ t.irqEn = s.irqEn ∧ ∃ bit ∈ irqBits, t.irqPend = s.irqPend ||| bit

/-- An answer that is a next state keeps the flags. -/
def KeepsFlags (s : State) (a : Answer) : Prop := ∀ t, a = .next t → FlagsKept s t

theorem KeepsFlags.next {s t : State} (h : FlagsKept s t) : KeepsFlags s (.next t) := by
  rintro _ ⟨⟩
  exact h

theorem KeepsFlags.fault (s : State) (r : Fault) : KeepsFlags s (.fault r) := by
  rintro _ ⟨⟩

/-- One IRQ_PEND bit set, the other flags as they were. -/
theorem FlagsKept.pend {s t : State} {bit : BitVec 4} (hbit : bit ∈ irqBits) (hp : t.irqPend = s.irqPend ||| bit)
    (herr : t.err = s.err := by rfl) (hen : t.irqEn = s.irqEn := by rfl) : FlagsKept s t :=
  ⟨by rw [herr, BitVec.and_self], hen, bit, hbit, hp⟩

/-- The flags as they were; `.same` proves it of a `t` that is an update of other fields. -/
theorem FlagsKept.same {s t : State} (hp : t.irqPend = s.irqPend := by rfl) (herr : t.err = s.err := by rfl)
    (hen : t.irqEn = s.irqEn := by rfl) : FlagsKept s t :=
  .pend (bit := 0) (by decide) (hp.trans BitVec.or_zero.symm) herr hen

/-- A raise sets an ERR bit and IRQ_PEND.ERROR (rule R333). -/
theorem FlagsKept.raise (s : State) (c : ErrCode) : FlagsKept s (s.raise c) := by
  refine ⟨?_, rfl, irqError, by decide, rfl⟩
  rw [State.raise_err]
  apply BitVec.eq_of_getLsbD_eq
  intro k _
  rw [BitVec.getLsbD_and, BitVec.getLsbD_or]
  cases s.err.getLsbD k <;> rfl

/-- A check for a configuration raises, or goes on (rule R331). -/
theorem KeepsFlags.requireCfg {s : State} {k : Answer} (h : KeepsFlags s k) : KeepsFlags s (s.requireCfg k) := by
  rcases requireCfg_cases s k with ⟨-, e⟩ | ⟨-, e⟩ <;> rw [e]
  · exact h
  · exact .next (.raise s _)

/-- A check raises, or goes on (rule R331). -/
theorem KeepsFlags.check {s : State} {c : ErrCode} {p : Prop} [Decidable p] {k : Answer} (h : KeepsFlags s k) :
    KeepsFlags s (if p then .next (s.raise c) else k) := by
  split
  · exact .next (.raise s c)
  · exact h

/-- Reading operands faults, or goes on with their values (rule R364). -/
theorem KeepsFlags.withElems {s : State} {α : Type} {b : Buf} {f : Nat → Option α} {n : Nat} {k : List α → Answer}
    (h : ∀ xs, KeepsFlags s (k xs)) : KeepsFlags s (withElems b f n k) := by
  unfold Machine.withElems
  split
  · exact .fault s _
  · exact h _

/-! ### FEED -/

theorem flagsKept_feedIdle (ma mb : Bool) (start : Word) (s : State) : FlagsKept s (feedIdle ma mb start s) := by
  unfold feedIdle
  split
  · exact .same
  · exact .pend (bit := irqTrigger) (by decide) rfl

theorem flagsKept_feedBody (y : Symbol) (s : State) : FlagsKept s (feedBody y s) := by
  rcases feedBody_cases y s with ⟨-, e⟩ | ⟨-, e⟩ <;> rw [e]
  · exact .same
  · cases feedDecode (feedAccumulate y s) with
    | success m e n => exact .pend (bit := irqComplete) (by decide) rfl
    | failure n => exact .pend (bit := irqFailed) (by decide) rfl

theorem flagsKept_feedWindow (f : Bool) (x : List F64) (s : State) : FlagsKept s (feedWindow f x s) := by
  obtain ⟨start, e⟩ := feedWindow_eq f x s
  have hcore : FlagsKept s (feedCore x start s) := by
    unfold feedCore
    split
    · exact flagsKept_feedBody _ { s with ses := s.ses.consumed }
    · exact flagsKept_feedIdle _ _ _ { s with ses := s.ses.consumed }
  rw [e]
  exact hcore

/-! ### The commands -/

theorem flagsKept_rsdecFinish (s : State) (res : RsResult) : FlagsKept s (rsdecFinish s res) := by
  cases res <;> exact .same

/-- The failure path's writes are no flags, and then it raises (rule R142). -/
theorem flagsKept_configFail (s : State) (code : Byte) : FlagsKept s (s.configFail code) :=
  FlagsKept.raise (State.sessionReset { s with cfgValid := false, drv := DrvRegs.zero, cfgErr := code }) .config

theorem keepsFlags_synth (k : Nat) (s : State) : KeepsFlags s (exec (.synth k) s) := by
  refine .requireCfg (.check (.check (.check ?_)))
  split
  · exact .next .same
  · split
    · exact .next .same
    · exact .withElems fun _ => .next .same

/-- Every command keeps the flags: its checks raise, and of its effects only FEED's sets a bit. -/
theorem keepsFlags_exec (s : State) : ∀ i, KeepsFlags s (exec i s)
  | .nop => .next .same
  | .config => by
    rcases exec_config_cases s with ⟨-, e⟩ | ⟨-, e⟩ <;> rw [e]
    · exact .next (flagsKept_configFail s _)
    · exact .next .same
  | .sreset => .next .same
  | .feed f => .requireCfg (.check (.withElems fun x => .next (flagsKept_feedWindow f x s)))
  | .synth k => keepsFlags_synth k s
  | .rsenc => .requireCfg (.check (.withElems fun _ => .next .same))
  | .rsdec => .requireCfg (.withElems fun _ => .withElems fun _ => .next (flagsKept_rsdecFinish s _))
  | .ilv => .requireCfg (.withElems fun _ => .withElems fun _ => .next .same)
  | .dilv => .requireCfg (.withElems fun _ => .withElems fun _ => .next .same)
  | .gpwr => .requireCfg (.check (.check (.withElems fun _ => .next .same)))
  | .gpwrs _ => .requireCfg (.check (.check (.withElems fun _ => .next .same)))
  | .rms => .check (.withElems fun _ => .next .same)
  | .detect => .requireCfg (.check (.withElems fun _ => .next .same))
  | .map _ => .check (.next .same)

/-- Settles O13: every command keeps the flags. -/
theorem commandsNeverClearFlags : Obligations.CommandsNeverClearFlags :=
  fun i s t h => keepsFlags_exec s i t h

end Sys2Proof.Machine
end

section
/-! PROOFS. A step performs the pending access that stands first, and a write to CMD performs its command (rules R32, R80,
R82, R110, R347). -/

namespace Sys2Proof.Machine

/-! ### The pending queue -/

theorem step_idle {s : State} (h : s.hostQueue = []) : step s = .next s := by
  rw [step, h]

theorem step_pending {s : State} {access : HostAccess} {rest : List HostAccess} (h : s.hostQueue = access :: rest) :
    step s = performHost { s with hostQueue := rest } access := by
  rw [step, h]

/-- An access that does not reach the block changes nothing (log entry 11). -/
theorem performHost_outside {s : State} {access : HostAccess} (h : access.toBus s.params = none) :
    performHost s access = .next s := by
  rw [performHost, h]

/-! ### Command words -/

theorem execute_legal (s : State) {v : Word} {i : Instr} (h : decode v = .ok i) : execute s v = exec i s := by
  rw [execute, h]

theorem execute_illegal (s : State) {v : Word} {r : IllegalWord} (h : decode v = .error r) :
    execute s v = .next (s.raise .illegal) := by
  rw [execute, h]

/-- The state a command issued from `s` runs in: its access off the queue, CMD holding its word, and the counter of free
values moved on (rule R32; log entries 1, 6). -/
def State.issued (s : State) (v : Word) (rest : List HostAccess) : State :=
  { s with hostQueue := rest, cmd := v, freeEpoch := s.freeEpoch + 1 }

/-- A step on a command word executes it. -/
theorem step_issue {s : State} {v : Word} {rest : List HostAccess} (h : s.hostQueue = issueAt s.params v :: rest) :
    step s = execute (s.issued v rest) v := by
  have hissue : performHost { s with hostQueue := rest } (issueAt s.params v) =
      perform { s with hostQueue := rest } (issue v) := performHost_issueAt { s with hostQueue := rest } v
  rw [step_pending h, hissue, perform_issue]
  rfl

theorem tableWord_full (w : Nat) : tableWord 64 w = BitVec.ofNat 64 w := by
  apply BitVec.eq_of_toNat_eq
  rw [tableWord, BitVec.toNat_ofNat, BitVec.toNat_ofNat, Nat.mod_mod]

/-- The word of a table entry of 64 bits decodes to the entry's command. -/
theorem decode_of_decodeTableWord {w : Nat} {i : Instr} (h : decodeTableWord 64 w = some i) :
    decode (BitVec.ofNat 64 w) = .ok i := by
  rw [decodeTableWord, decodeBytes_bytesOfWord, tableWord_full] at h
  cases hd : decode (BitVec.ofNat 64 w) with
  | ok j => simpa [hd] using h
  | error r => simp [hd] at h

/-- Settles O6: a step performs the first pending access at its offset, and a write to CMD executes its word. -/
theorem stepRunsTheIssuedCommand : Obligations.StepRunsTheIssuedCommand := by
  refine ⟨fun s v rest hq => ⟨fun i hi => ?_, fun r hr => ?_⟩, fun s w i hi => ?_,
    fun s rest w a v => ⟨fun hq => ?_, fun hq => ?_, fun hq => ?_⟩, fun s rest w n v hn hq => ?_, fun s => step_idle⟩
  · rw [step_issue hq, execute_legal _ hi]
    rfl
  · rw [step_issue hq, execute_illegal _ hr]
    rfl
  · have hq : (s.withFetchWord 64 w).hostQueue = issueAt s.params (BitVec.ofNat 64 w) :: s.hostQueue := by
      rw [State.withFetchWord, tableWord_full]
    rw [step_issue hq, execute_legal _ (decode_of_decodeTableWord hi)]
    rfl
  · rw [step_pending hq]
    exact performHost_read { s with hostQueue := rest } w a
  · rw [step_pending hq]
    exact performHost_write { s with hostQueue := rest } w a v
  · rw [step_pending hq, performHost_reset]
  · have hout : Params.offsetOf? s.params n = none := offsetOf?_outside hn
    rcases hq with hq | hq <;> rw [step_pending hq]
    · exact performHost_outside (by rw [HostAccess.toBus, hout, Option.map_none])
    · exact performHost_outside (by rw [HostAccess.toBus, hout, Option.map_none])

end Sys2Proof.Machine
end

section
/-! PROOFS. Which accesses are bus errors, what a bus error does, and that no other access sets a flag (rules R42, R43,
R80, R84 to R86, R335). -/

namespace Sys2Proof.Machine

/-! ### The addresses that name nothing -/

/-- Past the register block the unmapped ranges are those no buffer's window holds (rule R80). -/
theorem find_holds_eq_none_iff {n : Nat} (hn : 0x800 ≤ n) :
    Buf.all.find? (·.holds n) = none ↔ (0x003800 ≤ n ∧ n ≤ 0x0FFFFF) ∨ 0x300000 ≤ n := by
  simp only [List.find?_eq_none, Buf.holds_iff, Buf.all, List.forall_mem_cons, Buf.base, Buf.windowBytes]
  constructor
  · intro h
    omega
  · intro h
    refine ⟨?_, ?_, ?_, ?_, ?_, ?_, ?_, ?_, fun b hb => absurd hb List.not_mem_nil⟩ <;> omega

/-- The bus error addresses are the misaligned and the unmapped ones (rule R86). -/
theorem placeOf_eq_busError_iff (a : Addr) :
    placeOf a = .busError ↔
      a.toNat % 8 ≠ 0 ∨ (0x003800 ≤ a.toNat ∧ a.toNat ≤ 0x0FFFFF) ∨ 0x300000 ≤ a.toNat := by
  by_cases h8 : a.toNat % 8 ≠ 0
  · simp [placeOf, h8]
  by_cases hreg : a.toNat < 0x800
  · have hmapped : ¬ (a.toNat % 8 ≠ 0 ∨ (0x003800 ≤ a.toNat ∧ a.toNat ≤ 0x0FFFFF) ∨ 0x300000 ≤ a.toNat) := by
      omega
    simp only [placeOf, if_neg h8, if_pos hreg, iff_false_right hmapped]
    cases Reg.at? a.toNat <;> simp
  · simp only [placeOf, if_neg h8, if_neg hreg, or_iff_right h8, ← find_holds_eq_none_iff (Nat.not_lt.1 hreg)]
    cases Buf.all.find? (·.holds a.toNat) <;> simp

/-- An address that names a register is its offset. -/
theorem toNat_of_placeOf_register {a : Addr} {r : Reg} (h : placeOf a = .register r) : a.toNat = r.offset := by
  simp only [placeOf] at h
  split at h
  · cases h
  split at h
  · cases hat : Reg.at? a.toNat with
    | none => simp [hat] at h
    | some q =>
      obtain rfl : q = r := by simpa [hat] using h
      exact (Reg.offset_of_at? hat).symm
  · split at h <;> cases h

theorem eq_cmdAddr_of_placeOf {a : Addr} (h : placeOf a = .register .cmd) : a = cmdAddr :=
  BitVec.eq_of_toNat_eq (toNat_of_placeOf_register h)

/-! ### Bus errors, and reads that are none -/

section BusError

variable (s : State) {w : Nat} {a : Addr} (h : w ≠ 64 ∨ placeOf a = .busError)
include h

theorem perform_read_busError : perform s (.read w a) = .next { s.busError with busData := 0 } := by
  by_cases hw : w = 64
  · simp [perform, memRead, h.resolve_left (not_not.2 hw)]
  · simp [perform, memRead, hw]

theorem perform_write_busError (v : Word) : perform s (.write w a v) = .next s.busError := by
  by_cases hw : w = 64
  · simp [perform, memWrite, h.resolve_left (not_not.2 hw)]
  · simp [perform, memWrite, hw]

end BusError

/-- A read that is no bus error changes no state but the data returned (rule R84). -/
theorem perform_read_ok (s : State) {a : Addr} (h : placeOf a ≠ .busError) :
    ∃ d, perform s (.read 64 a) = .next { s with busData := d } := by
  cases hp : placeOf a with
  | busError => exact absurd hp h
  | reserved => exact ⟨0, perform_read_reserved s hp⟩
  | register r => exact ⟨s.readReg r, by simp [perform, memRead, hp]⟩
  | element b i => exact ⟨s.readElem b i a, by simp [perform, memRead, hp]⟩

/-! ### Writes that set no flag -/

/-- From `s` to `t` no ERR bit and no IRQ_PEND bit is set, and RESULT is kept. -/
structure SetsNoFlag (s t : State) : Prop where
  err : t.err ||| s.err = s.err := by exact BitVec.or_self
  irqPend : t.irqPend ||| s.irqPend = s.irqPend := by exact BitVec.or_self
  result : t.result = s.result := by rfl

/-- Clearing bits of a flag register sets none. -/
theorem clear_or_self {n : Nat} (x m : BitVec n) : (x &&& m) ||| x = x := by
  apply BitVec.eq_of_getLsbD_eq
  intro k _
  rw [BitVec.getLsbD_or, BitVec.getLsbD_and]
  cases x.getLsbD k <;> simp

/-- A register write clears flags and sets none, ERR's and IRQ_PEND's own writes included (rules R34, R35, R88). -/
theorem setsNoFlag_writeReg (s : State) (v : Word) (r : Reg) : SetsNoFlag s (s.writeReg v r) := by
  cases r with
  | err => exact { err := clear_or_self _ _ }
  | irqPend => exact { irqPend := clear_or_self _ _ }
  | _ => exact {}

theorem setsNoFlag_writeElem (s : State) (b : Buf) (i : Nat) (v : Word) : SetsNoFlag s (s.writeElem b i v) := by
  unfold State.writeElem
  split
  · exact {}
  · cases b <;> exact {}

/-- The counter of free values is no flag (log entry 6). -/
theorem SetsNoFlag.of_advanceFree {s t : State} (h : SetsNoFlag s.advanceFree t) : SetsNoFlag s t :=
  ⟨h.err, h.irqPend, h.result⟩

/-- A write that is neither a bus error nor a write to CMD sets no flag (rule R85). -/
theorem setsNoFlag_perform_write {s t : State} {a : Addr} {v : Word} (hbus : placeOf a ≠ .busError)
    (hcmd : a ≠ cmdAddr) (ht : perform s (.write 64 a v) = .next t) : SetsNoFlag s t := by
  have ht : memWrite s 64 a v = .next t := ht
  rcases memWrite_cases s 64 a v with
    ⟨hw | hp, -⟩ | ⟨-, -, e⟩ | ⟨-, hp, -⟩ | ⟨r, -, -, -, e⟩ | ⟨b, i, -, -, e⟩
  · exact absurd rfl hw
  · exact absurd hp hbus
  · obtain rfl := Host.Outcome.next.inj (e.symm.trans ht)
    exact {}
  · exact absurd (eq_cmdAddr_of_placeOf hp) hcmd
  · obtain rfl := Host.Outcome.next.inj (e.symm.trans ht)
    exact (setsNoFlag_writeReg s.advanceFree v r).of_advanceFree
  · obtain rfl := Host.Outcome.next.inj (e.symm.trans ht)
    exact (setsNoFlag_writeElem s.advanceFree b i v).of_advanceFree

/-- Settles O7: the erroneous accesses are those of another width and those at an address that names nothing; every
other access is to a place of the map, and there only CMD can set a flag. -/
theorem busErrorsReportAndDoNothingElse : Obligations.BusErrorsReportAndDoNothingElse := by
  intro s w a v
  rw [← placeOf_eq_busError_iff a]
  refine ⟨fun h => ⟨perform_read_busError s h, perform_write_busError s h v⟩, fun h => ?_⟩
  obtain ⟨hw, hbus⟩ := not_or.1 h
  obtain rfl : w = 64 := not_not.1 hw
  refine ⟨perform_read_ok s hbus, fun t hcmd ht => ?_⟩
  obtain ⟨herr, hpend, hres⟩ := setsNoFlag_perform_write hbus hcmd ht
  exact ⟨herr, hpend, hres⟩

end Sys2Proof.Machine
end

section
/-! PROOFS. The opcode map (rules R110 to R114, R117): each row builds, for a word it selects, the command that
encodes to the word, and no word selects two rows; so the decoder inverts the encoder, and the legal words are the
encodings of the well-formed commands. -/

namespace Sys2Proof

/-! ### A word and its fields (rule R111) -/

theorem immFits_fieldImm (v : Word) : immFits (fieldImm v) := Nat.le_of_lt_succ (BitVec.isLt _)

/-- A word is a command word when it has the command word's fields. -/
theorem eq_commandWord_iff {v : Word} {op : BitVec 8} {f : Bool} {n : Nat} (h : immFits n) :
    v = commandWord op f n ↔
      fieldOp v = op ∧ fieldF v = f ∧ fieldImm v = n ∧ fieldRsv0 v = 0 ∧ fieldRsvh v = 0 := by
  have hfields := Laws.Fields.of_commandWord op f n h
  constructor
  · rintro rfl
    exact hfields
  · rintro ⟨hop, hf, himm, hrsv0, hrsvh⟩
    obtain ⟨hop', hf', himm', hrsv0', hrsvh'⟩ := hfields
    exact word_eq_of_fields (hop.trans hop'.symm) (hf.trans hf'.symm) (hrsv0.trans hrsv0'.symm)
      (himm.trans himm'.symm) (hrsvh.trans hrsvh'.symm)

theorem fieldOp_and (v m : Word) : fieldOp (v &&& m) = fieldOp v &&& fieldOp m := BitVec.extractLsb'_and

theorem fieldF_and (v m : Word) : fieldF (v &&& m) = (fieldF v && fieldF m) := BitVec.getLsbD_and

theorem fieldRsv0_and (v m : Word) : fieldRsv0 (v &&& m) = fieldRsv0 v &&& fieldRsv0 m := BitVec.extractLsb'_and

theorem fieldRsvh_and (v m : Word) : fieldRsvh (v &&& m) = fieldRsvh v &&& fieldRsvh m := BitVec.extractLsb'_and

theorem fieldImm_and (v m : Word) : fieldImm (v &&& m) = fieldImm v &&& fieldImm m := by
  simp only [fieldImm, BitVec.extractLsb'_and, BitVec.toNat_and]

/-! ### The three kinds of row (rule R113) -/

/-- The mask of a row without operands keeps every bit. -/
def fixedMask : Word := 0xFFFFFFFFFFFFFFFF#64

/-- The mask of a row with an immediate keeps every bit but IMM's. -/
def immMask : Word := 0xFFFFFFFF0000FFFF#64

/-- The mask of FEED keeps every bit but F. -/
def modeMask : Word := 0xFFFFFFFFFFFFFEFF#64

/-- What a mask that keeps OP and the reserved fields asks of a word's fields. -/
theorem and_eq_commandWord_iff {v m : Word} {op : BitVec 8} {f : Bool} {n : Nat} (h : immFits n)
    (hop : fieldOp m = BitVec.allOnes 8) (hrsv0 : fieldRsv0 m = BitVec.allOnes 7)
    (hrsvh : fieldRsvh m = BitVec.allOnes 32) :
    v &&& m = commandWord op f n ↔
      fieldOp v = op ∧ (fieldF v && fieldF m) = f ∧ fieldImm v &&& fieldImm m = n ∧ fieldRsv0 v = 0 ∧
        fieldRsvh v = 0 := by
  rw [eq_commandWord_iff h, fieldOp_and, fieldF_and, fieldImm_and, fieldRsv0_and, fieldRsvh_and, hop, hrsv0, hrsvh,
    BitVec.and_allOnes, BitVec.and_allOnes, BitVec.and_allOnes]

/-- A word under the mask of a row with an immediate is the row's match when it is the row's word for its own IMM. -/
theorem and_immMask_eq_iff {v : Word} {op : BitVec 8} {f : Bool} :
    v &&& immMask = commandWord op f 0 ↔ v = commandWord op f (fieldImm v) := by
  have hf : fieldF immMask = true := by decide
  have himm : fieldImm immMask = 0 := by decide
  rw [and_eq_commandWord_iff (Nat.zero_le _) (by decide) (by decide) (by decide),
    eq_commandWord_iff (immFits_fieldImm v), hf, himm, Bool.and_true, Nat.and_zero]
  simp only [true_and]

/-- A word under FEED's mask is FEED's match when it is FEED's word for its own F. -/
theorem and_modeMask_eq_iff {v : Word} {op : BitVec 8} :
    v &&& modeMask = commandWord op false 0 ↔ v = commandWord op (fieldF v) 0 := by
  have hf : fieldF modeMask = false := by decide
  have himm : fieldImm v &&& fieldImm modeMask = fieldImm v :=
    (Nat.and_two_pow_sub_one_eq_mod _ 16).trans (Nat.mod_eq_of_lt (BitVec.isLt _))
  rw [and_eq_commandWord_iff (Nat.zero_le _) (by decide) (by decide) (by decide), eq_commandWord_iff (Nat.zero_le _),
    hf, himm, Bool.and_false]
  simp only [true_and]

/-- The row builds, for each word it selects, a well-formed command that encodes to the word. -/
def OpRow.Encodes (r : OpRow) : Prop :=
  ∀ v : Word, r.selects v = true → (r.build v).wellFormed = true ∧ encode (r.build v) = v

theorem OpRow.selects_iff (r : OpRow) (v : Word) : r.selects v = true ↔ v &&& r.mask = r.pattern := beq_iff_eq

theorem encodes_fixed {mnemonic : String} {p : Word} {i : Instr} (hwf : i.wellFormed = true) (henc : encode i = p) :
    OpRow.Encodes ⟨mnemonic, fixedMask, p, fun _ => i⟩ := by
  intro v hv
  have hv : v &&& BitVec.allOnes 64 = p := (OpRow.selects_iff _ v).1 hv
  rw [BitVec.and_allOnes] at hv
  exact ⟨hwf, henc.trans hv.symm⟩

theorem encodes_imm {mnemonic : String} {op : BitVec 8} {f : Bool} {mk : Nat → Instr}
    (hwf : ∀ k, immFits k → (mk k).wellFormed = true) (henc : ∀ k, encode (mk k) = commandWord op f k) :
    OpRow.Encodes ⟨mnemonic, immMask, commandWord op f 0, fun v => mk (fieldImm v)⟩ := by
  intro v hv
  have hword : v = commandWord op f (fieldImm v) := and_immMask_eq_iff.1 ((OpRow.selects_iff _ v).1 hv)
  exact ⟨hwf _ (immFits_fieldImm v), (henc _).trans hword.symm⟩

theorem encodes_feed {mnemonic : String} :
    OpRow.Encodes ⟨mnemonic, modeMask, commandWord 0x03#8 false 0, fun v => .feed (fieldF v)⟩ := by
  intro v hv
  have hword : v = commandWord 0x03#8 (fieldF v) 0 := and_modeMask_eq_iff.1 ((OpRow.selects_iff _ v).1 hv)
  exact ⟨rfl, hword.symm⟩

/-- Every row of the opcode map, in the table's order. -/
theorem opRows_encodes : ∀ r ∈ opRows, r.Encodes := by
  simp only [opRows, List.cons_append, List.nil_append, List.forall_mem_cons]
  have imm (n : Nat) (h : immFits n) : decide (immFits n) = true := decide_eq_true h
  exact ⟨encodes_fixed rfl rfl, encodes_fixed rfl rfl, encodes_fixed rfl rfl, encodes_feed,
    encodes_imm (op := 0x04#8) (f := false) imm fun _ => rfl,
    encodes_fixed rfl rfl, encodes_fixed rfl rfl, encodes_fixed rfl rfl, encodes_fixed rfl rfl, encodes_fixed rfl rfl,
    encodes_imm (op := 0x09#8) (f := true) imm fun _ => rfl,
    encodes_fixed rfl rfl, encodes_fixed rfl rfl,
    encodes_imm (op := 0x0C#8) (f := false) imm fun _ => rfl, List.forall_mem_nil _⟩

/-! ### The decoder and the rows -/

/-- Two rows one word selects have matches that agree on the bits both masks keep (rule R110). -/
theorem OpRow.pattern_and_mask {r q : OpRow} {v : Word} (hr : r.selects v = true) (hq : q.selects v = true) :
    r.pattern &&& q.mask = q.pattern &&& r.mask := by
  rw [← (r.selects_iff v).1 hr, ← (q.selects_iff v).1 hq, BitVec.and_assoc, BitVec.and_assoc, BitVec.and_comm r.mask]

/-- Settles O4: any two rows differ in a bit that both their masks keep. -/
theorem opcodeRowsAreDisjoint : Obligations.OpcodeRowsAreDisjoint := by
  have hdiffer : opRows.Pairwise fun r q => r.pattern &&& q.mask ≠ q.pattern &&& r.mask := by decide
  exact hdiffer.imp fun hne v ⟨hr, hq⟩ => hne (OpRow.pattern_and_mask hr hq)

/-- A legal word selects the row that builds its command. -/
theorem exists_row_of_decode {v : Word} {i : Instr} (h : decode v = .ok i) :
    ∃ r ∈ opRows, r.selects v = true ∧ r.build v = i := by
  cases hfind : opRows.find? (·.selects v) with
  | none => simp [decode, hfind] at h
  | some r =>
    have hsel : r.selects v = true := by simpa using List.find?_some hfind
    exact ⟨r, List.mem_of_find?_eq_some hfind, hsel, by simpa [decode, hfind] using h⟩

/-- A word decodes to the command of any row it selects: no other row stands in the way (rule R110). -/
theorem decode_of_selects {r : OpRow} {v : Word} (hr : r ∈ opRows) (hv : r.selects v = true) :
    decode v = .ok (r.build v) := by
  have hpairs := opcodeRowsAreDisjoint
  obtain ⟨before, after, happ⟩ := List.append_of_mem hr
  rw [Obligations.OpcodeRowsAreDisjoint, happ, List.pairwise_append] at hpairs
  obtain ⟨-, -, hbefore⟩ := hpairs
  have hfind : opRows.find? (·.selects v) = some r :=
    List.find?_eq_some_iff_append.2 ⟨hv, before, after, happ, fun q hq => by
      simpa [hv] using hbefore q hq r List.mem_cons_self v⟩
  rw [decode, hfind]

/-- Settles O2: the row the word selects encodes its command. -/
theorem decodeThenEncode : Obligations.DecodeThenEncode := by
  intro v i h
  obtain ⟨r, hr, hv, rfl⟩ := exists_row_of_decode h
  exact opRows_encodes r hr v hv

/-- The word of a row with an immediate decodes to the row's command, with the immediate as its operand. -/
theorem decode_commandWord_imm {mnemonic : String} {op : BitVec 8} {f : Bool} {mk : Nat → Instr} {k : Nat}
    (hrow : ⟨mnemonic, immMask, commandWord op f 0, fun v => mk (fieldImm v)⟩ ∈ opRows) (hk : immFits k) :
    decode (commandWord op f k) = .ok (mk k) := by
  have himm : fieldImm (commandWord op f k) = k := fieldImm_commandWord op f k hk
  have hword : commandWord op f k = commandWord op f (fieldImm (commandWord op f k)) := by rw [himm]
  have hdecode : decode (commandWord op f k) = .ok (mk (fieldImm (commandWord op f k))) :=
    decode_of_selects hrow ((OpRow.selects_iff _ _).2 (and_immMask_eq_iff.2 hword))
  rw [hdecode, himm]

/-- Settles O1: a row with an immediate gives IMM back; the words of the other commands are fixed, and the decoder is run
on them. -/
theorem encodeThenDecode : Obligations.EncodeThenDecode := by
  intro i h
  cases i with
  | synth k => exact decode_commandWord_imm (List.mem_of_getElem? (i := 4) rfl) (of_decide_eq_true h)
  | gpwrs s => exact decode_commandWord_imm (List.mem_of_getElem? (i := 10) rfl) (of_decide_eq_true h)
  | map v => exact decode_commandWord_imm (List.mem_of_getElem? (i := 13) rfl) (of_decide_eq_true h)
  | feed offset => cases offset <;> rfl
  | _ => rfl

/-- Settles O5: each word is its command's encoding. -/
theorem sampleWordsDecode : Obligations.SampleWordsDecode :=
  ⟨encodeThenDecode .nop rfl, encodeThenDecode .config rfl, encodeThenDecode .sreset rfl,
    encodeThenDecode (.feed false) rfl, encodeThenDecode (.feed true) rfl, encodeThenDecode (.synth 5) rfl,
    encodeThenDecode .rsenc rfl, encodeThenDecode .rsdec rfl, encodeThenDecode .ilv rfl, encodeThenDecode .dilv rfl,
    encodeThenDecode .gpwr rfl, encodeThenDecode (.gpwrs 18) rfl, encodeThenDecode .rms rfl,
    encodeThenDecode .detect rfl, encodeThenDecode (.map 0xA5) rfl⟩

/-! ### The illegal words (rule R114) -/

/-- The legal words are the encodings of the well-formed commands. -/
theorem decode_isOk_iff {v : Word} : (∃ i, decode v = .ok i) ↔ ∃ i : Instr, i.wellFormed = true ∧ encode i = v := by
  constructor
  · rintro ⟨i, h⟩
    exact ⟨i, decodeThenEncode v i h⟩
  · rintro ⟨i, hwf, rfl⟩
    exact ⟨i, encodeThenDecode i hwf⟩

/-- The cases (a) to (d) of rule R114. -/
def ReservedWord (v : Word) : Prop :=
  0x0D ≤ (fieldOp v).toNat ∨ (fieldRsvh v ≠ 0 ∨ fieldRsv0 v ≠ 0) ∨
    (fieldF v = true ∧ fieldOp v ≠ 0x03#8 ∧ fieldOp v ≠ 0x09#8) ∨
    (fieldImm v ≠ 0 ∧ ¬ (fieldOp v = 0x04#8 ∨ fieldOp v = 0x0C#8 ∨ (fieldOp v = 0x09#8 ∧ fieldF v = true)))

theorem fields_encode : ∀ i, Laws.Fields.Statement i
  | .nop => Laws.Fields.nop
  | .config => Laws.Fields.config
  | .sreset => Laws.Fields.sreset
  | .feed offset => Laws.Fields.feed offset
  | .synth k => Laws.Fields.synth k
  | .rsenc => Laws.Fields.rsenc
  | .rsdec => Laws.Fields.rsdec
  | .ilv => Laws.Fields.ilv
  | .dilv => Laws.Fields.dilv
  | .gpwr => Laws.Fields.gpwr
  | .gpwrs slot => Laws.Fields.gpwrs slot
  | .rms => Laws.Fields.rms
  | .detect => Laws.Fields.detect
  | .map v => Laws.Fields.map v

theorem not_reserved_encode {i : Instr} (h : i.wellFormed = true) : ¬ ReservedWord (encode i) := by
  obtain ⟨hop, hf, himm, hrsv0, hrsvh⟩ := fields_encode i h
  rw [ReservedWord, hop, hf, himm, hrsv0, hrsvh]
  cases i <;> simp [Laws.Fields.opcode, Laws.Fields.mode, Laws.Fields.imm]

/-- The commands whose words use neither F nor IMM with their OP. -/
def plainCommands : List Instr := [.nop, .config, .sreset, .rsenc, .rsdec, .ilv, .dilv, .rms, .detect]

/-- The opcodes that use neither F nor IMM are those of the plain commands. -/
theorem exists_plainCommand : ∀ n < 0x0D, n ∉ [0x03, 0x04, 0x09, 0x0C] →
    ∃ i ∈ plainCommands, i.wellFormed = true ∧ encode i = commandWord (BitVec.ofNat 8 n) false 0 := by
  decide

/-- Fields outside the cases (a), (c) and (d) are those of a well-formed command: the opcode uses each that is not 0. -/
theorem exists_encode_eq_commandWord {op : BitVec 8} {f : Bool} {n : Nat} (hn : immFits n) (hop : op.toNat < 0x0D)
    (hf : ¬ (f = true ∧ op ≠ 0x03#8 ∧ op ≠ 0x09#8))
    (himm : ¬ (n ≠ 0 ∧ ¬ (op = 0x04#8 ∨ op = 0x0C#8 ∨ (op = 0x09#8 ∧ f = true)))) :
    ∃ i : Instr, i.wellFormed = true ∧ encode i = commandWord op f n := by
  by_cases h3 : op = 0x03#8
  · subst h3
    obtain rfl : n = 0 := by simpa using himm
    exact ⟨.feed f, rfl, rfl⟩
  by_cases h9 : op = 0x09#8
  · subst h9
    cases f with
    | true => exact ⟨.gpwrs n, decide_eq_true hn, rfl⟩
    | false =>
      obtain rfl : n = 0 := by simpa using himm
      exact ⟨.gpwr, rfl, rfl⟩
  obtain rfl : f = false := by simpa [h3, h9] using hf
  by_cases h4 : op = 0x04#8
  · subst h4
    exact ⟨.synth n, decide_eq_true hn, rfl⟩
  by_cases h12 : op = 0x0C#8
  · subst h12
    exact ⟨.map n, decide_eq_true hn, rfl⟩
  obtain rfl : n = 0 := by simpa [h4, h12] using himm
  have hplain : op.toNat ∉ [0x03, 0x04, 0x09, 0x0C] := by
    simp only [List.mem_cons, List.not_mem_nil, or_false]
    bv_omega
  obtain ⟨i, -, hwf, henc⟩ := exists_plainCommand op.toNat hop hplain
  rw [BitVec.ofNat_toNat, BitVec.setWidth_eq] at henc
  exact ⟨i, hwf, henc⟩

/-- A word outside the cases (a) to (d) is the word of its fields, and so of a command. -/
theorem exists_encode_of_not_reserved {v : Word} (h : ¬ ReservedWord v) :
    ∃ i : Instr, i.wellFormed = true ∧ encode i = v := by
  rw [ReservedWord, not_or, not_or, not_or, not_or, not_not, not_not, not_le] at h
  obtain ⟨hop, ⟨hrsvh, hrsv0⟩, hf, himm⟩ := h
  have hword : v = commandWord (fieldOp v) (fieldF v) (fieldImm v) :=
    (eq_commandWord_iff (immFits_fieldImm v)).2 ⟨rfl, rfl, rfl, hrsv0, hrsvh⟩
  obtain ⟨i, hwf, henc⟩ := exists_encode_eq_commandWord (immFits_fieldImm v) hop hf himm
  exact ⟨i, hwf, henc.trans hword.symm⟩

/-- The decoder refuses a word or decodes it to a command. -/
theorem decode_isError_iff {v : Word} : (∃ r, decode v = .error r) ↔ ¬ ∃ i, decode v = .ok i := by
  cases decode v <;> simp

theorem decode_isError_iff_reserved {v : Word} : (∃ r, decode v = .error r) ↔ ReservedWord v := by
  rw [decode_isError_iff, decode_isOk_iff, not_iff_comm]
  exact ⟨exists_encode_of_not_reserved, fun ⟨i, hwf, henc⟩ => henc ▸ not_reserved_encode hwf⟩

/-- Settles O3: the words outside the cases (a) to (d) are the encodings of the well-formed commands, which are the legal
words; and an illegal one only raises. -/
theorem illegalWordsAreExactlyTheReservedOnes : Obligations.IllegalWordsAreExactlyTheReservedOnes :=
  fun _ => ⟨decode_isError_iff_reserved, fun s ⟨_, hr⟩ => Machine.execute_illegal s hr⟩

end Sys2Proof
end

section
/-! PROOFS. The code of a validation is the place of the first failing check of rule R146. -/

namespace Sys2Proof.Machine

/-! ### The first failing check -/

/-- The code of the first of `checks` that fails, where `k` checks stand before them; 0 if none fails. -/
def firstFailCode : Nat → List Bool → Byte
  | _, [] => 0
  | k, ok :: checks => if ok = false then BitVec.ofNat 8 (k + 1) else firstFailCode (k + 1) checks

/-- With fewer than 256 checks the code is 0 exactly when none fails. -/
theorem firstFailCode_eq_zero_iff : ∀ (checks : List Bool) (k : Nat), k + checks.length < 256 →
    (firstFailCode k checks = 0 ↔ ∀ j < checks.length, checks.getD j false = true)
  | [], _, _ => iff_of_true rfl fun _ hj => absurd hj (Nat.not_lt_zero _)
  | ok :: checks, k, h => by
    rw [List.length_cons] at h
    rw [firstFailCode, List.length_cons, Nat.forall_lt_succ_left]
    cases ok with
    | false =>
      have hcode : BitVec.ofNat 8 (k + 1) ≠ 0 := by bv_omega
      exact iff_of_false hcode fun h => Bool.false_ne_true h.1
    | true => simpa using firstFailCode_eq_zero_iff checks (k + 1) (by omega)

/-- A check that fails while all before it hold gives the code. -/
theorem firstFailCode_of_first : ∀ (checks : List Bool) (k i : Nat), checks.getD i true = false →
    (∀ j < i, checks.getD j false = true) → firstFailCode k checks = BitVec.ofNat 8 (k + i + 1)
  | [], _, _, hi, _ => absurd hi.symm Bool.false_ne_true
  | _ :: _, _, 0, hi, _ => if_pos hi
  | ok :: checks, k, i + 1, hi, hbefore => by
    obtain ⟨hok, hbefore⟩ := Nat.forall_lt_succ_left.1 hbefore
    obtain rfl : ok = true := hok
    have ih := firstFailCode_of_first checks (k + 1) i hi hbefore
    rw [firstFailCode, if_neg (by decide), ih, Nat.add_right_comm k 1 i, Nat.add_assoc k i 1]

/-! ### The checks of rule R146 -/

/-- A property of all elements of a list, entry by entry. -/
theorem forall_mem_iff_getD {α : Type} {P : α → Prop} (l : List α) (d : α) :
    (∀ x ∈ l, P x) ↔ ∀ i < l.length, P (l.getD i d) := by
  rw [List.forall_mem_iff_getElem]
  exact forall₂_congr fun i hi => by rw [List.getD_eq_getElem l d hi]

/-- The table's check, entry by entry (rule R145). -/
theorem freqTableOk_iff {fs : F64} {t : List F64} (ht : t.length = 32) :
    freqTableOk fs t = true ↔
      (∀ i < 32, fFinite (t.getD i fZero) = true) ∧ (∀ i < 31, fLt (t.getD i fZero) (t.getD (i + 1) fZero) = true) ∧
        fLt (t.getD 31 fZero) (fMul fs fHalf) = true := by
  have hpairs : (t.zip t.tail).length = 31 := by simp [ht]
  have hpair (i : Nat) (hi : i < 31) :
      (t.zip t.tail).getD i (fZero, fZero) = (t.getD i fZero, t.getD (i + 1) fZero) := by
    rw [List.getD_eq_getElem _ _ (by omega), List.getElem_zip, List.getElem_tail,
      List.getD_eq_getElem t fZero (by omega), List.getD_eq_getElem t fZero (by omega)]
  have hrises : (∀ q ∈ t.zip t.tail, fLt q.1 q.2 = true) ↔
      ∀ i < 31, fLt (t.getD i fZero) (t.getD (i + 1) fZero) = true := by
    rw [forall_mem_iff_getD _ (fZero, fZero), hpairs]
    exact forall₂_congr fun i hi => by rw [hpair i hi]
  rw [freqTableOk, Bool.and_eq_true, Bool.and_eq_true, List.all_eq_true, List.all_eq_true, hrises,
    forall_mem_iff_getD t fZero, ht, and_assoc]

/-- Check 6 of the list is the table's check. -/
theorem tableCheck_eq (fs : F64) {t : List F64} (ht : t.length = 32) :
    ((List.range 32).all (fun i => fFinite (t.getD i fZero)) &&
      (List.range 31).all (fun i => fGt (t.getD (i + 1) fZero) (t.getD i fZero)) &&
      fLt (t.getD 31 fZero) (fMul fs fHalf)) = freqTableOk fs t := by
  rw [Bool.eq_iff_iff, freqTableOk_iff ht]
  simp only [Bool.and_eq_true, List.all_eq_true, List.mem_range, fGt, and_assoc]

/-- `validateCode` runs the checks of the list. -/
theorem validateCode_eq (p : Params) (c : CfgRegs) : validateCode p c = firstFailCode 0 (configChecks p c) := by
  have hwindow : (fFinite (windowProduct c) = false ∨ windowLenOf c < 1 ∨ p.winMax < windowLenOf c) ↔
      (fFinite (windowProduct c) && decide (1 ≤ windowLenOf c) && decide (windowLenOf c ≤ p.winMax)) = false := by
    simp only [Bool.and_eq_false_iff, decide_eq_false_iff_not, not_le, or_assoc]
  have htable := iff_of_eq (congrArg (· = false) (tableCheck_eq c.sampleRate (freqTable_length c)).symm)
  have hpayload : (c.payloadLen.toNat < 1 ∨ Config.lMax < c.payloadLen.toNat) ↔
      (decide (1 ≤ c.payloadLen.toNat) && decide (c.payloadLen.toNat ≤ 223)) = false := by
    simp only [Bool.and_eq_false_iff, decide_eq_false_iff_not, not_le, Config.lMax]
  exact if_congr .rfl rfl <| if_congr .rfl rfl <| if_congr hwindow rfl <| if_congr .rfl rfl <| if_congr .rfl rfl <|
    if_congr htable rfl <| if_congr hpayload rfl <| if_congr .rfl rfl <| if_congr .rfl rfl <| if_congr .rfl rfl rfl

/-- Registers are valid exactly when all ten checks hold. -/
theorem validateCode_eq_zero_iff {p : Params} {c : CfgRegs} :
    validateCode p c = 0 ↔ ∀ k < 10, (configChecks p c).getD k false = true := by
  rw [validateCode_eq]
  exact firstFailCode_eq_zero_iff (configChecks p c) 0 (show 0 + 10 < 256 by decide)

/-- Settles O23: `validateCode` is the code of the first check of the list that fails. -/
theorem validationReportsTheFirstFailingCheck : Obligations.ValidationReportsTheFirstFailingCheck := by
  refine fun p c => ⟨validateCode_eq_zero_iff.2, fun k _ hk hbefore => ?_⟩
  rw [validateCode_eq, firstFailCode_of_first _ 0 k hk hbefore, Nat.zero_add]

end Sys2Proof.Machine
end

section
/-! PROOFS. The window length rounds half up (rule R143). -/

namespace Sys2Proof.Machine

/-- Half up in halves: `floor(m / 2^k + 1/2)` is the quotient of `2m + 2^k` by `2^(k+1)`. -/
theorem floor_div_add_half (m k : Nat) :
    ⌊(m : ℚ) * 2 ^ (-(k : ℤ)) + 1 / 2⌋ = ((2 * m + 2 ^ k) / 2 ^ (k + 1) : ℕ) := by
  have hquot : (m : ℚ) * 2 ^ (-(k : ℤ)) + 1 / 2 = (2 * m + 2 ^ k : ℕ) / (2 ^ (k + 1) : ℕ) := by
    rw [zpow_neg, zpow_natCast]
    push_cast
    field_simp
    ring
  rw [hquot, Rat.floor_natCast_div_natCast, Int.natCast_div]

/-- Settles O25: an exponent that is not negative makes the value whole, and a negative one divides it. -/
theorem windowLengthRoundsHalfUp : Obligations.WindowLengthRoundsHalfUp := by
  intro x hx hsign
  rw [fRoundHalfUp, fRat, fUnpack_finite hx, hsign]
  generalize magMant (fMag x) = m
  generalize (magExp (fMag x) : ℤ) - 1074 = e
  simp only [signedMant, Bool.false_eq_true, if_false, Int.cast_natCast]
  split_ifs with he
  · obtain ⟨k, rfl⟩ := Int.eq_ofNat_of_zero_le he
    have hwhole : (m : ℚ) * 2 ^ (k : ℤ) = ((m * 2 ^ k : ℕ) : ℚ) := by push_cast; rfl
    rw [hwhole, Int.floor_natCast_add, Int.toNat_natCast]
    norm_num
  · obtain ⟨k, hk⟩ := Int.eq_ofNat_of_zero_le (show 0 ≤ -e by omega)
    rw [hk, Int.toNat_natCast, ← neg_neg e, hk, floor_div_add_half]

end Sys2Proof.Machine
end

section
/-! PROOFS. The tones of a validated configuration lie between 0 and half the sample rate: the first is
CFG_FIRST_FREQ, delivered exactly, and they rise from there (rules R10, R145, R174). -/

namespace Sys2Proof.Machine

/-! ### Results that need no rounding -/

/-- The magnitude of a finite value is below the overflow bound (log entry 18). -/
theorem abs_fRat_lt_overflowBound {x : F64} (h : fFinite x = true) : |fRat x| < overflowBound := by
  have hmax : magVal (2045 * 2 ^ 52 + (2 ^ 53 - 1)) = (2 ^ 53 - 1 : ℕ) * magUnit 2045 :=
    magVal_eq (by norm_num) (by norm_num)
  have hle : magVal (fMag x) ≤ magVal (2045 * 2 ^ 52 + (2 ^ 53 - 1)) := by
    have hlt := (fFinite_iff x).1 h
    rw [fInfMag] at hlt
    exact magVal_strictMono.monotone (by omega)
  have habs : ((|fRat x| : ℚ) : ℝ) = magVal (fMag x) := by
    rw [Rat.cast_abs, fRat_finite h, abs_signedVal, abs_of_nonneg (magVal_nonneg _)]
  rw [← Rat.cast_lt (K := ℝ), habs, overflowBound_eq]
  refine hle.trans_lt (hmax.trans_lt ?_)
  have hunit := magUnit_pos 2045
  gcongr
  norm_num

/-- A result that a finite encoding stands for is delivered exactly (rule R10). -/
theorem RoundsTo.exact {r z : F64} (hz : fFinite z = true) (h : RoundsTo r (fRat z)) :
    fFinite r = true ∧ fRat r = fRat z := by
  rw [RoundsTo, if_pos (abs_fRat_lt_overflowBound hz)] at h
  obtain ⟨hfin, hnear⟩ := h
  have hdist := (hnear z hz).1
  rw [sub_self, abs_zero] at hdist
  exact ⟨hfin, sub_eq_zero.1 (abs_nonpos_iff.1 hdist)⟩

theorem fFinite_fZero : fFinite fZero = true := by decide

@[simp] theorem fRat_fZero : fRat fZero = 0 := by
  have hunpack : fUnpack fZero = .fin false 0 (-1074) := by decide
  simp [fRat, hunpack, signedMant]

theorem finitePositive_iff {x : F64} : finitePositive x = true ↔ fFinite x = true ∧ 0 < fRat x := by
  rw [finitePositive, Bool.and_eq_true]
  exact and_congr_right fun hx => by rw [fGt, fLt_iff fFinite_fZero hx, fRat_fZero]

/-! ### The order of the table -/

theorem fLt_trans {a b c : F64} (hab : fLt a b = true) (hbc : fLt b c = true) : fLt a c = true := by
  simp only [fLt, Bool.and_eq_true, decide_eq_true_eq] at hab hbc ⊢
  obtain ⟨⟨ha, -⟩, hlt⟩ := hab
  obtain ⟨⟨-, hc⟩, hlt'⟩ := hbc
  exact ⟨⟨ha, hc⟩, hlt.trans hlt'⟩

/-- A sequence each entry of which is below the next is strictly increasing. -/
theorem fLt_of_rising {f : Nat → F64} {n : Nat} (h : ∀ i < n, fLt (f i) (f (i + 1)) = true) {i : Nat} :
    ∀ {j : Nat}, i < j → j ≤ n → fLt (f i) (f j) = true
  | j + 1, hij, hj => by
    rcases Nat.lt_succ_iff_lt_or_eq.1 hij with hlt | rfl
    · exact fLt_trans (fLt_of_rising h hlt (by omega)) (h j hj)
    · exact h i hj

/-- The first tone is CFG_FIRST_FREQ: 0 times a finite increment adds nothing to it (rule R145). -/
theorem finitePositive_freqTable_zero {c : CfgRegs} (hf : finitePositive c.firstFreq = true)
    (hinc : fFinite c.increment = true) : finitePositive ((freqTable c).getD 0 fZero) = true := by
  unfold freqTable
  split_ifs
  · obtain ⟨hfin, hpos⟩ := finitePositive_iff.1 hf
    obtain ⟨hzero, hval⟩ := fOfNat_exact (k := 0) (by norm_num)
    have hprod : RoundsTo (fMul (fOfNat 0) c.increment) (fRat fZero) := by
      have h := roundsTo_fMul hzero hinc
      rwa [hval, Nat.cast_zero, zero_mul, ← fRat_fZero] at h
    obtain ⟨hprodFin, hprodVal⟩ := hprod.exact fFinite_fZero
    have hsum : RoundsTo (fAdd c.firstFreq (fMul (fOfNat 0) c.increment)) (fRat c.firstFreq) := by
      have h := roundsTo_fAdd hfin hprodFin
      rwa [hprodVal, fRat_fZero, add_zero] at h
    obtain ⟨hsumFin, hsumVal⟩ := hsum.exact hfin
    exact finitePositive_iff.2 ⟨hsumFin, hsumVal ▸ hpos⟩
  · exact hf

/-- Settles O26: the tones rise from CFG_FIRST_FREQ, which is positive, to the last, which is below half the sample
rate. -/
theorem validFrequencyTablesLieInTheGoertzelDomain : Obligations.ValidFrequencyTablesLieInTheGoertzelDomain := by
  intro p c hc i hi
  have hchecks := validateCode_eq_zero_iff.1 hc
  have hfirst : finitePositive c.firstFreq = true := hchecks 3 (by decide)
  have hseries : seriesOk c = true := hchecks 4 (by decide)
  have htable : freqTableOk c.sampleRate (freqTable c) = true := by
    rw [← tableCheck_eq c.sampleRate (freqTable_length c)]
    exact hchecks 5 (by decide)
  rw [seriesOk, Bool.and_eq_true, Bool.and_eq_true] at hseries
  obtain ⟨⟨-, hinc⟩, -⟩ := hseries
  obtain ⟨hfin, hrises, hlast⟩ := (freqTableOk_iff (freqTable_length c)).1 htable
  have hhead := finitePositive_freqTable_zero hfirst hinc
  rw [finitePositive, Bool.and_eq_true] at hhead
  obtain ⟨-, hpositive⟩ := hhead
  have hrise {i j : Nat} (hij : i < j) (hj : j ≤ 31) :
      fLt ((freqTable c).getD i fZero) ((freqTable c).getD j fZero) = true :=
    fLt_of_rising (f := fun i => (freqTable c).getD i fZero) hrises hij hj
  refine ⟨hfin i hi, ?_, ?_⟩
  · rcases Nat.eq_zero_or_pos i with rfl | hpos
    · exact hpositive
    · exact fLt_trans hpositive (hrise hpos (by omega))
  · rcases Nat.lt_succ_iff_lt_or_eq.1 hi with hlt | rfl
    · exact fLt_trans (hrise hlt le_rfl) hlast
    · exact hlast

end Sys2Proof.Machine
end

section
/-! PROOFS. What NOP and CONFIG do to the whole state, and what the configuration then reads as (rules R140, R142,
R240). -/

namespace Sys2Proof.Machine

/-! ### The shuffle -/

/-- Exchanging two entries rearranges the list. -/
theorem swapEntries_perm {p : List Nat} {i j : Nat} (hi : i < p.length) (hj : j < p.length) :
    (swapEntries p i j).Perm p := by
  rw [swapEntries, List.getD_eq_getElem p 0 hi, List.getD_eq_getElem p 0 hj]
  exact List.set_set_perm hi hj

/-- The shuffle loop exchanges entries of the list only, and so rearranges it (rule R240). -/
theorem shuffleFrom_perm : ∀ (i s : Nat) {p : List Nat}, i < p.length → (shuffleFrom i s p).Perm p
  | 0, _, p, _ => .refl p
  | i + 1, s, p, hi => by
    have hj : lcgNext s % (i + 2) < p.length := (Nat.mod_lt _ (by omega)).trans_le (by omega)
    rw [shuffleFrom]
    exact (shuffleFrom_perm i _ (by rw [swapEntries_length]; omega)).trans (swapEntries_perm hi hj)

/-- `BuildShuffle(n)` rearranges the positions below `n` (rule R240). -/
theorem buildShuffle_perm (n : Nat) : (buildShuffle n).Perm (List.range n) := by
  cases n with
  | zero => exact .refl _
  | succ n => exact shuffleFrom_perm n (n + 1) (by rw [List.length_range]; exact Nat.lt_succ_self n)

/-- An entry of PERM holds its position in 8 bits: positions are below 255 (rule R210). -/
theorem setWidth_permBytes_getD {n i : Nat} (hn : n ≤ 255) (hi : i < n) :
    ((permBytes n).getD i 0).setWidth 64 = BitVec.ofNat 64 ((buildShuffle n).getD i 0) := by
  have hlen : i < (buildShuffle n).length := by rwa [(buildShuffle_perm n).length_eq, List.length_range]
  have hlt : (buildShuffle n)[i] < n := List.mem_range.1 ((buildShuffle_perm n).subset (List.getElem_mem hlen))
  rw [permBytes, List.getD_eq_getElem _ _ (by rwa [List.length_map]), List.getElem_map, List.getD_eq_getElem _ _ hlen]
  bv_omega

/-! ### CONFIG -/

theorem exec_config_valid {s : State} (h : validateCode s.params s.cfg = 0) :
    exec .config s = .next s.configure :=
  (exec_config_cases s).elim (fun ⟨hne, _⟩ => absurd h hne) And.right

theorem exec_config_invalid {s : State} (h : validateCode s.params s.cfg ≠ 0) :
    exec .config s = .next (s.configFail (validateCode s.params s.cfg)) :=
  (exec_config_cases s).elim And.right fun ⟨hz, _⟩ => absurd hz h

theorem readElem_configure_freq {s : State} (h : validateCode s.params s.cfg = 0) {i : Nat} (hi : i < 32) (a : Addr) :
    s.configure.readElem .freq i a = (freqTable s.cfg).getD i 0 := by
  rw [readElem_freq a hi, tableGet, (configuredBy_configure h).freq]
  rfl

theorem readElem_configure_perm {s : State} (h : validateCode s.params s.cfg = 0) {n : Nat}
    (hn : n = s.cfg.payloadLen.toNat + parityLen s.cfg.payloadLen.toNat) {i : Nat} (hi : i < n) (a : Addr) :
    s.configure.readElem .perm i a = BitVec.ofNat 64 ((buildShuffle n).getD i 0) := by
  have hl := lengthsValid_of_validateCode h
  have hle : n ≤ 255 := hn ▸ add_parityLen_le hl.payloadFits
  have hncw : s.configure.drv.codewordLen.toNat = n := (derivedRegs_codewordLen hl).trans hn.symm
  have hperm : s.configure.perm = tableWrite s.perm (permBytes n) := by rw [hn]; rfl
  rw [readElem_perm a (hi.trans_le hle), if_pos ⟨rfl, hncw ▸ hi⟩, hperm, tableGet_tableWrite _ _ _ _ (by omega),
    if_pos (by rwa [permBytes_length]), setWidth_permBytes_getD hle hi]

/-- Settles O21: the success path, and what the tables it stores read as. -/
theorem configCapturesAValidConfiguration : Obligations.ConfigCapturesAValidConfiguration := fun s h =>
  ⟨s.configure, exec_config_valid h, rfl, fun _ hi a => readElem_configure_freq h hi a,
    fun _ hi a => readElem_configure_perm h rfl hi a⟩

/-- Without a configuration and a payload the tables read 0 (rules R37, R43). -/
theorem readElem_table_hidden {s : State} (hcfg : s.cfgValid = false) (hpay : s.ses.payloadValid = false) {b : Buf}
    (hb : b ∈ [Buf.freq, .perm, .rxpay]) (i : Nat) (a : Addr) : s.readElem b i a = 0 := by
  rcases Nat.lt_or_ge i (b.capacity s.params) with hi | hi
  · simp only [List.mem_cons, List.not_mem_nil, or_false] at hb
    rcases hb with rfl | rfl | rfl
    · rw [readElem_freq a hi, hcfg, if_neg Bool.false_ne_true]
    · rw [readElem_perm a hi, hcfg, if_neg (by simp)]
    · rw [readElem_rxpay a hi, hpay, if_neg (by simp)]
  · exact readElem_beyond a hi

/-- Settles O22: the failure path, and what it hides. -/
theorem configRejectsAnInvalidConfiguration : Obligations.ConfigRejectsAnInvalidConfiguration := by
  intro s h
  refine ⟨_, exec_config_invalid h, rfl, ?_, fun b hb i a => readElem_table_hidden rfl rfl hb i a⟩
  simp only [List.forall_mem_cons]
  exact ⟨rfl, rfl, rfl, rfl, List.forall_mem_nil _⟩

/-! ### NOP -/

/-- NOP alone has the opcode 0 (rule R113). -/
theorem eq_nop_of_opcode {i : Instr} (h : Laws.Fields.opcode i = 0) : i = .nop := by
  cases i with
  | nop => rfl
  | _ => simp [Laws.Fields.opcode] at h

/-- A legal word with the opcode 0 is the word 0. -/
theorem eq_zero_of_decode {v : Word} {i : Instr} (hop : fieldOp v = 0) (h : decode v = .ok i) : v = 0 := by
  obtain ⟨hwf, rfl⟩ := decodeThenEncode v i h
  have hnop : i = .nop := eq_nop_of_opcode ((fields_encode i hwf).1.symm.trans hop)
  rw [hnop]
  rfl

/-- Settles O20: NOP only sets RESULT, its word is 0, and no other legal word has its opcode. -/
theorem nopWritesOnlyResult : Obligations.NopWritesOnlyResult :=
  ⟨exec_nop, encodeThenDecode .nop rfl, fun _ hop hne =>
    decode_isError_iff.2 fun ⟨_, hi⟩ => hne (eq_zero_of_decode hop hi)⟩

end Sys2Proof.Machine
end

section
/-! PROOFS. The power and RMS commands on a written window: they reach their last step, whose result is the formula of
file 41 (rules R171 to R175). -/

namespace Sys2Proof.Machine

/-- A written window has no unwritten sample, so a command that reads it does not fault. -/
theorem winReady_sample_ne_none {s : State} {n j : Nat} (hr : s.winReady n) (hj : j < n) : s.sample .win j ≠ none :=
  Option.isSome_iff_ne_none.1 (hr j hj)

/-- The frequency check of GPWR, as a statement about ARG_FREQ (rule R173). -/
theorem gpwrFreqOk_iff (fs f : F64) :
    gpwrFreqOk fs f = true ↔ fFinite f = true ∧ fGt f fZero = true ∧ fLt f (fMul fs fHalf) = true := by
  rw [gpwrFreqOk, Bool.and_eq_true, Bool.and_eq_true, and_assoc]

/-- A GPWR that passes its checks on a written window ends with the power at ARG_FREQ. -/
theorem exec_gpwr_ready {s : State} (hv : s.cfgValid = true) (hw : s.winLenOk = true)
    (hf : gpwrFreqOk s.active.fs s.arg.freq = true) (hr : s.winReady s.winCount) :
    exec .gpwr s = .next (s.donePower (power (s.window s.winCount) s.active.fs s.arg.freq)) := by
  rcases exec_gpwr_cases s with ⟨h, -⟩ | ⟨-, h, -⟩ | ⟨-, -, h, -⟩ | ⟨-, -, -, ⟨-, h⟩ | ⟨j, hj, hn, -⟩⟩
  · simp [hv] at h
  · simp [hw] at h
  · simp [hf] at h
  · exact h
  · exact absurd hn (winReady_sample_ne_none hr hj)

/-- A GPWRS that passes its checks on a written window ends with the power at its slot's tone. -/
theorem exec_gpwrs_ready {s : State} {slot : Nat} (hv : s.cfgValid = true) (hw : s.winLenOk = true) (hs : slot ≤ 31)
    (hr : s.winReady s.winCount) :
    exec (.gpwrs slot) s = .next (s.donePower (power (s.window s.winCount) s.active.fs (s.slotFreq slot))) := by
  rcases exec_gpwrs_cases slot s with ⟨h, -⟩ | ⟨-, h, -⟩ | ⟨-, -, h, -⟩ | ⟨-, -, -, ⟨-, h⟩ | ⟨j, hj, hn, -⟩⟩
  · simp [hv] at h
  · simp [hw] at h
  · omega
  · exact h
  · exact absurd hn (winReady_sample_ne_none hr hj)

/-- An RMS that passes its check on a written window ends with the window's root mean square. -/
theorem exec_rms_ready {s : State} (hw : s.winLenOk = true) (hr : s.winReady s.winCount) :
    exec .rms s = .next (State.done { s with res := { s.res with rms := rmsOf (s.window s.winCount) } }) := by
  rcases exec_rms_cases s with ⟨h, -⟩ | ⟨-, ⟨-, h⟩ | ⟨j, hj, hn, -⟩⟩
  · simp [hw] at h
  · exact h
  · exact absurd hn (winReady_sample_ne_none hr hj)

/-- `Rms` of the first `n` samples of WIN divides by `n` (rule R172). -/
theorem rmsOf_window (s : State) (n : Nat) :
    rmsOf (s.window n) = fSqrt (fDiv ((s.window n).foldl (fun acc v => fAdd acc (fMul v v)) fZero) (fOfNat n)) := by
  rw [rmsOf, meanSq, values_length]

/-- Settles O27: under its hypotheses each power command passes its checks, and the end common to both sets RES_POWER
and RESULT alone. -/
theorem powerCommandsWriteThePower : Obligations.PowerCommandsWriteThePower := by
  intro s hv hlow hhigh hr
  have hw : s.winLenOk = true := (winLenOk_iff s).2 ⟨hlow, hhigh⟩
  exact ⟨fun hf => exec_gpwr_ready hv hw ((gpwrFreqOk_iff _ _).2 hf) hr, fun _ hs => exec_gpwrs_ready hv hw hs hr⟩

/-- Settles O28: RMS passes its one check, and the length it divides by is WIN_LEN. -/
theorem rmsWritesTheRootMeanSquare : Obligations.RmsWritesTheRootMeanSquare := by
  intro s hlow hhigh hr
  rw [← rmsOf_window]
  exact exec_rms_ready ((winLenOk_iff s).2 ⟨hlow, hhigh⟩) hr

end Sys2Proof.Machine
end

section
/-! PROOFS. The slot pair of a symbol, its word, and the command MAP (rules R40, R191, R192, R195). -/

namespace Sys2Proof.Machine

/-! ### The slot pair of a symbol -/

theorem mapSlots_eq (v : Nat) : mapSlots v = (v % 16, 16 + v / 16) := rfl

/-- A value is put together from its slots by `s0 + 16·(s1 - 16)`, and those slots are its own (rule R192). -/
theorem mapSlots_pair {s0 : Nat} (w1 : Nat) (h0 : s0 < 16) : mapSlots (s0 + 16 * w1) = (s0, 16 + w1) := by
  rw [mapSlots_eq, Prod.mk.injEq]
  omega

/-- The detector's value maps to the slots it selected: each winner is one of the 16 slots of its lane (rules R192,
R194). -/
theorem mapSlots_symbolOfLanes (pw0 pw1 : List F64) (bmin er : F64) :
    mapSlots (symbolOfLanes pw0 pw1 bmin er).value.toNat =
      ((symbolOfLanes pw0 pw1 bmin er).slot0.toNat, (symbolOfLanes pw0 pw1 bmin er).slot1.toNat) := by
  have h0 := laneWinner_lt pw0
  have h1 := laneWinner_lt pw1
  simp only [symbolOfLanes, BitVec.toNat_ofNat]
  rw [Nat.mod_eq_of_lt (by omega), Nat.mod_eq_of_lt (by omega), Nat.mod_eq_of_lt (by omega), mapSlots_pair _ h0]

/-! ### The symbol word -/

/-- A concatenation as a number: the upper part moved up by the width of the lower one. -/
theorem toNat_append_eq_add {m n : Nat} (x : BitVec m) (y : BitVec n) :
    (x ++ y).toNat = x.toNat * 2 ^ n + y.toNat := by
  rw [BitVec.toNat_append, ← Nat.shiftLeft_add_eq_or_of_lt y.isLt, Nat.shiftLeft_eq]

/-- The symbol word as a number: each field at its place (rule R40). -/
theorem Symbol.toNat_word (y : Symbol) :
    y.word.toNat =
      y.value.toNat + y.erasure.toNat * 2 ^ 8 + y.slot0.toNat * 2 ^ 16 + y.slot1.toNat * 2 ^ 24 := by
  unfold Symbol.word
  simp only [toNat_append_eq_add, BitVec.toNat_ofBool, BitVec.toNat_ofNat]
  omega

/-- The word of a symbol MAP writes (rule R195). -/
theorem mapSymbol_word {v : Nat} (h : v ≤ 255) :
    (mapSymbol v).word = BitVec.ofNat 64 (v + (v % 16) * 2 ^ 16 + (16 + v / 16) * 2 ^ 24) := by
  apply BitVec.eq_of_toNat_eq
  simp only [Symbol.toNat_word, mapSymbol, mapSlots_eq, BitVec.toNat_ofNat, Bool.toNat_false]
  simp (disch := omega) only [Nat.mod_eq_of_lt, Nat.zero_mul, Nat.add_zero]

/-! ### MAP -/

theorem exec_map_in_range (s : State) {v : Nat} (h : v ≤ 255) :
    exec (.map v) s = .next (State.done { s with res := { s.res with symbol := (mapSymbol v).word } }) := by
  rcases exec_map_cases s v with ⟨hv, -⟩ | ⟨-, he⟩
  · omega
  · exact he

theorem exec_map_out_of_range (s : State) {v : Nat} (h : 255 < v) : exec (.map v) s = .next (s.raise .range) := by
  rcases exec_map_cases s v with ⟨-, he⟩ | ⟨hv, -⟩
  · exact he
  · omega

/-- Settles O33: the word is the number rule R40 gives, and the raise writes out its three fields. -/
theorem mapWritesTheSymbolWord : Obligations.MapWritesTheSymbolWord := by
  intro s v
  refine ⟨fun h => ?_, exec_map_out_of_range s⟩
  rw [← mapSymbol_word h]
  exact exec_map_in_range s h

/-- Settles O31: the two compositions of Map with its inverse, the detector's symbols, and the values MAP refuses. -/
theorem mapIsABijectionOntoTheSlotPairs : Obligations.MapIsABijectionOntoTheSlotPairs := by
  refine ⟨fun v hv => ?_, fun s0 s1 h0 hlow hhigh => ⟨by omega, ?_⟩, fun x fs er freq => ?_, fun s v hv => ?_⟩
  · simp only [mapSlots_eq, true_and]
    omega
  · rw [mapSlots_pair _ h0, Nat.add_sub_cancel' hlow]
  · exact mapSlots_symbolOfLanes _ _ _ _
  · exact ⟨_, exec_map_out_of_range s hv, rfl⟩

end Sys2Proof.Machine
end

section
/-! PROOFS. The winner of a lane: the fold over the slots keeps, among the slots seen, the lowest with the greatest
power (rule R193). -/

namespace Sys2Proof.Machine

/-- One comparison of the lane decision: slot `v` against the winner `w` of the slots before it (rule R193). -/
def laneStep (pw : List F64) (w v : Nat) : Nat := if fGt (pw.getD v fZero) (pw.getD w fZero) then v else w

theorem laneWinner_eq_foldl (pw : List F64) : laneWinner pw = (List.range' 1 15).foldl (laneStep pw) 0 := rfl

/-- Slot 0 wins a lane in which no power is greater than its own. -/
theorem laneWinner_eq_zero {pw : List F64} (h : ∀ v, fGt (pw.getD v fZero) (pw.getD 0 fZero) = false) :
    laneWinner pw = 0 := by
  rw [laneWinner_eq_foldl]
  refine List.foldlRecOn (motive := (· = 0)) _ _ rfl fun w hw v _ => ?_
  rw [hw, laneStep, h, if_neg Bool.false_ne_true]

/-! ### The order of the powers -/

/-- Nothing is greater than a NaN. -/
theorem fGt_nan_right (a : F64) {b : F64} (h : fIsNaN b = true) : fGt a b = false := fLt_nan_left a h

/-- Two encodings that are no NaNs compare as their keys do (rule R10). -/
theorem fGt_iff_fKey {a b : F64} :
    fGt a b = true ↔ fIsNaN a = false ∧ fIsNaN b = false ∧ fKey b < fKey a := by
  simp only [fGt, fLt, Bool.and_eq_true, Bool.not_eq_true', decide_eq_true_eq, and_assoc, and_left_comm]

theorem fGt_irrefl (a : F64) : fGt a a = false :=
  Bool.eq_false_iff.2 fun h => by
    obtain ⟨-, -, hlt⟩ := fGt_iff_fKey.1 h
    exact hlt.false

theorem fGt_asymm {a b : F64} (h : fGt a b = true) : fGt b a = false :=
  Bool.eq_false_iff.2 fun hba => Bool.false_ne_true ((fGt_irrefl a).symm.trans (fLt_trans hba h))

/-- What is greater than a power that `c` does not exceed is greater than `c`, unless that is a NaN. -/
theorem fGt_of_not_fGt {a b c : F64} (hab : fGt a b = true) (hc : fIsNaN c = false) (hcb : fGt c b = false) :
    fGt a c = true := by
  obtain ⟨ha, hb, hlt⟩ := fGt_iff_fKey.1 hab
  have hle : fKey c ≤ fKey b := not_lt.1 fun h => Bool.eq_false_iff.1 hcb (fGt_iff_fKey.2 ⟨hc, hb, h⟩)
  exact fGt_iff_fKey.2 ⟨ha, hc, hle.trans_lt hlt⟩

/-! ### The leader of the slots seen -/

/-- Slot `w` is the lowest slot with the greatest power among the first `n` of a lane. -/
structure LeadsLane (pw : List F64) (n w : Nat) : Prop where
  lt : w < n
  noNaN : fIsNaN (pw.getD w fZero) = false
  greatest : ∀ v, v < n → fGt (pw.getD v fZero) (pw.getD w fZero) = false
  lowest : ∀ v, v < w → fIsNaN (pw.getD v fZero) = true ∨ fGt (pw.getD w fZero) (pw.getD v fZero) = true

theorem leadsLane_zero {pw : List F64} (h : fIsNaN (pw.getD 0 fZero) = false) : LeadsLane pw 1 0 where
  lt := Nat.zero_lt_one
  noNaN := h
  greatest v hv := by rw [Nat.lt_one_iff.1 hv, fGt_irrefl]
  lowest _ hv := absurd hv (Nat.not_lt_zero _)

/-- Comparing the next slot keeps a leader of the slots before it, or puts that slot in its place. -/
theorem LeadsLane.step {pw : List F64} {n w : Nat} (h : LeadsLane pw n w) : LeadsLane pw (n + 1) (laneStep pw w n) := by
  unfold laneStep
  split
  next hgt =>
    have hover (v : Nat) (hv : v < n) :
        fIsNaN (pw.getD v fZero) = true ∨ fGt (pw.getD n fZero) (pw.getD v fZero) = true := by
      cases hnan : fIsNaN (pw.getD v fZero)
      · exact .inr (fGt_of_not_fGt hgt hnan (h.greatest v hv))
      · exact .inl rfl
    refine ⟨Nat.lt_succ_self n, (fGt_iff_fKey.1 hgt).1, fun v hv => ?_, hover⟩
    rcases Nat.lt_succ_iff_lt_or_eq.1 hv with hlt | rfl
    · rcases hover v hlt with hnan | hbeaten
      · exact fGt_nan_left _ hnan
      · exact fGt_asymm hbeaten
    · exact fGt_irrefl _
  next hgt =>
    refine ⟨Nat.lt_succ_of_lt h.lt, h.noNaN, fun v hv => ?_, h.lowest⟩
    rcases Nat.lt_succ_iff_lt_or_eq.1 hv with hlt | rfl
    · exact h.greatest v hlt
    · exact Bool.not_eq_true _ ▸ hgt

/-- The lane decision over the slots `1 .. n` has the leader of the slots up to `n`. -/
theorem leadsLane_foldl {pw : List F64} (h : fIsNaN (pw.getD 0 fZero) = false) :
    ∀ n, LeadsLane pw (1 + n) ((List.range' 1 n).foldl (laneStep pw) 0)
  | 0 => leadsLane_zero h
  | n + 1 => by
    rw [List.range'_1_concat, List.foldl_append]
    exact (leadsLane_foldl h n).step

/-- Settles O32: a NaN at slot 0 is never exceeded; otherwise the fold ends with the leader of all 16 slots. -/
theorem laneWinnerIsTheLowestGreatest : Obligations.LaneWinnerIsTheLowestGreatest := by
  refine fun pw _ => ⟨fun hnan => laneWinner_eq_zero fun v => fGt_nan_right _ hnan, fun h => ?_⟩
  obtain ⟨hlt, hnan, hgreatest, hlowest⟩ : LeadsLane pw 16 (laneWinner pw) := leadsLane_foldl h 15
  exact ⟨hlt, hnan, hgreatest, hlowest⟩

end Sys2Proof.Machine
end

section
/-! PROOFS. DETECT on a written window, and on silence: from zeros the detector's arithmetic makes only zeros and NaNs,
whatever COS64 is, and no test between those holds (rules R171, R193, R194, R196). -/

namespace Sys2Proof.Machine

/-! ### Zeros and NaNs -/

/-- A zero of either sign, or a NaN. -/
def ZeroOrNaN (x : F64) : Prop := fIsNaN x = true ∨ ∃ neg, x = fPack neg 0

theorem zeroOrNaN_fPack (neg : Bool) : ZeroOrNaN (fPack neg 0) := .inr ⟨neg, rfl⟩

theorem zeroOrNaN_fNaN (op : Config.FloatOp) (a b : F64) : ZeroOrNaN (fNaN op a b) := .inl (fIsNaN_fNaN op a b)

theorem zeroOrNaN_fZero : ZeroOrNaN fZero := zeroOrNaN_fPack false

theorem fUnpack_zero (neg : Bool) : fUnpack (fPack neg 0) = .fin neg 0 (-1074) := by cases neg <;> decide

theorem fKey_zero (neg : Bool) : fKey (fPack neg 0) = 0 := by cases neg <;> decide

theorem fRound_zero (neg : Bool) (e : Int) (sticky : Bool) : fRound neg 0 e sticky = fPack neg 0 := if_pos rfl

/-- A sum of finite zeros is a zero. -/
theorem fAddFin_zero (na nb : Bool) (ea eb : Int) : fAddFin na 0 ea nb 0 eb = fPack (na && nb) 0 := by
  simp [fAddFin, fRoundInt, signedMant]

theorem ZeroOrNaN.fAdd {a b : F64} (ha : ZeroOrNaN a) (hb : ZeroOrNaN b) : ZeroOrNaN (fAdd a b) := by
  rcases ha with ha | ⟨na, rfl⟩
  · exact .inl (fAdd_nan_left b ha)
  · rcases hb with hb | ⟨nb, rfl⟩
    · exact .inl (fAdd_nan_right _ hb)
    · rw [Machine.fAdd, fUnpack_zero, fUnpack_zero, fAddVal, fAddFin_zero]
      exact zeroOrNaN_fPack _

theorem ZeroOrNaN.fSub {a b : F64} (ha : ZeroOrNaN a) (hb : ZeroOrNaN b) : ZeroOrNaN (fSub a b) := by
  rcases ha with ha | ⟨na, rfl⟩
  · exact .inl (fSub_nan_left b ha)
  · rcases hb with hb | ⟨nb, rfl⟩
    · exact .inl (fSub_nan_right _ hb)
    · rw [Machine.fSub, fUnpack_zero, fUnpack_zero, fNegVal, fAddVal, fAddFin_zero]
      exact zeroOrNaN_fPack _

/-- A product with a zero is a zero, or a NaN where the other factor is an infinity or a NaN. -/
theorem ZeroOrNaN.fMul {b : F64} (hb : ZeroOrNaN b) (a : F64) : ZeroOrNaN (fMul a b) := by
  rcases hb with hb | ⟨nb, rfl⟩
  · exact .inl (fMul_nan_right a hb)
  · rw [Machine.fMul, fUnpack_zero]
    cases fUnpack a with
    | nan => exact zeroOrNaN_fNaN _ _ _
    | inf na =>
      simp only [if_true]
      exact zeroOrNaN_fNaN _ _ _
    | fin na ma ea =>
      simp only [Nat.mul_zero, fRound_zero]
      exact zeroOrNaN_fPack _

/-- A zero divided by anything is a zero, or a NaN where the divisor is a zero or a NaN. -/
theorem ZeroOrNaN.fDiv {a : F64} (ha : ZeroOrNaN a) (b : F64) : ZeroOrNaN (fDiv a b) := by
  rcases ha with ha | ⟨na, rfl⟩
  · exact .inl (fDiv_nan_left b ha)
  · rw [Machine.fDiv, fUnpack_zero]
    cases fUnpack b with
    | nan => exact zeroOrNaN_fNaN _ _ _
    | inf nb => exact zeroOrNaN_fPack _
    | fin nb mb eb =>
      by_cases hmb : mb = 0
      · simp only [hmb, if_true]
        exact zeroOrNaN_fNaN _ _ _
      · simp only [hmb, if_false, fDivFin, Nat.zero_mul, Nat.zero_div, fRound_zero]
        exact zeroOrNaN_fPack _

/-- No zero or NaN is greater than another. -/
theorem ZeroOrNaN.fGt_eq_false {a b : F64} (ha : ZeroOrNaN a) (hb : ZeroOrNaN b) : fGt a b = false := by
  rcases ha with ha | ⟨na, rfl⟩
  · exact fGt_nan_left b ha
  · rcases hb with hb | ⟨nb, rfl⟩
    · exact fGt_nan_right _ hb
    · rw [fGt, fLt, fKey_zero, fKey_zero, decide_eq_false (lt_irrefl _), Bool.and_false]

theorem ZeroOrNaN.ite {p : Prop} [Decidable p] {a b : F64} (ha : ZeroOrNaN a) (hb : ZeroOrNaN b) :
    ZeroOrNaN (if p then a else b) := by
  split
  · exact ha
  · exact hb

/-! ### The detector on zeros and NaNs -/

/-- The power of a window of zeros and NaNs, at any tone (rule R171). -/
theorem zeroOrNaN_power {x : List F64} (hx : ∀ v ∈ x, ZeroOrNaN v) (fs f : F64) : ZeroOrNaN (power x fs f) := by
  rw [power, powerOfCoef]
  generalize fMul fTwo (Config.cos64 (angStep fs f)) = c
  obtain ⟨h1, h2⟩ : ZeroOrNaN (x.foldl (goertzelStep c) (fZero, fZero)).1 ∧
      ZeroOrNaN (x.foldl (goertzelStep c) (fZero, fZero)).2 :=
    List.foldlRecOn (motive := fun st : F64 × F64 => ZeroOrNaN st.1 ∧ ZeroOrNaN st.2) x _
      ⟨zeroOrNaN_fZero, zeroOrNaN_fZero⟩ fun st ⟨h1, h2⟩ v hv => ⟨((hx v hv).fAdd (h1.fMul c)).fSub h2, h1⟩
  have hq : ZeroOrNaN (goertzelQ c (x.foldl (goertzelStep c) (fZero, fZero))) :=
    ((h1.fMul _).fAdd (h2.fMul _)).fSub (h2.fMul _)
  exact ((zeroOrNaN_fZero.ite hq).fMul fTwo).fDiv _

/-- The mean square of a window of zeros and NaNs (rule R172). -/
theorem zeroOrNaN_meanSq {x : List F64} (hx : ∀ v ∈ x, ZeroOrNaN v) : ZeroOrNaN (meanSq x) :=
  ZeroOrNaN.fDiv (List.foldlRecOn x _ zeroOrNaN_fZero fun _ hacc v hv => hacc.fAdd ((hx v hv).fMul v)) _

/-- The powers of a lane, where a slot past the last reads +0.0. -/
theorem zeroOrNaN_lanePowers {x : List F64} (hx : ∀ v ∈ x, ZeroOrNaN v) (fs : F64) (freq : Nat → F64) (j v : Nat) :
    ZeroOrNaN ((lanePowers x fs freq j).getD v fZero) := by
  rw [lanePowers, List.getD_eq_getElem?_getD, List.getElem?_map]
  cases (List.range Config.slotsPerLane)[v]? with
  | none => exact zeroOrNaN_fZero
  | some u => exact zeroOrNaN_power hx _ _

section Lane

variable {pw : List F64} (hpw : ∀ v, ZeroOrNaN (pw.getD v fZero))
include hpw

theorem laneWinner_of_zeroOrNaN : laneWinner pw = 0 := laneWinner_eq_zero fun v => (hpw v).fGt_eq_false (hpw 0)

theorem zeroOrNaN_laneBase (w : Nat) {bmin : F64} (hb : ZeroOrNaN bmin) : ZeroOrNaN (laneBase pw w bmin) := by
  have hsum : ZeroOrNaN (losersSum pw w) :=
    List.foldlRecOn _ _ zeroOrNaN_fZero fun _ hrest v _ => hrest.ite (hrest.fAdd (hpw v))
  exact hb.ite (hsum.fDiv fFifteen)

/-- Such a lane is not reliable: its winning power does not exceed its floor strictly (rule R194). -/
theorem laneReliable_of_zeroOrNaN {bmin : F64} (hb : ZeroOrNaN bmin) (er : F64) : laneReliable pw bmin er = false :=
  (hpw _).fGt_eq_false ((zeroOrNaN_laneBase hpw _ hb).fMul er)

end Lane

/-- A window of zeros and NaNs demodulates to an erasure of value 0 (rule R194). -/
theorem detectSymbol_of_zeroOrNaN {x : List F64} (hx : ∀ v ∈ x, ZeroOrNaN v) (fs er : F64) (freq : Nat → F64) :
    detectSymbol x fs er freq = { value := 0, erasure := true, slot0 := 0, slot1 := 16 } := by
  have h0 := zeroOrNaN_lanePowers hx fs freq 0
  have h1 := zeroOrNaN_lanePowers hx fs freq 1
  have hb : ZeroOrNaN (fDiv (meanSq x) (fOfNat x.length)) := (zeroOrNaN_meanSq hx).fDiv _
  rw [detectSymbol, symbolOfLanes, laneWinner_of_zeroOrNaN h0, laneWinner_of_zeroOrNaN h1,
    laneReliable_of_zeroOrNaN h0 hb]
  rfl

/-! ### DETECT -/

/-- A DETECT that passes its checks on a written window ends with the window's symbol word. -/
theorem exec_detect_ready {s : State} (hv : s.cfgValid = true) (hw : s.winLenOk = true) (hr : s.winReady s.winCount) :
    exec .detect s =
      .next (State.done { s with res := { s.res with symbol := (s.detect (s.window s.winCount)).word } }) := by
  rcases exec_detect_cases s with ⟨h, -⟩ | ⟨-, h, -⟩ | ⟨-, -, ⟨-, h⟩ | ⟨j, hj, hn, -⟩⟩
  · simp [hv] at h
  · simp [hw] at h
  · exact h
  · exact absurd hn (winReady_sample_ne_none hr hj)

/-- Settles O29: DETECT passes its checks, and the word it writes is that of the window's symbol. -/
theorem detectWritesTheSymbolWord : Obligations.DetectWritesTheSymbolWord := fun s hv hlow hhigh hr =>
  ⟨s.detect (s.window s.winCount), rfl, exec_detect_ready hv ((winLenOk_iff s).2 ⟨hlow, hhigh⟩) hr⟩

/-- Settles O30: a window of zeros makes zeros and NaNs alone, so slot 0 wins each lane and neither is reliable. -/
theorem detectOfSilenceIsAnErasure : Obligations.DetectOfSilenceIsAnErasure := by
  intro s hv hlow hhigh hsilent
  have hr : s.winReady s.winCount := fun i hi => by rw [hsilent i hi]; rfl
  have hx : ∀ v ∈ s.window s.winCount, ZeroOrNaN v := by
    intro v hmem
    obtain ⟨i, hi, rfl⟩ := List.mem_map.1 hmem
    rw [hsilent i (List.mem_range.1 hi)]
    exact zeroOrNaN_fZero
  rw [exec_detect_ready hv ((winLenOk_iff s).2 ⟨hlow, hhigh⟩) hr, State.detect, detectSymbol_of_zeroOrNaN hx]
  rfl

end Sys2Proof.Machine
end

section
/-! PROOFS. The field GF(256) (rule R211): its operations on the powers of α, the tables, and the field laws. -/

namespace Sys2Proof.Machine

/-! ### Doubling and products -/

/-- Doubling is a shift, and the field polynomial's low byte is added where a bit falls out (rule R211). -/
theorem gfDouble_eq (a : Byte) : gfDouble a = a <<< 1 ^^^ (if a.msb then 0x1D#8 else 0#8) := by
  revert a
  decide +kernel

theorem gfDouble_xor (a b : Byte) : gfDouble (a ^^^ b) = gfDouble a ^^^ gfDouble b := by
  have hbit : ∀ x y : Bool, (if (x ^^ y) then 0x1D#8 else 0#8) =
      (if x then 0x1D#8 else 0#8) ^^^ (if y then 0x1D#8 else 0#8) := by decide
  rw [gfDouble_eq, gfDouble_eq, gfDouble_eq, BitVec.shiftLeft_xor_distrib, BitVec.msb_xor, hbit]
  ac_rfl

theorem gfDouble_zero : gfDouble 0 = 0 := by decide

theorem gfMulFrom_xor : ∀ (n : Nat) (a a' : Byte) (b : Nat),
    gfMulFrom n (a ^^^ a') b = gfMulFrom n a b ^^^ gfMulFrom n a' b
  | 0, _, _, _ => by simp [gfMulFrom]
  | n + 1, a, a', b => by
    rw [gfMulFrom, gfMulFrom, gfMulFrom, gfDouble_xor, gfMulFrom_xor n]
    split_ifs
    · ac_rfl
    · exact BitVec.zero_xor.trans (congrArg₂ (· ^^^ ·) BitVec.zero_xor.symm BitVec.zero_xor.symm)

theorem gfMulFrom_gfDouble : ∀ (n : Nat) (a : Byte) (b : Nat),
    gfMulFrom n (gfDouble a) b = gfDouble (gfMulFrom n a b)
  | 0, _, _ => gfDouble_zero.symm
  | n + 1, a, b => by
    rw [gfMulFrom, gfMulFrom, gfMulFrom_gfDouble n, gfDouble_xor, apply_ite gfDouble, gfDouble_zero]

theorem xor_gfMul (a a' b : Byte) : gfMul (a ^^^ a') b = gfMul a b ^^^ gfMul a' b := gfMulFrom_xor 8 a a' b.toNat

theorem gfDouble_gfMul (a b : Byte) : gfMul (gfDouble a) b = gfDouble (gfMul a b) := gfMulFrom_gfDouble 8 a b.toNat

theorem one_gfMul (b : Byte) : gfMul 1 b = b := by
  revert b
  decide +kernel

theorem zero_gfMul (b : Byte) : gfMul 0 b = 0 := by
  have h := xor_gfMul 0 0 b
  rwa [BitVec.xor_self, BitVec.xor_self] at h

theorem gfMul_zero (a : Byte) : gfMul a 0 = 0 := by
  revert a
  decide +kernel

/-! ### The powers of α -/

theorem gfExp_mul (i j : Nat) : gfMul (gfExp i) (gfExp j) = gfExp (i + j) := by
  induction i with
  | zero => rw [Nat.zero_add]; exact one_gfMul _
  | succ i ih => rw [gfExp, gfDouble_gfMul, ih, Nat.succ_add]; rfl

/-- Exponents count modulo one at which the power is 1. -/
theorem gfExp_mod_of_eq_one {m : Nat} (h : gfExp m = 1) (i : Nat) : gfExp (i % m) = gfExp i := by
  have hk : ∀ k, gfExp (m * k) = 1 := by
    intro k
    induction k with
    | zero => rfl
    | succ k ih => rw [Nat.mul_succ, ← gfExp_mul, ih, h, one_gfMul]
  calc gfExp (i % m) = gfMul 1 (gfExp (i % m)) := (one_gfMul _).symm
    _ = gfExp (m * (i / m) + i % m) := by rw [← hk (i / m), gfExp_mul]
    _ = gfExp i := by rw [Nat.div_add_mod]

theorem gfExp_255 : gfExp 255 = 1 := by decide +kernel

theorem gfExp_mod (i : Nat) : gfExp (i % 255) = gfExp i := gfExp_mod_of_eq_one gfExp_255 i

theorem gfExp_255_mul (i : Nat) : gfExp (255 * i) = 1 := by
  rw [← gfExp_mod, Nat.mul_mod_right]
  rfl

theorem gfExp_ne_zero (i : Nat) : gfExp i ≠ 0 := by
  intro h
  have hprod : gfMul (gfExp i) (gfExp (254 * i)) = 1 := by
    rw [gfExp_mul, ← gfExp_255_mul i]
    congr 1
    ring
  rw [h, zero_gfMul] at hprod
  exact absurd hprod (by decide)

theorem gfExp_gcd (m n : Nat) : gfExp m = 1 → gfExp n = 1 → gfExp (m.gcd n) = 1 := by
  induction m, n using Nat.gcd.induction with
  | H0 n =>
    rw [Nat.gcd_zero_left]
    exact fun _ h => h
  | H1 m n _ ih =>
    intro hm hn
    rw [Nat.gcd_rec]
    exact ih ((gfExp_mod_of_eq_one hm n).trans hn) hm

/-- The order of α is 255: it is no proper divisor of 255. -/
theorem gfExp_ne_one {d : Nat} (h0 : 0 < d) (hd : d < 255) : gfExp d ≠ 1 := by
  have hdiv : ∀ g < 255, g ∣ 255 → gfExp g ≠ 1 := by decide +kernel
  exact fun h => hdiv _ ((Nat.gcd_le_left 255 h0).trans_lt hd) (Nat.gcd_dvd_right d 255) (gfExp_gcd d 255 h gfExp_255)

/-- The powers of α below 255 are different. -/
theorem gfExp_inj {i j : Nat} (hi : i < 255) (hj : j < 255) (h : gfExp i = gfExp j) : i = j := by
  have hlt : ∀ i j, i < j → j < 255 → gfExp i ≠ gfExp j := by
    intro i j hij hj h
    refine gfExp_ne_one (Nat.sub_pos_of_lt hij) (by omega) ?_
    calc gfExp (j - i) = gfExp (j + (255 - i)) := by
          rw [← gfExp_mod (j + _), ← gfExp_mod]
          congr 1
          omega
      _ = 1 := by rw [← gfExp_mul, ← h, gfExp_mul, ← gfExp_255]; congr 1; omega
  by_contra hne
  rcases Nat.lt_or_gt_of_ne hne with hij | hij
  · exact hlt i j hij hj h
  · exact hlt j i hij hi h.symm

theorem gfLogFrom_gfExp : ∀ (n k j : Nat), k ≤ j → j < k + n → j < 255 → gfLogFrom n (gfExp k) k (gfExp j) = j
  | 0, k, j, hk, hj, _ => absurd hj (Nat.not_lt.2 hk)
  | n + 1, k, j, hk, hj, h => by
    rw [gfLogFrom]
    split_ifs with he
    · exact gfExp_inj (hk.trans_lt h) h he
    · have hne : k ≠ j := fun hkj => he (congrArg gfExp hkj)
      exact gfLogFrom_gfExp n (k + 1) j (by omega) (by omega) h

/-- LOG inverts EXP (rule R211). -/
theorem gfLog_gfExp {i : Nat} (h : i < 255) : gfLog (gfExp i) = i :=
  gfLogFrom_gfExp 255 0 i (Nat.zero_le i) (by omega) h

/-- Every nonzero element is a power of α: the 255 different powers are all there are (rule R211). -/
theorem exists_gfExp {a : Byte} (h : a ≠ 0) : ∃ i < 255, a = gfExp i := by
  have hsub : (Finset.range 255).image (fun i => (gfExp i).toNat) ⊆ Finset.Ico 1 256 := by
    intro v hv
    obtain ⟨i, -, rfl⟩ := Finset.mem_image.1 hv
    have h0 : (gfExp i).toNat ≠ 0 := fun hz => gfExp_ne_zero i (BitVec.eq_of_toNat_eq hz)
    exact Finset.mem_Ico.2 ⟨Nat.pos_of_ne_zero h0, (gfExp i).isLt⟩
  have hinj : Set.InjOn (fun i => (gfExp i).toNat) (Finset.range 255) :=
    fun _ hi _ hj hij => gfExp_inj (Finset.mem_range.1 hi) (Finset.mem_range.1 hj) (BitVec.eq_of_toNat_eq hij)
  have hall := Finset.eq_of_subset_of_card_le hsub
    (by rw [Finset.card_image_of_injOn hinj, Finset.card_range, Nat.card_Ico])
  have ha : a.toNat ∈ Finset.Ico 1 256 :=
    Finset.mem_Ico.2 ⟨Nat.pos_of_ne_zero fun hz => h (BitVec.eq_of_toNat_eq hz), a.isLt⟩
  obtain ⟨i, hi, hia⟩ := Finset.mem_image.1 (hall ▸ ha)
  exact ⟨i, Finset.mem_range.1 hi, (BitVec.eq_of_toNat_eq hia).symm⟩

/-! ### The field laws -/

theorem gfMul_comm (a b : Byte) : gfMul a b = gfMul b a := by
  rcases eq_or_ne a 0 with rfl | ha
  · rw [zero_gfMul, gfMul_zero]
  rcases eq_or_ne b 0 with rfl | hb
  · rw [zero_gfMul, gfMul_zero]
  obtain ⟨i, -, rfl⟩ := exists_gfExp ha
  obtain ⟨j, -, rfl⟩ := exists_gfExp hb
  rw [gfExp_mul, gfExp_mul, Nat.add_comm]

theorem gfMul_assoc (a b c : Byte) : gfMul (gfMul a b) c = gfMul a (gfMul b c) := by
  rcases eq_or_ne a 0 with rfl | ha
  · simp only [zero_gfMul]
  rcases eq_or_ne b 0 with rfl | hb
  · simp only [zero_gfMul, gfMul_zero]
  rcases eq_or_ne c 0 with rfl | hc
  · simp only [gfMul_zero]
  obtain ⟨i, -, rfl⟩ := exists_gfExp ha
  obtain ⟨j, -, rfl⟩ := exists_gfExp hb
  obtain ⟨k, -, rfl⟩ := exists_gfExp hc
  simp only [gfExp_mul, Nat.add_assoc]

theorem gfMul_xor (a b b' : Byte) : gfMul a (b ^^^ b') = gfMul a b ^^^ gfMul a b' := by
  rw [gfMul_comm, xor_gfMul, gfMul_comm b, gfMul_comm b']

/-- The product of the squares `a^2`, `a^4`, … of a power of α. -/
theorem gfInvFrom_gfExp : ∀ n i : Nat, gfInvFrom n (gfExp i) = gfExp ((2 ^ (n + 1) - 2) * i)
  | 0, i => by rw [show (2 ^ (0 + 1) - 2) * i = 0 from Nat.zero_mul i]; rfl
  | n + 1, i => by
    obtain ⟨q, hq⟩ := Nat.exists_eq_add_of_le (Nat.le_self_pow (Nat.succ_ne_zero n) 2)
    have hsucc : 2 ^ (n + 1 + 1) - 2 = 2 + 2 * q := by rw [Nat.pow_succ, hq]; omega
    rw [gfInvFrom, gfExp_mul, gfInvFrom_gfExp n, gfExp_mul, hsucc, hq, Nat.add_sub_cancel_left]
    congr 1
    ring

theorem gfInv_gfExp (i : Nat) : gfInv (gfExp i) = gfExp (254 * i) := gfInvFrom_gfExp 7 i

theorem gfMul_gfInv {a : Byte} (h : a ≠ 0) : gfMul a (gfInv a) = 1 := by
  obtain ⟨i, -, rfl⟩ := exists_gfExp h
  rw [gfInv_gfExp, gfExp_mul, ← gfExp_255_mul i]
  congr 1
  ring

/-- Settles O38: on powers of α a product adds the exponents and an inverse multiplies the exponent by 254. -/
theorem fieldOperationsAgreeWithTheTables : Obligations.FieldOperationsAgreeWithTheTables := by
  refine ⟨fun i _ => ?_, rfl, fun i => gfLog_gfExp, fun a b => ?_, fun a ha => ⟨?_, gfMul_gfInv ha⟩⟩
  · have h : ∀ a : Byte, (gfDouble a).toNat =
        if 2 * a.toNat < 0x100 then 2 * a.toNat else (2 * a.toNat) ^^^ 0x11D := by decide +kernel
    exact h _
  · split_ifs with h
    · rcases h with rfl | rfl
      · exact zero_gfMul b
      · exact gfMul_zero a
    · obtain ⟨ha, hb⟩ := not_or.1 h
      obtain ⟨i, hi, rfl⟩ := exists_gfExp ha
      obtain ⟨j, hj, rfl⟩ := exists_gfExp hb
      rw [gfLog_gfExp hi, gfLog_gfExp hj, gfExp_mod, gfExp_mul]
  · obtain ⟨i, hi, rfl⟩ := exists_gfExp ha
    rw [gfInv_gfExp, gfLog_gfExp hi, ← gfExp_mod (254 * i)]
    congr 1
    omega

end Sys2Proof.Machine
end

section
/-! PROOFS. The bytes stand for the elements of a field of characteristic 2, and the coefficient lists of the codec for
polynomials over it (rules R211, R213, R217). -/

namespace Sys2Proof.Machine

/-- The field whose elements are the bytes, with XOR as its sum and `gmul` as its product (rule R211). -/
abbrev byteField : Field Byte :=
  @Field.ofMinimalAxioms Byte ⟨(· ^^^ ·)⟩ ⟨gfMul⟩ ⟨id⟩ ⟨gfInv⟩ ⟨0⟩ ⟨1⟩ BitVec.xor_assoc (fun _ => BitVec.zero_xor)
    (fun _ => BitVec.xor_self) gfMul_assoc gfMul_comm one_gfMul (fun _ => gfMul_gfInv) (by decide) gfMul_xor
    ⟨0, 1, by decide⟩

/-- `φ` reads each byte as an element of the field `K`, one to one, and takes the operations of rule R211 to those of
the field. -/
structure FieldModel {K : Type} [Field K] (φ : Byte → K) : Prop where
  injective : Function.Injective φ
  map_xor : ∀ a b, φ (a ^^^ b) = φ a + φ b
  map_gfMul : ∀ a b, φ (gfMul a b) = φ a * φ b
  map_one : φ 1 = 1

/-- There is such a field. -/
theorem exists_fieldModel : ∃ (K : Type) (_ : Field K) (_ : CharP K 2) (φ : Byte → K), FieldModel φ :=
  let := byteField
  ⟨Byte, byteField,
    CharTwo.of_one_ne_zero_of_two_eq_zero one_ne_zero (one_add_one_eq_two.symm.trans BitVec.xor_self), id,
    { injective := Function.injective_id
      map_xor := fun _ _ => rfl
      map_gfMul := fun _ _ => rfl
      map_one := rfl }⟩

section
variable {K : Type} [Field K] {φ : Byte → K} (hφ : FieldModel φ)
include hφ

namespace FieldModel

theorem map_zero : φ 0 = 0 := by
  have h : φ 0 = φ 0 + φ 0 := hφ.map_xor 0 0
  rwa [left_eq_add] at h

theorem eq_zero_iff {a : Byte} : φ a = 0 ↔ a = 0 := by
  rw [← hφ.map_zero, hφ.injective.eq_iff]

theorem map_gfInv (a : Byte) : φ (gfInv a) = (φ a)⁻¹ := by
  rcases eq_or_ne a 0 with rfl | h
  · rw [show gfInv 0 = 0 by decide, hφ.map_zero, inv_zero]
  · exact eq_inv_of_mul_eq_one_right (by rw [← hφ.map_gfMul, gfMul_gfInv h, hφ.map_one])

theorem map_gfExp (i : Nat) : φ (gfExp i) = φ 2 ^ i := by
  induction i with
  | zero => rw [pow_zero]; exact hφ.map_one
  | succ i ih => rw [pow_succ, ← ih, ← hφ.map_gfMul, show (2 : Byte) = gfExp 1 by decide, gfExp_mul]

/-! ### Words read as polynomials, highest degree first -/

theorem map_polyEvalHigh_nil (x : Byte) : φ (polyEvalHigh [] x) = 0 := hφ.map_zero

/-- One more symbol in front adds its multiple of the highest power. -/
theorem map_polyEvalHigh_cons (a : Byte) (c : List Byte) (x : Byte) :
    φ (polyEvalHigh (a :: c) x) = φ a * φ x ^ c.length + φ (polyEvalHigh c x) := by
  have hacc : ∀ (c : List Byte) (acc : Byte), φ (c.foldl (fun acc k => gfMul acc x ^^^ k) acc) =
      φ acc * φ x ^ c.length + φ (c.foldl (fun acc k => gfMul acc x ^^^ k) 0) := by
    intro c
    induction c with
    | nil =>
      intro acc
      rw [List.foldl_nil, List.foldl_nil, List.length_nil, pow_zero, mul_one, hφ.map_zero, add_zero]
    | cons b c ih =>
      intro acc
      rw [List.foldl_cons, List.foldl_cons, ih, ih (gfMul 0 x ^^^ b), hφ.map_xor, hφ.map_xor, hφ.map_gfMul, zero_gfMul,
        hφ.map_zero, List.length_cons]
      ring
  have h0 : (0 : Byte) ^^^ a = a := BitVec.zero_xor
  rw [polyEvalHigh, List.foldl_cons, zero_gfMul, h0]
  exact hacc c a

theorem map_polyEvalHigh_append (c d : List Byte) (x : Byte) :
    φ (polyEvalHigh (c ++ d) x) = φ (polyEvalHigh c x) * φ x ^ d.length + φ (polyEvalHigh d x) := by
  induction c with
  | nil => rw [List.nil_append, hφ.map_polyEvalHigh_nil, zero_mul, zero_add]
  | cons a c ih =>
    rw [List.cons_append, hφ.map_polyEvalHigh_cons, hφ.map_polyEvalHigh_cons, ih, List.length_append]
    ring

theorem map_polyEvalHigh_replicate_zero (n : Nat) (x : Byte) : φ (polyEvalHigh (List.replicate n 0) x) = 0 := by
  induction n with
  | zero => exact hφ.map_zero
  | succ n ih => rw [List.replicate_succ, hφ.map_polyEvalHigh_cons, ih, hφ.map_zero, zero_mul, add_zero]

/-- The value of a word as a sum over its positions (rule R213). -/
theorem map_polyEvalHigh_eq_sum (c : List Byte) (x : Byte) :
    φ (polyEvalHigh c x) = ∑ i ∈ Finset.range c.length, φ (c.getD i 0) * φ x ^ (c.length - 1 - i) := by
  induction c with
  | nil => exact hφ.map_zero
  | cons a c ih =>
    rw [hφ.map_polyEvalHigh_cons, ih, List.length_cons, Finset.sum_range_succ', add_comm]
    congr 1
    refine Finset.sum_congr rfl fun i _ => ?_
    rw [List.getD_cons_succ, show c.length + 1 - 1 - (i + 1) = c.length - 1 - i by omega]

theorem map_polyEvalHigh_zipWith (x : Byte) : ∀ a b : List Byte, a.length = b.length →
    φ (polyEvalHigh (List.zipWith (· ^^^ ·) a b) x) = φ (polyEvalHigh a x) + φ (polyEvalHigh b x)
  | [], [], _ => by rw [List.zipWith_nil_left, hφ.map_polyEvalHigh_nil, add_zero]
  | a :: as, b :: bs, h => by
    have hl : as.length = bs.length := Nat.succ.inj h
    have hz : (List.zipWith (· ^^^ ·) as bs).length = bs.length := by rw [List.length_zipWith, hl, Nat.min_self]
    rw [List.zipWith_cons_cons, hφ.map_polyEvalHigh_cons, hφ.map_polyEvalHigh_cons, hφ.map_polyEvalHigh_cons,
      map_polyEvalHigh_zipWith x as bs hl, hφ.map_xor, hz, hl]
    ring

theorem map_polyEvalHigh_polyScale (k : Byte) (c : List Byte) (x : Byte) :
    φ (polyEvalHigh (polyScale k c) x) = φ k * φ (polyEvalHigh c x) := by
  induction c with
  | nil => rw [polyScale, List.map_nil, hφ.map_polyEvalHigh_nil, mul_zero]
  | cons a c ih =>
    rw [polyScale, List.map_cons, hφ.map_polyEvalHigh_cons, hφ.map_polyEvalHigh_cons, List.length_map,
      hφ.map_gfMul, ← polyScale, ih]
    ring

end FieldModel
end

end Sys2Proof.Machine
end

section
/-! PROOFS. The encoder (rules R212 to R214, R216). -/

namespace Sys2Proof.Machine

/-! ### The generator polynomial -/

theorem genPoly_succ (p : Nat) : genPoly (p + 1) = genTimesRoot (genPoly p) p := by
  rw [genPoly, List.range_succ, List.foldl_concat]
  rfl

theorem genTimesRoot_length (g : List Byte) (i : Nat) : (genTimesRoot g i).length = g.length + 1 := by
  simp [genTimesRoot, polyScale]

theorem genPoly_length (p : Nat) : (genPoly p).length = p + 1 := by
  induction p with
  | zero => rfl
  | succ p ih => rw [genPoly_succ, genTimesRoot_length, ih]

/-- The generator is monic (rule R212). -/
theorem genPoly_head (p : Nat) : (genPoly p).head? = some 1 := by
  induction p with
  | zero => rfl
  | succ p ih =>
    obtain ⟨g, hg⟩ := List.head?_eq_some_iff.1 ih
    rw [genPoly_succ, hg]
    rfl

section
variable {K : Type} [Field K] {φ : Byte → K} (hφ : FieldModel φ)
include hφ

namespace FieldModel

theorem map_polyEvalHigh_genTimesRoot (g : List Byte) (i : Nat) (x : Byte) :
    φ (polyEvalHigh (genTimesRoot g i) x) = φ (polyEvalHigh g x) * (φ x + φ (gfExp i)) := by
  rw [genTimesRoot, hφ.map_polyEvalHigh_zipWith _ _ _ (by simp [polyScale]), hφ.map_polyEvalHigh_append,
    hφ.map_polyEvalHigh_cons, hφ.map_polyEvalHigh_cons, hφ.map_polyEvalHigh_polyScale, hφ.map_polyEvalHigh_nil,
    hφ.map_zero, List.length_singleton]
  ring

/-- The roots of the generator (rule R212). -/
theorem polyEvalHigh_genPoly [CharP K 2] {p i : Nat} (h : i < p) : polyEvalHigh (genPoly p) (gfExp i) = 0 := by
  induction p with
  | zero => exact absurd h (Nat.not_lt_zero i)
  | succ p ih =>
    rw [← hφ.eq_zero_iff, genPoly_succ, hφ.map_polyEvalHigh_genTimesRoot]
    rcases Nat.lt_succ_iff_lt_or_eq.1 h with h | rfl
    · rw [ih h, hφ.map_zero, zero_mul]
    · rw [CharTwo.add_self_eq_zero, mul_zero]

/-! ### The division loop -/

theorem map_polyEvalHigh_xorFront (x : Byte) : ∀ g r : List Byte, g.length ≤ r.length →
    φ (polyEvalHigh (xorFront g r) x) = φ (polyEvalHigh g x) * φ x ^ (r.length - g.length) + φ (polyEvalHigh r x)
  | [], r, _ => by rw [xorFront, hφ.map_polyEvalHigh_nil, zero_mul, zero_add]
  | a :: g, b :: r, h => by
    have h' : g.length ≤ r.length := Nat.le_of_succ_le_succ h
    rw [xorFront, hφ.map_polyEvalHigh_cons, hφ.map_polyEvalHigh_cons, hφ.map_polyEvalHigh_cons,
      map_polyEvalHigh_xorFront x g r h', hφ.map_xor, xorFront_length, List.length_cons, List.length_cons,
      Nat.add_sub_add_right, ← Nat.sub_add_cancel h', Nat.add_sub_cancel, pow_add]
    ring

/-- Dividing by a monic polynomial does not change the value at a root of it. -/
theorem map_polyEvalHigh_rsRemainder [CharP K 2] {gLow : List Byte} {x : Byte}
    (hroot : polyEvalHigh (1 :: gLow) x = 0) :
    ∀ (n : Nat) (r : List Byte), n + gLow.length ≤ r.length →
      φ (polyEvalHigh (rsRemainder gLow n r) x) = φ (polyEvalHigh r x)
  | 0, _, _ => rfl
  | n + 1, [], h => by simp at h
  | n + 1, c :: r, h => by
    have hlen : n + gLow.length ≤ r.length := by rw [List.length_cons] at h; omega
    have hlow : φ (polyEvalHigh gLow x) = φ x ^ gLow.length := by
      rwa [← hφ.eq_zero_iff, hφ.map_polyEvalHigh_cons, hφ.map_one, one_mul, CharTwo.add_eq_zero, eq_comm] at hroot
    have hpow : φ x ^ gLow.length * φ x ^ (r.length - gLow.length) = φ x ^ r.length := by
      rw [← pow_add, Nat.add_sub_cancel' (by omega)]
    rw [rsRemainder, map_polyEvalHigh_rsRemainder hroot n _ (by rw [xorFront_length]; exact hlen),
      hφ.map_polyEvalHigh_xorFront x _ _ (by rw [polyScale, List.length_map]; omega), hφ.map_polyEvalHigh_polyScale,
      hφ.map_polyEvalHigh_cons, hlow, polyScale, List.length_map, mul_assoc, hpow]

/-- RsEncode gives a codeword (rules R213, R214). -/
theorem polyEvalHigh_rsEncode [CharP K 2] {p j : Nat} (m : List Byte) (h : j < p) :
    polyEvalHigh (rsEncode p m) (gfExp j) = 0 := by
  obtain ⟨gLow, hg⟩ := List.head?_eq_some_iff.1 (genPoly_head p)
  have hlow : gLow.length = p := by
    have hlen := genPoly_length p
    rw [hg] at hlen
    exact Nat.succ.inj hlen
  have hroot : polyEvalHigh (1 :: gLow) (gfExp j) = 0 := hg ▸ hφ.polyEvalHigh_genPoly h
  rw [← hφ.eq_zero_iff, rsEncode, hg, List.tail_cons, hφ.map_polyEvalHigh_append,
    hφ.map_polyEvalHigh_rsRemainder hroot _ _ (by simp [hlow]), rsRemainder_length, hφ.map_polyEvalHigh_append,
    hφ.map_polyEvalHigh_replicate_zero, List.length_append, List.length_replicate, Nat.add_sub_cancel_left, add_zero,
    CharTwo.add_self_eq_zero]

end FieldModel
end

theorem isCodeword_rsEncode (p : Nat) (m : List Byte) : IsCodeword p (m.length + p) (rsEncode p m) := by
  obtain ⟨K, _, _, φ, hφ⟩ := exists_fieldModel
  exact ⟨rsEncode_length p m, fun j hj => hφ.polyEvalHigh_rsEncode m hj⟩

theorem rsEncode_take (p : Nat) (m : List Byte) : (rsEncode p m).take m.length = m := List.take_left

/-- Settles O39: by induction on the parity length, and because the division loop keeps the value at the generator's
roots. -/
theorem rsEncodeGivesASystematicCodeword : Obligations.RsEncodeGivesASystematicCodeword := by
  obtain ⟨K, _, _, φ, hφ⟩ := exists_fieldModel
  exact ⟨fun p => ⟨genPoly_length p, genPoly_head p, fun i hi => hφ.polyEvalHigh_genPoly hi⟩,
    fun p m => ⟨rsEncode_take p m, isCodeword_rsEncode p m⟩⟩

/-! ### RSENC -/

/-- Settles O40: RSENC passes its checks, and its store writes the elements of the codeword and no other byte. -/
theorem rsencWritesTheCodeword : Obligations.RsencWritesTheCodeword := by
  intro s hv hpay hr
  have hlen : (rsEncode s.parity (s.payload s.len)).length = s.len + s.parity := by
    rw [rsEncode_length, values_length]
  rcases exec_rsenc_cases s with ⟨h, -⟩ | ⟨-, h, -⟩ | ⟨-, -, ⟨-, h⟩ | ⟨j, hj, hn, -⟩⟩
  · simp [hv] at h
  · exact absurd hpay h
  · refine ⟨_, h, rfl, fun i hi => ?_, fun a ha => ?_⟩
    · rw [← hlen] at hi
      rw [State.done_byteElem, storeBytes_elem _ _ _ _ hi, List.getD_eq_getElem _ _ hi]
    · rw [State.done_mem, storeBytes_frame _ _ _ _ (hlen ▸ ha)]
  · exact absurd hn (Option.isSome_iff_ne_none.1 (hr j hj))

end Sys2Proof.Machine
end

section
/-! PROOFS. What the decoder answers on every input: its outcomes, their soundness and what they do not depend on (rules
R215, R218, R219). -/

namespace Sys2Proof.Machine

/-! ### The decoder's intermediate values -/

/-- The received word with the erased symbols replaced by 0: `r'` of rule R217. -/
def zeroErased (r : List Byte) (era : List Bool) : List Byte :=
  (List.range r.length).map (fun i => if era.getD i false then 0 else r.getD i 0)

/-- The inputs `T_s, …, T_{P-1}` of the Berlekamp-Massey algorithm (rule R217), from the word `rz` with its erased
symbols replaced by 0. -/
def modifiedSyndromes (p n : Nat) (era : List Bool) (rz : List Byte) : List Byte :=
  ((polyMul (syndromes p rz) (erasureLocator n (flagged era))).take p).drop (erasureCount era)

/-- The locator of the errors outside the erasures that the decoder finds: `Λ` of rule R217. -/
def errorLocator (p n : Nat) (era : List Bool) (rz : List Byte) : List Byte :=
  berlekampMassey (modifiedSyndromes p n era rz)

theorem rsDecode_eq (len p : Nat) (r : List Byte) (era : List Bool) :
    rsDecode len p r era =
      if p < erasureCount era then .failure (erasureCount era)
      else if p < 2 * polyDegree (errorLocator p r.length era (zeroErased r era)) + erasureCount era then
        .failure (erasureCount era)
      else
        rsCorrect len p (erasureCount era) r era (zeroErased r era) (syndromes p (zeroErased r era))
          (polyMul (errorLocator p r.length era (zeroErased r era)) (erasureLocator r.length (flagged era))) := rfl

/-- The positions the Chien search finds (rule R217). -/
def locatorRoots (n : Nat) (psi : List Byte) : List Nat :=
  (List.range n).filter (fun i => polyEval psi (gfInv (locator n i)) == 0)

theorem rsCorrect_eq (len p s : Nat) (r : List Byte) (era : List Bool) (rz synd psi : List Byte) :
    rsCorrect len p s r era rz synd psi =
      if (locatorRoots r.length psi).length ≠ polyDegree psi then .failure s
      else if (locatorRoots r.length psi).any
          (fun i => polyEval (polyDeriv psi) (gfInv (locator r.length i)) == 0) then .failure s
      else rsAccept len p s r era (forneyCorrect r.length ((polyMul synd psi).take p) (polyDeriv psi)
        (locatorRoots r.length psi) rz) := rfl

/-! ### The outcomes -/

theorem WithinRadius.length_eq {p : Nat} {r c : List Byte} {era : List Bool} (h : WithinRadius p r era c) :
    c.length = r.length := h.1.1

theorem syndromes_any_eq_false_iff (p : Nat) (c : List Byte) :
    (syndromes p c).any (fun y => y != 0) = false ↔ ∀ j, j < p → polyEvalHigh c (gfExp j) = 0 := by
  simp [syndromes, List.any_eq_false]

/-- The final checks accept the codewords within the radius and no other word (rule R217). -/
theorem rsAccept_cases (len p : Nat) (r : List Byte) (era : List Bool) {c : List Byte} (hc : c.length = r.length) :
    (WithinRadius p r era c ∧
      rsAccept len p (erasureCount era) r era c =
        .success (c.take len) (errorsOutside r era c) (erasureCount era)) ∨
    (¬ WithinRadius p r era c ∧ rsAccept len p (erasureCount era) r era c = .failure (erasureCount era)) := by
  unfold rsAccept
  split_ifs with hs he
  · refine .inr ⟨fun ⟨⟨_, hzero⟩, _⟩ => ?_, rfl⟩
    rw [(syndromes_any_eq_false_iff p c).2 hzero] at hs
    exact absurd hs (by decide)
  · exact .inr ⟨fun ⟨_, hrad⟩ => absurd hrad (Nat.not_le.2 he), rfl⟩
  · exact .inl ⟨⟨⟨hc, (syndromes_any_eq_false_iff p c).1 (Bool.eq_false_iff.2 hs)⟩, Nat.not_lt.1 he⟩, rfl⟩

theorem forneyCorrect_length (n : Nat) (omega dpsi : List Byte) (roots : List Nat) (r : List Byte) :
    (forneyCorrect n omega dpsi roots r).length = n := by
  rw [forneyCorrect, List.length_map, List.length_range]

/-- A decoder's answer is sound: a success names a codeword within the radius with its counts, a failure the number of
erasures (rules R215, R218). -/
def SoundAnswer (len p : Nat) (r : List Byte) (era : List Bool) (res : RsResult) : Prop :=
  (∃ c, WithinRadius p r era c ∧ res = .success (c.take len) (errorsOutside r era c) (erasureCount era)) ∨
    res = .failure (erasureCount era)

theorem soundAnswer_rsCorrect (len p : Nat) (r : List Byte) (era : List Bool) (rz synd psi : List Byte) :
    SoundAnswer len p r era (rsCorrect len p (erasureCount era) r era rz synd psi) := by
  rw [rsCorrect_eq]
  split_ifs
  · exact .inr rfl
  · exact .inr rfl
  · rcases rsAccept_cases len p r era (forneyCorrect_length r.length _ _ _ rz) with ⟨hw, h⟩ | ⟨-, h⟩
    · exact .inl ⟨_, hw, h⟩
    · exact .inr h

theorem soundAnswer_rsDecode (len p : Nat) (r : List Byte) (era : List Bool) :
    SoundAnswer len p r era (rsDecode len p r era) := by
  rw [rsDecode_eq]
  split_ifs
  · exact .inr rfl
  · exact .inr rfl
  · exact soundAnswer_rsCorrect len p r era _ _ _

/-- Settles O43: only the final checks answer a success, and every failure reports the erasures. -/
theorem rsDecodeSuccessIsACodewordWithinTheRadius : Obligations.RsDecodeSuccessIsACodewordWithinTheRadius := by
  intro len p r era
  rcases soundAnswer_rsDecode len p r era with ⟨c, hw, h⟩ | h
  · rw [h]
    refine ⟨fun m e n hs => ?_, fun n hf => nomatch hf⟩
    obtain ⟨rfl, rfl, rfl⟩ := RsResult.success.inj hs
    exact ⟨c, hw, rfl, rfl, rfl⟩
  · rw [h]
    exact ⟨fun m e n hs => (nomatch hs), fun n hf => (RsResult.failure.inj hf).symm⟩

/-! ### Erased values -/

section
variable {r q : List Byte} {era : List Bool} (hlen : r.length = q.length)
  (hagree : ∀ i, i < r.length → era.getD i false = false → r.getD i 0 = q.getD i 0)
include hlen hagree

theorem errorsOutside_congr (c : List Byte) : errorsOutside r era c = errorsOutside q era c := by
  rw [errorsOutside, errorsOutside, ← hlen]
  refine congrArg List.length (List.filter_congr fun i hi => ?_)
  cases he : era.getD i false
  · rw [hagree i (List.mem_range.1 hi) he]
  · rfl

theorem rsAccept_congr (len p s : Nat) (c : List Byte) : rsAccept len p s r era c = rsAccept len p s q era c := by
  rw [rsAccept, rsAccept, errorsOutside_congr hlen hagree]

theorem rsCorrect_congr (len p s : Nat) (rz synd psi : List Byte) :
    rsCorrect len p s r era rz synd psi = rsCorrect len p s q era rz synd psi := by
  rw [rsCorrect, rsCorrect, ← hlen]
  simp only [rsAccept_congr hlen hagree]

theorem zeroErased_congr : zeroErased r era = zeroErased q era := by
  rw [zeroErased, zeroErased, ← hlen]
  refine List.map_congr_left fun i hi => ?_
  cases he : era.getD i false
  · exact hagree i (List.mem_range.1 hi) he
  · rfl

theorem rsDecode_congr (len p : Nat) : rsDecode len p r era = rsDecode len p q era := by
  rw [rsDecode_eq, rsDecode_eq, zeroErased_congr hlen hagree, hlen, rsCorrect_congr hlen hagree]

end

/-- Settles O44: the decoder zeroes the erased values before it computes with them, and counts errors outside them. -/
theorem erasedValuesDoNotMatter : Obligations.ErasedValuesDoNotMatter :=
  fun len p _ _ _ hlen hagree => rsDecode_congr hlen hagree len p

/-! ### RSDEC -/

theorem exec_rsdec_ready {s : State} (hv : s.cfgValid = true) (hr : s.cwReady s.ncw) :
    exec .rsdec s = .next (rsdecFinish s (rsDecode s.len s.parity (s.cwBytes s.ncw) (s.erasBits s.ncw))) := by
  rcases exec_rsdec_cases s with ⟨h, -⟩ | ⟨-, ⟨-, h⟩ | ⟨b, j, hj, rfl | rfl, hn, -⟩⟩
  · simp [hv] at h
  · exact h
  · exact absurd hn (by rw [State.written, hr.1 j hj]; decide)
  · exact absurd hn (by rw [State.written, hr.2 j hj]; decide)

/-- Settles O41: RSDEC reads both buffers and ends as the decoder's answer says. -/
theorem rsdecWritesTheMessageOrReportsFailure : Obligations.RsdecWritesTheMessageOrReportsFailure := by
  intro s hv hr
  refine ⟨fun m e n hs => ?_, fun n hf => ?_⟩
  · refine ⟨_, exec_rsdec_ready hv hr, ?_⟩
    rw [hs]
    refine ⟨rfl, fun i hi => ?_, fun a ha => storeBytes_frame s .pay m a ha⟩
    exact (storeBytes_elem s .pay m i hi).trans (by rw [List.getD_eq_getElem _ _ hi])
  · rw [exec_rsdec_ready hv hr, hf]
    rfl

end Sys2Proof.Machine
end

section
/-! PROOFS. The coefficient lists of rule R217, lowest degree first, as polynomials over the field. -/

namespace Sys2Proof.Machine

open Polynomial

section
variable {K : Type} [Field K]

/-- The polynomial of a coefficient list, lowest degree first. -/
noncomputable def toPoly (φ : Byte → K) : List Byte → K[X]
  | [] => 0
  | a :: p => C (φ a) + X * toPoly φ p

variable {φ : Byte → K} (hφ : FieldModel φ)
include hφ

namespace FieldModel

theorem toPoly_one : toPoly φ [1] = 1 := by
  rw [toPoly, toPoly, mul_zero, add_zero, hφ.map_one, C_1]

theorem coeff_toPoly : ∀ (p : List Byte) (i : Nat), (toPoly φ p).coeff i = φ (p.getD i 0)
  | [], i => by rw [toPoly, coeff_zero, List.getD_nil, hφ.map_zero]
  | a :: p, 0 => by simp [toPoly]
  | a :: p, i + 1 => by
    rw [toPoly, coeff_add, coeff_C_succ, coeff_X_mul, zero_add, coeff_toPoly p i, List.getD_cons_succ]

theorem toPoly_polyAdd : ∀ p q : List Byte, toPoly φ (polyAdd p q) = toPoly φ p + toPoly φ q
  | [], q => by rw [polyAdd, toPoly, zero_add]
  | a :: p, [] => by rw [polyAdd, toPoly, add_zero]; simp
  | a :: p, b :: q => by
    rw [polyAdd, toPoly, toPoly, toPoly, toPoly_polyAdd p q, hφ.map_xor, C_add]
    ring

theorem toPoly_polyScale (k : Byte) (p : List Byte) : toPoly φ (polyScale k p) = C (φ k) * toPoly φ p := by
  induction p with
  | nil => rw [polyScale, List.map_nil, toPoly, mul_zero]
  | cons a p ih =>
    rw [polyScale, List.map_cons, ← polyScale, toPoly, toPoly, ih, hφ.map_gfMul, C_mul]
    ring

theorem toPoly_zero_cons (p : List Byte) : toPoly φ (0 :: p) = X * toPoly φ p := by
  rw [toPoly, hφ.map_zero, C_0, zero_add]

theorem toPoly_polyMul (p q : List Byte) : toPoly φ (polyMul p q) = toPoly φ p * toPoly φ q := by
  induction p with
  | nil => rw [polyMul, toPoly, zero_mul]
  | cons a p ih =>
    rw [polyMul, hφ.toPoly_polyAdd, hφ.toPoly_polyScale, hφ.toPoly_zero_cons, ih, toPoly]
    ring

theorem map_polyEval (p : List Byte) (x : Byte) : φ (polyEval p x) = (toPoly φ p).eval (φ x) := by
  induction p with
  | nil => rw [toPoly, eval_zero]; exact hφ.map_zero
  | cons a p ih =>
    rw [polyEval, List.foldr_cons, ← polyEval, hφ.map_xor, hφ.map_gfMul, ih, toPoly, eval_add, eval_C, eval_mul, eval_X,
      mul_comm]

theorem toPoly_replicate_zero_append (n : Nat) (p : List Byte) :
    toPoly φ (List.replicate n 0 ++ p) = X ^ n * toPoly φ p := by
  induction n with
  | zero => simp
  | succ n ih => rw [List.replicate_succ, List.cons_append, hφ.toPoly_zero_cons, ih, pow_succ']; ring

/-- In characteristic 2 the derivative keeps the odd-degree terms (rule R217). -/
theorem toPoly_polyDeriv [CharP K 2] : ∀ p : List Byte, toPoly φ (polyDeriv p) = derivative (toPoly φ p)
  | [] => by simp [polyDeriv, toPoly]
  | [a] => by simp [polyDeriv, toPoly]
  | a :: c :: p => by
    have h2 : toPoly φ p + toPoly φ p = 0 := CharTwo.add_self_eq_zero _
    simp only [polyDeriv, toPoly, toPoly_polyDeriv p, hφ.map_zero, derivative_add, derivative_mul, derivative_C,
      derivative_X, C_0]
    linear_combination (-X) * h2

theorem coeff_toPoly_take (p : List Byte) (n i : Nat) :
    (toPoly φ (p.take n)).coeff i = if i < n then (toPoly φ p).coeff i else 0 := by
  rw [hφ.coeff_toPoly, hφ.coeff_toPoly, List.getD_eq_getElem?_getD, List.getElem?_take, List.getD_eq_getElem?_getD]
  split_ifs
  · rfl
  · exact hφ.map_zero

/-! ### The degree -/

omit hφ in
theorem polyTrim_concat (p : List Byte) (a : Byte) :
    polyTrim (p ++ [a]) = if a = 0 then polyTrim p else p ++ [a] := by
  rw [polyTrim, List.reverse_append, List.reverse_singleton, List.singleton_append, List.dropWhile_cons]
  by_cases h : a = 0
  · rw [if_pos (by rw [h]; rfl), if_pos h, polyTrim]
  · rw [if_neg (by rw [beq_iff_eq]; exact h), if_neg h, List.reverse_cons, List.reverse_reverse]

theorem toPoly_concat_zero (p : List Byte) : toPoly φ (p ++ [0]) = toPoly φ p := by
  induction p with
  | nil => rw [List.nil_append, hφ.toPoly_zero_cons, toPoly, mul_zero]
  | cons a p ih => rw [List.cons_append, toPoly, ih, toPoly]

theorem toPoly_polyTrim (p : List Byte) : toPoly φ (polyTrim p) = toPoly φ p := by
  induction p using List.reverseRecOn with
  | nil => rfl
  | append_singleton p a ih =>
    rw [polyTrim_concat]
    split_ifs with h
    · rw [ih, h, hφ.toPoly_concat_zero]
    · rfl

theorem natDegree_toPoly (p : List Byte) : (toPoly φ p).natDegree = polyDegree p := by
  induction p using List.reverseRecOn with
  | nil => exact natDegree_zero
  | append_singleton p a ih =>
    rw [polyDegree, polyTrim_concat]
    split_ifs with h
    · rw [h, hφ.toPoly_concat_zero, ih, polyDegree]
    · rw [List.length_append, List.length_singleton, Nat.add_sub_cancel]
      refine natDegree_eq_of_le_of_coeff_ne_zero (natDegree_le_iff_coeff_eq_zero.2 fun i hi => ?_) ?_
      · rw [hφ.coeff_toPoly, List.getD_eq_default _ _ (by simp; omega), hφ.map_zero]
      · rw [hφ.coeff_toPoly, List.getD_append_right _ _ _ _ le_rfl, Nat.sub_self]
        exact fun h0 => h (hφ.eq_zero_iff.1 h0)

end FieldModel
end

end Sys2Proof.Machine
end

section
/-! PROOFS. The Berlekamp-Massey algorithm finds a shortest register (rule R217). A sequence `t_0, t_1, …` enters as the
polynomial `F = 1 + t_0·x + t_1·x² + …`: with the 1 in front, the state before the first input meets the same invariant
as every later one. -/

namespace Sys2Proof.Machine

open Polynomial

/-! ### Coefficients of a product with a short factor -/

section
variable {K : Type} [Field K]

theorem coeff_mul_of_natDegree_le {D A : K[X]} {v n : Nat} (hD : D.natDegree ≤ v) (hn : v ≤ n) :
    (D * A).coeff n = ∑ i ∈ Finset.range (v + 1), D.coeff i * A.coeff (n - i) := by
  rw [coeff_mul, Finset.Nat.sum_antidiagonal_eq_sum_range_succ fun i j => D.coeff i * A.coeff j]
  refine (Finset.sum_subset (Finset.range_mono (Nat.succ_le_succ hn)) fun i _ hi => ?_).symm
  rw [coeff_eq_zero_of_natDegree_lt (by rw [Finset.mem_range] at hi; omega), zero_mul]

/-- Where the `v` coefficients of `A` below degree `n` are 0, only the constant term of a factor of degree at most `v`
meets degree `n`. -/
theorem coeff_mul_of_coeff_eq_zero {D A : K[X]} {v n : Nat} (hD : D.natDegree ≤ v) (hn : v ≤ n)
    (hA : ∀ k, n < k + v + 1 → k < n → A.coeff k = 0) : (D * A).coeff n = D.coeff 0 * A.coeff n := by
  rw [coeff_mul_of_natDegree_le hD hn, Finset.sum_range_succ', Nat.sub_zero, add_eq_right]
  refine Finset.sum_eq_zero fun i hi => ?_
  rw [Finset.mem_range] at hi
  rw [hA _ (by omega) (by omega), mul_zero]

/-! ### Registers -/

/-- `D` is the connection polynomial of a register of length `v` that generates the first `n` inputs of `F`. -/
structure Generates (F D : K[X]) (v n : Nat) : Prop where
  one : D.coeff 0 = 1
  degree : D.natDegree ≤ v
  zero : ∀ k, v < k → k ≤ n → (D * F).coeff k = 0

theorem Generates.mono {F D : K[X]} {v n m : Nat} (h : Generates F D v n) (hm : m ≤ n) : Generates F D v m :=
  ⟨h.one, h.degree, fun k hk hkm => h.zero k hk (hkm.trans hm)⟩

/-- A register generates the next input too when its discrepancy there is 0. -/
theorem Generates.extend {F D : K[X]} {v n : Nat} (h : Generates F D v n) (h0 : (D * F).coeff (n + 1) = 0) :
    Generates F D v (n + 1) := by
  refine ⟨h.one, h.degree, fun k hk hkn => ?_⟩
  rcases Nat.le_succ_iff.1 hkn with hkn | rfl
  · exact h.zero k hk hkn
  · exact h0

/-- Massey's bound: if a register of length `l` fails first at an input, a register that generates this input too is
long. -/
theorem Generates.length_add_length {F C D : K[X]} {l v n : Nat} (hC : Generates F C l n)
    (hfail : (C * F).coeff (n + 1) ≠ 0) (hD : Generates F D v (n + 1)) : n + 1 ≤ l + v := by
  by_contra hlt
  have h1 : (D * (C * F)).coeff (n + 1) = (C * F).coeff (n + 1) := by
    rw [coeff_mul_of_coeff_eq_zero hD.degree (by omega) fun k hk hkn => hC.zero k (by omega) (by omega), hD.one,
      one_mul]
  have h2 : (C * (D * F)).coeff (n + 1) = 0 := by
    rw [coeff_mul_of_coeff_eq_zero hC.degree (by omega) fun k hk hkn => hD.zero k (by omega) (by omega),
      hD.zero (n + 1) (by omega) le_rfl, mul_zero]
  exact hfail (by rw [← h1, mul_left_comm, h2])

/-- `G` is a correction for a register of length `l` at input `n`: it fails first at that input, by `δ`, and adding a
multiple of it to the register's polynomial makes the register no longer than `l` or `n + 1 - l`. -/
structure Corrects (F G : K[X]) (δ : K) (l n : Nat) : Prop where
  degree : G.natDegree + l ≤ n + 1
  low : G.coeff 0 = 0
  zero : ∀ k, n + 1 < k + l → k ≤ n → (G * F).coeff k = 0
  fails : (G * F).coeff (n + 1) = δ
  ne_zero : δ ≠ 0

theorem natDegree_X_mul_le (G : K[X]) : (X * G).natDegree ≤ G.natDegree + 1 := by
  have h : (X * G).natDegree ≤ X.natDegree + G.natDegree := natDegree_mul_le
  rwa [natDegree_X, add_comm] at h

/-- A register that fails at input `n` becomes the correction for the longer register that replaces it. -/
theorem Generates.corrects {F C : K[X]} {l n : Nat} (h : Generates F C l n) (hl : l ≤ n)
    (hfail : (C * F).coeff (n + 1) ≠ 0) : Corrects F (X * C) ((C * F).coeff (n + 1)) (n + 1 - l) (n + 1) where
  degree := by
    have hX := natDegree_X_mul_le C
    have hdeg := h.degree
    omega
  low := by rw [mul_coeff_zero, coeff_X_zero, zero_mul]
  zero k hk hkn := by
    obtain ⟨k, rfl⟩ : ∃ j, k = j + 1 := ⟨k - 1, by omega⟩
    rw [mul_assoc, coeff_X_mul]
    exact h.zero k (by omega) (by omega)
  fails := by rw [mul_assoc, coeff_X_mul]
  ne_zero := hfail

/-- At the next input the correction is one place further away. -/
theorem Corrects.shift {F G : K[X]} {δ : K} {l n : Nat} (h : Corrects F G δ l n) :
    Corrects F (X * G) δ l (n + 1) where
  degree := by
    have hX := natDegree_X_mul_le G
    have hdeg := h.degree
    omega
  low := by rw [mul_coeff_zero, coeff_X_zero, zero_mul]
  zero k hk hkn := by
    rcases k with _ | k
    · rw [mul_assoc, mul_coeff_zero, coeff_X_zero, zero_mul]
    · rw [mul_assoc, coeff_X_mul]
      exact h.zero k (by omega) (by omega)
  fails := by rw [mul_assoc, coeff_X_mul, h.fails]
  ne_zero := h.ne_zero

/-- A register and its correction give a register that generates one input more. -/
theorem Generates.correct [CharP K 2] {F C G : K[X]} {δ : K} {l l' n : Nat} (hC : Generates F C l n)
    (hG : Corrects F G δ l n) (hl : l ≤ l') (hl' : n + 1 ≤ l + l') :
    Generates F (C + Polynomial.C ((C * F).coeff (n + 1) * δ⁻¹) * G) l' (n + 1) := by
  have hcoeff : ∀ k, ((C + Polynomial.C ((C * F).coeff (n + 1) * δ⁻¹) * G) * F).coeff k =
      (C * F).coeff k + (C * F).coeff (n + 1) * δ⁻¹ * (G * F).coeff k := by
    intro k
    rw [add_mul, mul_assoc, coeff_add, coeff_C_mul]
  refine ⟨?_, natDegree_add_le_of_degree_le (hC.degree.trans hl) ((natDegree_C_mul_le _ _).trans ?_),
    fun k hk hkn => ?_⟩
  · rw [coeff_add, coeff_C_mul, hG.low, mul_zero, add_zero, hC.one]
  · have hdeg := hG.degree
    omega
  · rw [hcoeff]
    rcases Nat.le_succ_iff.1 hkn with hkn | rfl
    · rw [hC.zero k (by omega) hkn, hG.zero k (by omega) hkn, mul_zero, add_zero]
    · rw [hG.fails, inv_mul_cancel_right₀ hG.ne_zero, CharTwo.add_self_eq_zero]

end

/-! ### The invariant of the algorithm -/

theorem bmStep_seen (b : BmState) (t : Byte) : (bmStep b t).seen = t :: b.seen := by
  unfold bmStep
  simp only
  split_ifs <;> rfl

section
variable {K : Type} [Field K] {φ : Byte → K}

/-- The polynomial before the last length change, shifted by the distance to it. -/
noncomputable def BmState.correction (φ : Byte → K) (b : BmState) : K[X] := X ^ b.gap * toPoly φ b.prevConn

/-- The state of the algorithm after `b.seen.length` inputs of `F`: its register generates them, none shorter does, and
the polynomial before the last length change is a correction for the next input. -/
structure BmInv (φ : Byte → K) (F : K[X]) (b : BmState) : Prop where
  seen : ∀ i < b.seen.length, φ (b.seen.getD i 0) = F.coeff (b.seen.length - i)
  len_le : b.len ≤ b.seen.length
  generates : Generates F (toPoly φ b.conn) b.len b.seen.length
  shortest : ∀ D v, Generates F D v b.seen.length → b.len ≤ v
  corrects : Corrects F (b.correction φ) (φ b.prevDisc) b.len b.seen.length

variable (hφ : FieldModel φ)
include hφ

namespace FieldModel

theorem bmInv_init {F : K[X]} (hF : F.coeff 0 = 1) : BmInv φ F bmInit := by
  have hconn : toPoly φ bmInit.conn = 1 := hφ.toPoly_one
  have hcorr : bmInit.correction φ = X := by rw [BmState.correction, bmInit, hφ.toPoly_one, mul_one, pow_one]
  refine ⟨fun i hi => absurd hi (Nat.not_lt_zero i), le_rfl, ?_, fun _ v _ => Nat.zero_le v, ?_⟩
  · rw [hconn]
    exact ⟨coeff_one_zero, natDegree_one.le, fun k hk hk0 => absurd (hk.trans_le hk0) (lt_irrefl _)⟩
  · rw [hcorr]
    exact ⟨natDegree_X.le, coeff_X_zero, fun k hk hk0 => absurd hk0 (Nat.not_le.2 (Nat.lt_of_succ_lt hk)),
      (coeff_X_mul F 0).trans (hF.trans hφ.map_one.symm), fun h => one_ne_zero (hφ.map_one.symm.trans h)⟩

theorem map_foldl_xor (t : Byte) (l : List Byte) : φ (l.foldl (· ^^^ ·) t) = φ t + (l.map φ).sum := by
  induction l generalizing t with
  | nil => simp
  | cons a l ih => rw [List.foldl_cons, ih, hφ.map_xor, List.map_cons, List.sum_cons, add_assoc]

theorem sum_map_zipWith_gfMul : ∀ a w : List Byte, ((List.zipWith gfMul a w).map φ).sum =
    ∑ i ∈ Finset.range w.length, φ (a.getD i 0) * φ (w.getD i 0)
  | [], w => by
    refine (Finset.sum_eq_zero fun i _ => ?_).symm
    rw [List.getD_nil, hφ.map_zero, zero_mul]
  | _ :: _, [] => rfl
  | x :: a, y :: w => by
    rw [List.zipWith_cons_cons, List.map_cons, List.sum_cons, sum_map_zipWith_gfMul a w, hφ.map_gfMul, List.length_cons,
      Finset.sum_range_succ', add_comm]
    rfl

theorem coeff_toPoly_tail (p : List Byte) (i : Nat) : φ (p.tail.getD i 0) = (toPoly φ p).coeff (i + 1) := by
  rw [hφ.coeff_toPoly]
  cases p <;> rfl

section Step
variable {F : K[X]} {b : BmState} (h : BmInv φ F b) {t : Byte} (ht : φ t = F.coeff (b.seen.length + 1))
include h ht

/-- The discrepancy is the coefficient at which the next input enters. -/
theorem map_bmDisc : φ (bmDisc b t) = (toPoly φ b.conn * F).coeff (b.seen.length + 1) := by
  have hterm : ∀ i, φ ((b.conn.tail.take b.len).getD i 0) = (toPoly φ b.conn).coeff (i + 1) := by
    intro i
    rw [← hφ.coeff_toPoly, hφ.coeff_toPoly_take, hφ.coeff_toPoly, hφ.coeff_toPoly_tail]
    split_ifs with hl
    · rfl
    · exact (coeff_eq_zero_of_natDegree_lt (h.generates.degree.trans_lt (by omega))).symm
  rw [bmDisc, hφ.map_foldl_xor, hφ.sum_map_zipWith_gfMul,
    coeff_mul_of_natDegree_le (h.generates.degree.trans h.len_le) (Nat.le_succ _), Finset.sum_range_succ',
    h.generates.one, ht, Nat.sub_zero, one_mul, add_comm]
  refine congrArg (· + _) (Finset.sum_congr rfl fun i hi => ?_)
  rw [hterm, h.seen i (Finset.mem_range.1 hi), Nat.succ_eq_add_one, Nat.add_sub_add_right]

omit hφ in
/-- The inputs seen after one more. -/
theorem seen_cons (i : Nat) (hi : i < (t :: b.seen).length) :
    φ ((t :: b.seen).getD i 0) = F.coeff ((t :: b.seen).length - i) := by
  rcases i with _ | i
  · exact ht
  · rw [List.getD_cons_succ, h.seen i (Nat.lt_of_succ_lt_succ hi), List.length_cons, Nat.add_sub_add_right]

/-- The corrected polynomial of one input. -/
theorem toPoly_fixed : toPoly φ (polyAdd b.conn
      (List.replicate b.gap 0 ++ polyScale (gfMul (bmDisc b t) (gfInv b.prevDisc)) b.prevConn)) =
    toPoly φ b.conn +
      C ((toPoly φ b.conn * F).coeff (b.seen.length + 1) * (φ b.prevDisc)⁻¹) * b.correction φ := by
  rw [hφ.toPoly_polyAdd, hφ.toPoly_replicate_zero_append, hφ.toPoly_polyScale, hφ.map_gfMul, hφ.map_gfInv,
    hφ.map_bmDisc h ht, BmState.correction, mul_left_comm]

/-- The three cases of an input: no discrepancy, a longer register, a corrected register of the same length. -/
theorem bmInv_bmStep [CharP K 2] : BmInv φ F (bmStep b t) := by
  have hd := hφ.map_bmDisc h ht
  have hshift : Corrects F (X ^ (b.gap + 1) * toPoly φ b.prevConn) (φ b.prevDisc) b.len (b.seen.length + 1) := by
    rw [pow_succ', mul_assoc]
    exact h.corrects.shift
  have hlen := h.len_le
  unfold bmStep
  simp only
  split_ifs with h0 hlong
  · rw [h0, hφ.map_zero] at hd
    exact ⟨seen_cons h ht, hlen.trans (Nat.le_succ _), h.generates.extend hd.symm,
      fun D v hD => h.shortest D v (hD.mono (Nat.le_succ _)), hshift⟩
  · have hfail : (toPoly φ b.conn * F).coeff (b.seen.length + 1) ≠ 0 := hd ▸ fun hz => h0 (hφ.eq_zero_iff.1 hz)
    have hgen := h.generates.correct (l' := b.seen.length + 1 - b.len) h.corrects (by omega) (by omega)
    rw [← hφ.toPoly_fixed h ht] at hgen
    refine ⟨seen_cons h ht, Nat.sub_le _ _, hgen, fun D v hD => ?_, ?_⟩
    · exact Nat.sub_le_iff_le_add'.2 (h.generates.length_add_length hfail hD)
    · rw [BmState.correction, pow_one, hd]
      exact h.generates.corrects hlen hfail
  · have hgen := h.generates.correct h.corrects le_rfl (by omega)
    rw [← hφ.toPoly_fixed h ht] at hgen
    exact ⟨seen_cons h ht, hlen.trans (Nat.le_succ _), hgen,
      fun D v hD => h.shortest D v (hD.mono (Nat.le_succ _)), hshift⟩

end Step

theorem bmInv_foldl [CharP K 2] {F : K[X]} : ∀ (ts : List Byte) {b : BmState}, BmInv φ F b →
    (∀ i < ts.length, φ (ts.getD i 0) = F.coeff (b.seen.length + 1 + i)) →
    BmInv φ F (ts.foldl bmStep b) ∧ (ts.foldl bmStep b).seen.length = b.seen.length + ts.length
  | [], _, h, _ => ⟨h, rfl⟩
  | t :: ts, b, h, hts => by
    have hseen : (bmStep b t).seen.length = b.seen.length + 1 := by rw [bmStep_seen, List.length_cons]
    have hstep : BmInv φ F (bmStep b t) := hφ.bmInv_bmStep h (hts 0 (Nat.succ_pos _))
    obtain ⟨hinv, hlen⟩ := bmInv_foldl ts hstep fun i hi => by
      rw [hseen, Nat.add_assoc _ 1 i, Nat.add_comm 1 i]
      exact hts (i + 1) (Nat.succ_lt_succ hi)
    exact ⟨hinv, by rw [List.foldl_cons, hlen, hseen, List.length_cons]; omega⟩

/-- The Berlekamp-Massey algorithm finds a shortest register that generates its inputs. -/
theorem generates_berlekampMassey [CharP K 2] (ts : List Byte) :
    ∃ l, Generates (toPoly φ (1 :: ts)) (toPoly φ (berlekampMassey ts)) l ts.length ∧
      ∀ D v, Generates (toPoly φ (1 :: ts)) D v ts.length → l ≤ v := by
  have hF : (toPoly φ (1 :: ts)).coeff 0 = 1 := (hφ.coeff_toPoly _ 0).trans hφ.map_one
  obtain ⟨h, hlen⟩ := hφ.bmInv_foldl ts (hφ.bmInv_init hF) fun i _ => by
    rw [hφ.coeff_toPoly, show bmInit.seen.length + 1 + i = i + 1 from Nat.add_comm 1 i, List.getD_cons_succ]
  rw [show bmInit.seen.length + ts.length = ts.length from Nat.zero_add _] at hlen
  rw [berlekampMassey, hφ.toPoly_polyTrim, ← hlen]
  exact ⟨_, h.generates, h.shortest⟩

end FieldModel
end

end Sys2Proof.Machine
end

section
/-! PROOFS. The key equation of the decoder (rule R217): locator and evaluator of a set of positions, and why the
shortest register for the modified syndromes is the error locator. `x i` is the locator of position `i`, `y i` the
difference there. -/

namespace Sys2Proof.Machine

open Polynomial

section
variable {K : Type} [Field K] (x y : Nat → K)

/-- The locator polynomial of a set of positions. -/
noncomputable def locatorPoly (W : Finset Nat) : K[X] := ∏ i ∈ W, (1 + C (x i) * X)

/-- The evaluator polynomial of the differences on a set of positions. -/
noncomputable def evaluatorPoly (W : Finset Nat) : K[X] := ∑ i ∈ W, C (y i) * locatorPoly x (W.erase i)

/-! ### The locator polynomial -/

theorem locatorPoly_coeff_zero (W : Finset Nat) : (locatorPoly x W).coeff 0 = 1 := by
  rw [coeff_zero_eq_eval_zero, locatorPoly, eval_prod]
  exact Finset.prod_eq_one fun i _ => by simp

variable {x y}

theorem natDegree_locatorPoly (hx : ∀ i, x i ≠ 0) (W : Finset Nat) : (locatorPoly x W).natDegree = W.card := by
  have h1 : ∀ i, (1 + C (x i) * X).natDegree = 1 := fun i => by rw [add_comm, ← C_1, natDegree_linear (hx i)]
  have h0 : ∀ i, 1 + C (x i) * X ≠ 0 := fun i h => by simpa [h] using h1 i
  rw [locatorPoly, natDegree_prod _ _ fun i _ => h0 i, Finset.sum_congr rfl fun i _ => h1 i, Finset.card_eq_sum_ones]

theorem locatorPoly_union {V W : Finset Nat} (h : Disjoint V W) :
    locatorPoly x (V ∪ W) = locatorPoly x V * locatorPoly x W := Finset.prod_union h

theorem locatorPoly_erase {W : Finset Nat} {i : Nat} (h : i ∈ W) :
    locatorPoly x W = (1 + C (x i) * X) * locatorPoly x (W.erase i) := (Finset.mul_prod_erase W _ h).symm

variable [CharP K 2]

/-- The roots of the locator polynomial are the inverses of its locators. -/
theorem eval_locatorPoly_eq_zero_iff (hx : ∀ i, x i ≠ 0) {W : Finset Nat} {k : Nat} :
    (locatorPoly x W).eval (x k)⁻¹ = 0 ↔ ∃ i ∈ W, x i = x k := by
  rw [locatorPoly, eval_prod, Finset.prod_eq_zero_iff]
  refine exists_congr fun i => and_congr_right fun _ => ?_
  rw [eval_add, eval_one, eval_mul, eval_C, eval_X, CharTwo.add_eq_zero, ← div_eq_mul_inv, eq_comm,
    div_eq_one_iff_eq (hx k)]

theorem eval_locatorPoly_self (hx : ∀ i, x i ≠ 0) {W : Finset Nat} {i : Nat} (hi : i ∈ W) :
    (locatorPoly x W).eval (x i)⁻¹ = 0 := (eval_locatorPoly_eq_zero_iff hx).2 ⟨i, hi, rfl⟩

theorem eval_locatorPoly_erase_ne_zero (hx : ∀ i, x i ≠ 0) {W : Finset Nat} {i : Nat}
    (hinj : ∀ k ∈ W, x k = x i → k = i) : (locatorPoly x (W.erase i)).eval (x i)⁻¹ ≠ 0 := by
  rw [ne_eq, eval_locatorPoly_eq_zero_iff hx]
  rintro ⟨k, hk, hki⟩
  obtain ⟨hne, hk⟩ := Finset.mem_erase.1 hk
  exact hne (hinj k hk hki)

theorem eval_derivative_locatorPoly (hx : ∀ i, x i ≠ 0) {W : Finset Nat} {i : Nat} (hi : i ∈ W) :
    (derivative (locatorPoly x W)).eval (x i)⁻¹ = x i * (locatorPoly x (W.erase i)).eval (x i)⁻¹ := by
  have h0 : 1 + x i * (x i)⁻¹ = 0 := by rw [mul_inv_cancel₀ (hx i), CharTwo.add_self_eq_zero]
  rw [locatorPoly_erase hi]
  simp [h0]

/-! ### The evaluator polynomial -/

omit [CharP K 2] in
theorem evaluatorPoly_coeff_eq_zero (hx : ∀ i, x i ≠ 0) {W : Finset Nat} {k : Nat} (hk : W.card ≤ k) :
    (evaluatorPoly x y W).coeff k = 0 := by
  rw [evaluatorPoly, finsetSum_coeff]
  refine Finset.sum_eq_zero fun i hi => ?_
  have hpos := Finset.card_pos.2 ⟨i, hi⟩
  rw [coeff_C_mul, coeff_eq_zero_of_natDegree_lt, mul_zero]
  rw [natDegree_locatorPoly hx, Finset.card_erase_of_mem hi]
  omega

theorem eval_evaluatorPoly (hx : ∀ i, x i ≠ 0) {W : Finset Nat} {i : Nat} (hi : i ∈ W) :
    (evaluatorPoly x y W).eval (x i)⁻¹ = y i * (locatorPoly x (W.erase i)).eval (x i)⁻¹ := by
  rw [evaluatorPoly, eval_finsetSum, Finset.sum_eq_single_of_mem i hi fun k _ hki => ?_, eval_mul, eval_C]
  rw [eval_mul, eval_locatorPoly_self hx (Finset.mem_erase.2 ⟨hki.symm, hi⟩), mul_zero]

/-! ### The key equation -/

/-- `S` has the syndromes of the differences `y` on `W` as its first `p` coefficients. -/
def HasSyndromes (x y : Nat → K) (W : Finset Nat) (p : Nat) (S : K[X]) : Prop :=
  ∀ j, j < p → S.coeff j = ∑ i ∈ W, y i * x i ^ j

/-- Syndromes times locator is the evaluator, up to degree `p`. -/
theorem HasSyndromes.key {W : Finset Nat} {p : Nat} {S : K[X]} (hS : HasSyndromes x y W p S) :
    X ^ p ∣ S * locatorPoly x W - evaluatorPoly x y W := by
  have hlow : X ^ p ∣ S - ∑ i ∈ W, C (y i) * ∑ j ∈ Finset.range p, (C (x i) * X) ^ j := by
    rw [X_pow_dvd_iff]
    intro d hd
    simp only [coeff_sub, hS d hd, finsetSum_coeff, coeff_C_mul, mul_pow, ← C_pow, coeff_X_pow, mul_ite, mul_one,
      mul_zero, Finset.sum_ite_eq, Finset.mem_range, hd, if_true, sub_self]
  have hgeom : ∀ i ∈ W, C (y i) * (∑ j ∈ Finset.range p, (C (x i) * X) ^ j) * locatorPoly x W =
      C (y i) * locatorPoly x (W.erase i) + X ^ p * (C (y i * x i ^ p) * locatorPoly x (W.erase i)) := by
    intro i hi
    have h := geom_sum_mul_neg (C (x i) * X) p
    rw [CharTwo.sub_eq_add, CharTwo.sub_eq_add] at h
    rw [locatorPoly_erase hi, C_mul, C_pow]
    linear_combination C (y i) * locatorPoly x (W.erase i) * h
  have hsum : (∑ i ∈ W, C (y i) * ∑ j ∈ Finset.range p, (C (x i) * X) ^ j) * locatorPoly x W -
      evaluatorPoly x y W = X ^ p * ∑ i ∈ W, C (y i * x i ^ p) * locatorPoly x (W.erase i) := by
    rw [Finset.sum_mul, Finset.sum_congr rfl hgeom, Finset.sum_add_distrib, evaluatorPoly, add_sub_cancel_left,
      Finset.mul_sum]
  have hsplit := dvd_add (hlow.mul_right (locatorPoly x W)) (Dvd.intro _ hsum.symm)
  rwa [sub_mul, sub_add_sub_cancel] at hsplit

theorem HasSyndromes.coeff_mul {W : Finset Nat} {p k : Nat} {S : K[X]} (hS : HasSyndromes x y W p S) (hk : k < p) :
    (S * locatorPoly x W).coeff k = (evaluatorPoly x y W).coeff k :=
  sub_eq_zero.1 ((coeff_sub _ _ _).symm.trans (X_pow_dvd_iff.1 hS.key k hk))

/-! ### The error locator -/

omit [CharP K 2] in
/-- A register for a sequence that stands `s` places up in `R`. -/
theorem generates_iff {F R D : K[X]} {s v n : Nat} (hF : ∀ i < n, F.coeff (i + 1) = R.coeff (s + i)) :
    Generates F D v n ↔
      D.coeff 0 = 1 ∧ D.natDegree ≤ v ∧ ∀ k, v ≤ k → k < n → (D * R).coeff (s + k) = 0 := by
  have hcoeff : ∀ k, D.natDegree ≤ v → v ≤ k → k < n → (D * F).coeff (k + 1) = (D * R).coeff (s + k) := by
    intro k hD hk hkn
    rw [coeff_mul_of_natDegree_le hD (by omega), coeff_mul_of_natDegree_le hD (by omega)]
    refine Finset.sum_congr rfl fun i hi => ?_
    rw [Finset.mem_range] at hi
    rw [show k + 1 - i = k - i + 1 by omega, hF _ (by omega), Nat.add_sub_assoc (by omega)]
  constructor
  · intro h
    refine ⟨h.one, h.degree, fun k hk hkn => ?_⟩
    rw [← hcoeff k h.degree hk hkn]
    exact h.zero _ (by omega) (by omega)
  · rintro ⟨h1, hD, h0⟩
    refine ⟨h1, hD, fun k hk hkn => ?_⟩
    obtain ⟨k, rfl⟩ : ∃ j, k = j + 1 := ⟨k - 1, by omega⟩
    rw [hcoeff k hD (by omega) (by omega)]
    exact h0 k (by omega) (by omega)

omit [CharP K 2] in
/-- If `D` times `R` has no coefficients from degree `m` to `p`, and `L` times `R` is `Ω` up to degree `p`, then a root
of `L` is one of `D` or of `Ω`. -/
theorem eval_mul_eq_zero_of_key {D L R Ω : K[X]} {v m p : Nat} {z : K} (hD : D.natDegree ≤ v) (hL : L.natDegree ≤ v)
    (hΩ : ∀ k, m ≤ k → Ω.coeff k = 0) (hR : X ^ p ∣ R * L - Ω) (hm : ∀ k, m ≤ k → k < p → (D * R).coeff k = 0)
    (hp : v + m ≤ p) (hz : L.eval z = 0) : D.eval z * Ω.eval z = 0 := by
  obtain ⟨A, hA, hAR⟩ : ∃ A : K[X], (∀ k, m ≤ k → A.coeff k = 0) ∧ X ^ p ∣ D * R - A := by
    refine ⟨∑ i ∈ Finset.range m, C ((D * R).coeff i) * X ^ i, fun k hk => ?_, X_pow_dvd_iff.2 fun k hk => ?_⟩
    · simp [coeff_X_pow, Nat.not_lt.2 hk]
    · by_cases hkm : k < m
      · simp [coeff_X_pow, hkm]
      · simp [coeff_X_pow, hkm, hm k (Nat.not_lt.1 hkm) hk]
  have hsmall : ∀ {P Q : K[X]} {k : Nat}, P.natDegree ≤ v → (∀ k, m ≤ k → Q.coeff k = 0) → p ≤ k →
      (P * Q).coeff k = 0 := by
    intro P Q k hP hQ hk
    rw [coeff_mul_of_natDegree_le hP (by omega)]
    refine Finset.sum_eq_zero fun i hi => ?_
    rw [Finset.mem_range] at hi
    rw [hQ _ (by omega), mul_zero]
  have hdvd : X ^ p ∣ D * Ω - L * A := by
    have h := dvd_sub (hAR.mul_left L) (hR.mul_left D)
    rwa [show L * (D * R - A) - D * (R * L - Ω) = D * Ω - L * A by ring] at h
  have heq : D * Ω = L * A := by
    rw [← sub_eq_zero]
    ext k
    rw [coeff_zero]
    by_cases hk : k < p
    · exact X_pow_dvd_iff.1 hdvd k hk
    · rw [coeff_sub, hsmall hD hΩ (Nat.not_lt.1 hk), hsmall hL hA (Nat.not_lt.1 hk), sub_zero]
  rw [← eval_mul, heq, eval_mul, hz, zero_mul]

/-- A polynomial with constant term 1 and no larger degree that vanishes at the roots of a locator polynomial is that
polynomial. -/
theorem eq_locatorPoly {D : K[X]} {V : Finset Nat} (hx : ∀ i, x i ≠ 0) (hinj : Set.InjOn x V) (h1 : D.coeff 0 = 1)
    (hD : D.natDegree ≤ V.card) (hroot : ∀ i ∈ V, D.eval (x i)⁻¹ = 0) : D = locatorPoly x V := by
  classical
  have hzero : (0 : K) ∉ V.image fun i => (x i)⁻¹ := by
    rw [Finset.mem_image]
    rintro ⟨i, -, hi⟩
    exact hx i (inv_eq_zero.1 hi)
  have hcard : (insert 0 (V.image fun i => (x i)⁻¹)).card = V.card + 1 := by
    have hinv : Set.InjOn (fun i => (x i)⁻¹) V := inv_injective.comp_injOn hinj
    rw [Finset.card_insert_of_notMem hzero, Finset.card_image_of_injOn hinv]
  refine sub_eq_zero.1 (eq_zero_of_natDegree_lt_card_of_eval_eq_zero' _ (insert 0 (V.image fun i => (x i)⁻¹)) ?_ ?_)
  · intro z hz
    rw [eval_sub]
    rcases Finset.mem_insert.1 hz with rfl | hz
    · rw [← coeff_zero_eq_eval_zero, ← coeff_zero_eq_eval_zero, h1, locatorPoly_coeff_zero, sub_self]
    · obtain ⟨i, hi, rfl⟩ := Finset.mem_image.1 hz
      rw [hroot i hi, eval_locatorPoly_self hx hi, sub_self]
  · rw [hcard]
    have hdeg := natDegree_sub_le_of_le hD (natDegree_locatorPoly hx V).le
    rw [max_self] at hdeg
    exact Nat.lt_succ_of_le hdeg

/-- Within the radius a shortest register for the modified syndromes is the error locator. -/
theorem eq_errorLocator {V E : Finset Nat} {p l : Nat} {S F D : K[X]} (hx : ∀ i, x i ≠ 0)
    (hinj : Set.InjOn x (V ∪ E : Finset Nat)) (hdisj : Disjoint V E) (hy : ∀ i ∈ V, y i ≠ 0)
    (hS : HasSyndromes x y (V ∪ E) p S) (hp : 2 * V.card + E.card ≤ p)
    (hF : ∀ i < p - E.card, F.coeff (i + 1) = (S * locatorPoly x E).coeff (E.card + i))
    (hD : Generates F D l (p - E.card)) (hmin : ∀ D' v, Generates F D' v (p - E.card) → l ≤ v) :
    D = locatorPoly x V := by
  have hcard : (V ∪ E).card = V.card + E.card := Finset.card_union_of_disjoint hdisj
  have hR : S * locatorPoly x E * locatorPoly x V = S * locatorPoly x (V ∪ E) := by rw [locatorPoly_union hdisj]; ring
  have hlv : l ≤ V.card := by
    refine hmin (locatorPoly x V) V.card ((generates_iff hF).2
      ⟨locatorPoly_coeff_zero x V, (natDegree_locatorPoly hx V).le, fun k hk hkp => ?_⟩)
    rw [mul_comm, hR, hS.coeff_mul (by omega), evaluatorPoly_coeff_eq_zero hx (by omega)]
  obtain ⟨h1, hdeg, h0⟩ := (generates_iff hF).1 hD
  refine eq_locatorPoly hx (hinj.mono (by simp)) h1 (hdeg.trans hlv) fun i hi => ?_
  have hiW : i ∈ V ∪ E := Finset.mem_union_left E hi
  have hmul := eval_mul_eq_zero_of_key (m := V.card + E.card) (z := (x i)⁻¹) (hdeg.trans hlv)
    (natDegree_locatorPoly hx V).le (fun k hk => evaluatorPoly_coeff_eq_zero hx (hcard.trans_le hk))
    (hR ▸ hS.key) (fun k hk hkp => ?_) (by omega) (eval_locatorPoly_self hx hi)
  · rw [eval_evaluatorPoly hx hiW] at hmul
    have hne := eval_locatorPoly_erase_ne_zero hx fun k hk hki => hinj (Finset.mem_coe.2 hk) (Finset.mem_coe.2 hiW) hki
    exact (mul_eq_zero.1 hmul).resolve_right (mul_ne_zero (hy i hi) hne)
  · obtain ⟨j, rfl⟩ := Nat.exists_eq_add_of_le (Nat.le_of_add_left_le hk)
    exact h0 j (by omega) (by omega)

end

end Sys2Proof.Machine
end

section
/-! PROOFS. The decoder finds the codeword within the radius (rules R215, R217). -/

namespace Sys2Proof.Machine

open Polynomial

/-! ### Positions -/

/-- The erased positions. -/
def erasedSet (era : List Bool) : Finset Nat := (flagged era).toFinset

/-- The positions outside the erasures at which two words differ (rule R215). -/
def errorSet (r : List Byte) (era : List Bool) (c : List Byte) : Finset Nat :=
  ((List.range r.length).filter (fun i => !era.getD i false && (c.getD i 0 != r.getD i 0))).toFinset

theorem mem_flagged {era : List Bool} {i : Nat} : i ∈ flagged era ↔ era.getD i false = true := by
  rw [flagged, List.mem_filter, List.mem_range, and_iff_right_iff_imp]
  intro h
  by_contra hlen
  rw [List.getD_eq_default _ _ (Nat.not_lt.1 hlen)] at h
  exact absurd h (by decide)

theorem mem_erasedSet {era : List Bool} {i : Nat} : i ∈ erasedSet era ↔ era.getD i false = true := by
  rw [erasedSet, List.mem_toFinset, mem_flagged]

theorem mem_errorSet {r c : List Byte} {era : List Bool} {i : Nat} :
    i ∈ errorSet r era c ↔ i < r.length ∧ era.getD i false = false ∧ c.getD i 0 ≠ r.getD i 0 := by
  simp only [errorSet, List.mem_toFinset, List.mem_filter, List.mem_range, Bool.and_eq_true, Bool.not_eq_true',
    bne_iff_ne]

theorem flagged_nodup (era : List Bool) : (flagged era).Nodup := List.nodup_range.filter _

theorem card_erasedSet (era : List Bool) : (erasedSet era).card = erasureCount era :=
  List.toFinset_card_of_nodup (flagged_nodup era)

theorem card_errorSet (r : List Byte) (era : List Bool) (c : List Byte) :
    (errorSet r era c).card = errorsOutside r era c :=
  List.toFinset_card_of_nodup (List.nodup_range.filter _)

theorem disjoint_errorSet_erasedSet (r : List Byte) (era : List Bool) (c : List Byte) :
    Disjoint (errorSet r era c) (erasedSet era) := by
  refine Finset.disjoint_left.2 fun i hV hE => ?_
  rw [mem_errorSet] at hV
  rw [mem_erasedSet, hV.2.1] at hE
  exact absurd hE (by decide)

theorem zeroErased_length (r : List Byte) (era : List Bool) : (zeroErased r era).length = r.length := by
  rw [zeroErased, List.length_map, List.length_range]

theorem getD_map_range {α : Type} {n i : Nat} (f : Nat → α) (d : α) (hi : i < n) :
    ((List.range n).map f).getD i d = f i := by
  rw [List.getD_eq_getElem _ _ (by rwa [List.length_map, List.length_range]), List.getElem_map, List.getElem_range]

theorem zeroErased_getD {r : List Byte} {era : List Bool} {i : Nat} (hi : i < r.length)
    (he : era.getD i false = false) : (zeroErased r era).getD i 0 = r.getD i 0 := by
  rw [zeroErased, getD_map_range _ _ hi, he]
  rfl

/-- The positions the decoder has to correct to come to the codeword `c`: errors and erasures. -/
def errataSet (r : List Byte) (era : List Bool) (c : List Byte) : Finset Nat := errorSet r era c ∪ erasedSet era

theorem card_errataSet (r : List Byte) (era : List Bool) (c : List Byte) :
    (errataSet r era c).card = errorsOutside r era c + erasureCount era := by
  rw [errataSet, Finset.card_union_of_disjoint (disjoint_errorSet_erasedSet r era c), card_errorSet, card_erasedSet]

theorem lt_of_mem_errataSet {r c : List Byte} {era : List Bool} (hera : era.length = r.length) {i : Nat}
    (hi : i ∈ errataSet r era c) : i < r.length := by
  rcases Finset.mem_union.1 hi with h | h
  · exact (mem_errorSet.1 h).1
  · rw [mem_erasedSet] at h
    by_contra hlen
    rw [List.getD_eq_default _ _ (by omega)] at h
    exact absurd h (by decide)

theorem forneyCorrect_getD {n i : Nat} (omega dpsi : List Byte) (roots : List Nat) (r : List Byte) (hi : i < n) :
    (forneyCorrect n omega dpsi roots r).getD i 0 =
      if i ∈ roots then
        r.getD i 0 ^^^ gfMul (gfMul (locator n i) (polyEval omega (gfInv (locator n i))))
          (gfInv (polyEval dpsi (gfInv (locator n i))))
      else r.getD i 0 := by
  rw [forneyCorrect, getD_map_range _ _ hi]
  simp only [List.contains_iff_mem]

/-! ### Lengths of the decoder's polynomials -/

theorem polyAdd_length : ∀ p q : List Byte, (polyAdd p q).length = max p.length q.length
  | [], q => by rw [polyAdd, List.length_nil, Nat.zero_max]
  | a :: p, [] => by rw [polyAdd, List.length_nil, Nat.max_zero]; simp
  | a :: p, b :: q => by rw [polyAdd, List.length_cons, polyAdd_length p q]; simp [Nat.add_max_add_right]

theorem length_le_polyMul (p q : List Byte) : p.length ≤ (polyMul p q).length := by
  induction p with
  | nil => exact Nat.zero_le _
  | cons a p ih =>
    rw [polyMul, polyAdd_length, List.length_cons, List.length_cons]
    exact (Nat.succ_le_succ ih).trans (le_max_right _ _)

theorem modifiedSyndromes_length (p n : Nat) (era : List Bool) (rz : List Byte) :
    (modifiedSyndromes p n era rz).length = p - erasureCount era := by
  have h := length_le_polyMul (syndromes p rz) (erasureLocator n (flagged era))
  rw [syndromes, List.length_map, List.length_range, ← syndromes] at h
  rw [modifiedSyndromes, List.length_drop, List.length_take, Nat.min_eq_left h]

/-! ### The received word against a codeword -/

/-- The locator of a position in the field. -/
def fieldLocator {K : Type} (φ : Byte → K) (n i : Nat) : K := φ (locator n i)

/-- What the decoder has to add at a position to come to the codeword. -/
def difference {K : Type} [Field K] (φ : Byte → K) (rz c : List Byte) (i : Nat) : K := φ (rz.getD i 0) + φ (c.getD i 0)

section
variable {K : Type} [Field K] {φ : Byte → K} (hφ : FieldModel φ)
include hφ

namespace FieldModel

theorem fieldLocator_ne_zero (n i : Nat) : fieldLocator φ n i ≠ 0 := fun h => gfExp_ne_zero _ (hφ.eq_zero_iff.1 h)

theorem map_gfInv_locator (n i : Nat) : φ (gfInv (locator n i)) = (fieldLocator φ n i)⁻¹ := hφ.map_gfInv _

theorem toPoly_erasureLocator (n : Nat) (era : List Bool) :
    toPoly φ (erasureLocator n (flagged era)) = locatorPoly (fieldLocator φ n) (erasedSet era) := by
  have hfold : ∀ (l : List Nat) (g : List Byte), toPoly φ (l.foldl (fun g i => polyMul g [1, locator n i]) g) =
      toPoly φ g * (l.map fun i => 1 + C (fieldLocator φ n i) * X).prod := by
    intro l
    induction l with
    | nil => intro g; rw [List.foldl_nil, List.map_nil, List.prod_nil, mul_one]
    | cons i l ih =>
      intro g
      have hfactor : toPoly φ [1, locator n i] = 1 + C (fieldLocator φ n i) * X := by
        rw [toPoly, toPoly, toPoly, mul_zero, add_zero, hφ.map_one, C_1, mul_comm, fieldLocator]
      rw [List.foldl_cons, ih, hφ.toPoly_polyMul, hfactor, List.map_cons, List.prod_cons, mul_assoc]
  rw [erasureLocator, hfold, hφ.toPoly_one, one_mul, locatorPoly, erasedSet, List.prod_toFinset _ (flagged_nodup era)]

/-- The modified syndromes stand `s` places up in the product of syndromes and erasure locator. -/
theorem modifiedSyndromes_getD (n : Nat) (rz : List Byte) (i : Nat) {p : Nat} {era : List Bool}
    (hi : erasureCount era + i < p) : φ ((modifiedSyndromes p n era rz).getD i 0) =
      (toPoly φ (syndromes p rz) * locatorPoly (fieldLocator φ n) (erasedSet era)).coeff (erasureCount era + i) := by
  rw [modifiedSyndromes, List.getD_eq_getElem?_getD, List.getElem?_drop, ← List.getD_eq_getElem?_getD,
    ← hφ.coeff_toPoly, hφ.coeff_toPoly_take, if_pos hi, hφ.toPoly_polyMul, hφ.toPoly_erasureLocator]

variable [CharP K 2]

theorem difference_eq_zero_iff {rz c : List Byte} {i : Nat} : difference φ rz c i = 0 ↔ rz.getD i 0 = c.getD i 0 := by
  rw [difference, CharTwo.add_eq_zero, hφ.injective.eq_iff]

theorem difference_eq_zero {r c : List Byte} {era : List Bool} {i : Nat} (hi : i < r.length)
    (hW : i ∉ errataSet r era c) : difference φ (zeroErased r era) c i = 0 := by
  rw [errataSet, Finset.mem_union, not_or, mem_erasedSet, Bool.not_eq_true, mem_errorSet] at hW
  rw [hφ.difference_eq_zero_iff, zeroErased_getD hi hW.2]
  by_contra hne
  exact hW.1 ⟨hi, hW.2, Ne.symm hne⟩

theorem difference_ne_zero {r c : List Byte} {era : List Bool} {i : Nat} (hi : i ∈ errorSet r era c) :
    difference φ (zeroErased r era) c i ≠ 0 := by
  obtain ⟨hlen, he, hne⟩ := mem_errorSet.1 hi
  rw [ne_eq, hφ.difference_eq_zero_iff, zeroErased_getD hlen he]
  exact hne.symm

omit [CharP K 2] in
theorem coeff_syndromes {p j : Nat} (w : List Byte) (hj : j < p) :
    (toPoly φ (syndromes p w)).coeff j =
      ∑ i ∈ Finset.range w.length, φ (w.getD i 0) * fieldLocator φ w.length i ^ j := by
  rw [hφ.coeff_toPoly, syndromes, getD_map_range _ _ hj, hφ.map_polyEvalHigh_eq_sum]
  refine Finset.sum_congr rfl fun i _ => ?_
  rw [fieldLocator, locator, hφ.map_gfExp, hφ.map_gfExp, pow_right_comm]

omit [CharP K 2] in
theorem coeff_syndromes_codeword {p j n : Nat} {c : List Byte} (hc : IsCodeword p n c) (hj : j < p) :
    (toPoly φ (syndromes p c)).coeff j = 0 := by
  rw [hφ.coeff_toPoly, syndromes, getD_map_range _ _ hj, hc.2 j hj, hφ.map_zero]

section
variable {p : Nat} {r c : List Byte} {era : List Bool} (hw : WithinRadius p r era c) (hera : era.length = r.length)
include hw hera

/-- The syndromes of the received word are those of its difference from a codeword (rule R213). -/
theorem hasSyndromes : HasSyndromes (fieldLocator φ r.length) (difference φ (zeroErased r era) c) (errataSet r era c) p
    (toPoly φ (syndromes p (zeroErased r era))) := by
  obtain ⟨hc, -⟩ := hw
  intro j hj
  calc (toPoly φ (syndromes p (zeroErased r era))).coeff j
      = (toPoly φ (syndromes p (zeroErased r era))).coeff j + (toPoly φ (syndromes p c)).coeff j := by
        rw [hφ.coeff_syndromes_codeword hc hj, add_zero]
    _ = ∑ i ∈ Finset.range r.length, difference φ (zeroErased r era) c i * fieldLocator φ r.length i ^ j := by
        rw [hφ.coeff_syndromes _ hj, hφ.coeff_syndromes _ hj, zeroErased_length, hc.1, ← Finset.sum_add_distrib]
        exact Finset.sum_congr rfl fun i _ => (add_mul _ _ _).symm
    _ = ∑ i ∈ errataSet r era c, difference φ (zeroErased r era) c i * fieldLocator φ r.length i ^ j := by
        refine (Finset.sum_subset (fun i hi => Finset.mem_range.2 (lt_of_mem_errataSet hera hi)) fun i hi hW => ?_).symm
        rw [hφ.difference_eq_zero (Finset.mem_range.1 hi) hW, zero_mul]

variable (hinj : ∀ i ∈ errataSet r era c, ∀ k < r.length, fieldLocator φ r.length k = fieldLocator φ r.length i → k = i)
include hinj

/-- The decoder finds the error locator. -/
theorem toPoly_errorLocator : toPoly φ (errorLocator p r.length era (zeroErased r era)) =
    locatorPoly (fieldLocator φ r.length) (errorSet r era c) := by
  have hp : 2 * (errorSet r era c).card + (erasedSet era).card ≤ p := by
    rw [card_errorSet, card_erasedSet]
    exact hw.2
  obtain ⟨l, hgen, hmin⟩ := hφ.generates_berlekampMassey (modifiedSyndromes p r.length era (zeroErased r era))
  rw [modifiedSyndromes_length, ← card_erasedSet] at hgen hmin
  refine eq_errorLocator (hφ.fieldLocator_ne_zero r.length) (fun k hk i hi => hinj i hi k (lt_of_mem_errataSet hera hk))
    (disjoint_errorSet_erasedSet r era c) (fun i hi => hφ.difference_ne_zero hi) (hφ.hasSyndromes hw hera) hp
    (fun i hi => ?_) hgen hmin
  rw [hφ.coeff_toPoly, List.getD_cons_succ, card_erasedSet]
  exact hφ.modifiedSyndromes_getD _ _ _ (by rw [card_erasedSet] at hi; omega)

/-- The decoder's error-and-erasure locator. -/
theorem toPoly_errataLocator :
    toPoly φ (polyMul (errorLocator p r.length era (zeroErased r era)) (erasureLocator r.length (flagged era))) =
      locatorPoly (fieldLocator φ r.length) (errataSet r era c) := by
  rw [hφ.toPoly_polyMul, hφ.toPoly_errorLocator hw hera hinj, hφ.toPoly_erasureLocator, errataSet,
    locatorPoly_union (disjoint_errorSet_erasedSet r era c)]

omit hw in
theorem eval_errataLocator_erase_ne_zero {i : Nat} (hi : i ∈ errataSet r era c) :
    (locatorPoly (fieldLocator φ r.length) ((errataSet r era c).erase i)).eval (fieldLocator φ r.length i)⁻¹ ≠ 0 :=
  eval_locatorPoly_erase_ne_zero (hφ.fieldLocator_ne_zero r.length) fun k hk =>
    hinj i hi k (lt_of_mem_errataSet hera hk)

section
variable {psi : List Byte} (hpsi : toPoly φ psi = locatorPoly (fieldLocator φ r.length) (errataSet r era c))
include hpsi

omit [CharP K 2] hw hera hinj in
theorem polyDegree_errataLocator : polyDegree psi = (errataSet r era c).card := by
  rw [← hφ.natDegree_toPoly, hpsi, natDegree_locatorPoly (hφ.fieldLocator_ne_zero r.length)]

omit hw in
/-- The positions the Chien search finds are the errors and erasures. -/
theorem mem_locatorRoots {i : Nat} : i ∈ locatorRoots r.length psi ↔ i ∈ errataSet r era c := by
  have hx := hφ.fieldLocator_ne_zero r.length
  rw [locatorRoots, List.mem_filter, List.mem_range, beq_iff_eq, ← hφ.eq_zero_iff, hφ.map_polyEval,
    hφ.map_gfInv_locator, hpsi, eval_locatorPoly_eq_zero_iff hx]
  constructor
  · rintro ⟨hi, k, hk, hki⟩
    rwa [hinj k hk i hi hki.symm]
  · exact fun hi => ⟨lt_of_mem_errataSet hera hi, i, hi, rfl⟩

omit hw in
theorem locatorRoots_length : (locatorRoots r.length psi).length = polyDegree psi := by
  have hset : (locatorRoots r.length psi).toFinset = errataSet r era c := by
    ext i
    rw [List.mem_toFinset, hφ.mem_locatorRoots hera hinj hpsi]
  rw [hφ.polyDegree_errataLocator hpsi, ← hset]
  exact (List.toFinset_card_of_nodup (List.nodup_range.filter _)).symm

omit hw hera hinj in
theorem map_polyEval_polyDeriv {i : Nat} (hi : i ∈ errataSet r era c) :
    φ (polyEval (polyDeriv psi) (gfInv (locator r.length i))) = fieldLocator φ r.length i *
      (locatorPoly (fieldLocator φ r.length) ((errataSet r era c).erase i)).eval (fieldLocator φ r.length i)⁻¹ := by
  rw [hφ.map_polyEval, hφ.map_gfInv_locator, hφ.toPoly_polyDeriv, hpsi,
    eval_derivative_locatorPoly (hφ.fieldLocator_ne_zero r.length) hi]

omit hw in
theorem polyEval_polyDeriv_ne_zero {i : Nat} (hi : i ∈ errataSet r era c) :
    polyEval (polyDeriv psi) (gfInv (locator r.length i)) ≠ 0 := by
  rw [ne_eq, ← hφ.eq_zero_iff, hφ.map_polyEval_polyDeriv hpsi hi]
  exact mul_ne_zero (hφ.fieldLocator_ne_zero _ i) (hφ.eval_errataLocator_erase_ne_zero hera hinj hi)

omit hinj in
/-- The decoder's evaluator. -/
theorem toPoly_omega : toPoly φ ((polyMul (syndromes p (zeroErased r era)) psi).take p) =
    evaluatorPoly (fieldLocator φ r.length) (difference φ (zeroErased r era) c) (errataSet r era c) := by
  have hcard := card_errataSet r era c
  have hrad := hw.2
  ext k
  rw [hφ.coeff_toPoly_take, hφ.toPoly_polyMul, hpsi]
  split_ifs with hk
  · exact (hφ.hasSyndromes hw hera).coeff_mul hk
  · exact (evaluatorPoly_coeff_eq_zero (hφ.fieldLocator_ne_zero r.length) (by omega)).symm

/-- Forney's value is the difference from the codeword. -/
theorem map_forneyValue {i : Nat} (hi : i ∈ errataSet r era c) :
    φ (gfMul (gfMul (locator r.length i)
        (polyEval ((polyMul (syndromes p (zeroErased r era)) psi).take p) (gfInv (locator r.length i))))
      (gfInv (polyEval (polyDeriv psi) (gfInv (locator r.length i))))) = difference φ (zeroErased r era) c i := by
  have hx := hφ.fieldLocator_ne_zero r.length
  have hne := hφ.eval_errataLocator_erase_ne_zero hera hinj hi
  have hloc : φ (locator r.length i) = fieldLocator φ r.length i := rfl
  rw [hφ.map_gfMul, hφ.map_gfMul, hφ.map_gfInv, hφ.map_polyEval_polyDeriv hpsi hi, hφ.map_polyEval,
    hφ.map_gfInv_locator, hφ.toPoly_omega hw hera hpsi, eval_evaluatorPoly hx hi, hloc, ← div_eq_mul_inv, mul_left_comm,
    mul_div_assoc, div_self (mul_ne_zero (hx i) hne), mul_one]

/-- Forney's values lead from the received word to the codeword. -/
theorem forneyCorrect_eq : forneyCorrect r.length ((polyMul (syndromes p (zeroErased r era)) psi).take p)
    (polyDeriv psi) (locatorRoots r.length psi) (zeroErased r era) = c := by
  refine List.ext_getElem ((forneyCorrect_length _ _ _ _ _).trans hw.length_eq.symm) fun i hi hic => ?_
  rw [forneyCorrect_length] at hi
  rw [← List.getD_eq_getElem _ 0, ← List.getD_eq_getElem _ 0, forneyCorrect_getD _ _ _ _ hi]
  by_cases hW : i ∈ errataSet r era c
  · rw [if_pos ((hφ.mem_locatorRoots hera hinj hpsi).2 hW)]
    apply hφ.injective
    rw [hφ.map_xor, hφ.map_forneyValue hw hera hinj hpsi hW, difference, ← add_assoc, CharTwo.add_self_eq_zero,
      zero_add]
  · rw [if_neg (mt (hφ.mem_locatorRoots hera hinj hpsi).1 hW)]
    exact hφ.difference_eq_zero_iff.1 (hφ.difference_eq_zero hi hW)

end

/-- Within the radius, and with the locators of the errata unlike any other, the decoder returns the codeword. -/
theorem rsDecode_eq_success (len : Nat) :
    rsDecode len p r era = .success (c.take len) (errorsOutside r era c) (erasureCount era) := by
  have hpsi := hφ.toPoly_errataLocator hw hera hinj
  have hdeg : polyDegree (errorLocator p r.length era (zeroErased r era)) = errorsOutside r era c := by
    rw [← hφ.natDegree_toPoly, hφ.toPoly_errorLocator hw hera hinj,
      natDegree_locatorPoly (hφ.fieldLocator_ne_zero r.length), card_errorSet]
  have hrad := hw.2
  rw [rsDecode_eq, if_neg (by omega), hdeg, if_neg (by omega), rsCorrect_eq,
    if_neg (not_not.2 (hφ.locatorRoots_length hera hinj hpsi)), if_neg, hφ.forneyCorrect_eq hw hera hinj hpsi]
  · rcases rsAccept_cases len p r era hw.length_eq with ⟨-, h⟩ | ⟨hno, -⟩
    · exact h
    · exact absurd hw hno
  · rw [List.any_eq_true]
    rintro ⟨i, hi, h0⟩
    rw [hφ.mem_locatorRoots hera hinj hpsi] at hi
    exact hφ.polyEval_polyDeriv_ne_zero hera hinj hpsi hi (beq_iff_eq.1 h0)

end

end FieldModel
end

/-! ### The statements -/

/-- The positions of a word of at most 255 symbols have different locators (rule R213). -/
theorem locator_inj {n i j : Nat} (hn : n ≤ 255) (hi : i < n) (hj : j < n) (h : locator n i = locator n j) :
    i = j := by
  have hexp : n - 1 - i = n - 1 - j := gfExp_inj (by omega) (by omega) h
  omega

/-- Within the radius the decoder returns the codeword, for every word of at most 255 symbols. -/
theorem rsDecode_of_withinRadius {p : Nat} {r c : List Byte} {era : List Bool} (hw : WithinRadius p r era c)
    (hera : era.length = r.length) (hn : r.length ≤ 255) (len : Nat) :
    rsDecode len p r era = .success (c.take len) (errorsOutside r era c) (erasureCount era) := by
  obtain ⟨K, _, _, φ, hφ⟩ := exists_fieldModel
  exact hφ.rsDecode_eq_success hw hera (fun i hi k hk h =>
    locator_inj hn hk (lt_of_mem_errataSet hera hi) (hφ.injective h)) len

/-- At most one codeword lies within the radius: the decoder returns it whole when it is asked for every symbol. -/
theorem WithinRadius.unique {p : Nat} {r c d : List Byte} {era : List Bool} (hc : WithinRadius p r era c)
    (hd : WithinRadius p r era d) (hera : era.length = r.length) (hn : r.length ≤ 255) : c = d := by
  have h := (rsDecode_of_withinRadius hc hera hn r.length).symm.trans (rsDecode_of_withinRadius hd hera hn r.length)
  obtain ⟨htake, -, -⟩ := RsResult.success.inj h
  rwa [List.take_of_length_le hc.length_eq.le, List.take_of_length_le hd.length_eq.le] at htake

/-- Settles O42: the decoder finds the codeword within the radius, and a success always names such a codeword. -/
theorem rsDecodeFindsTheCodewordWithinTheRadius : Obligations.RsDecodeFindsTheCodewordWithinTheRadius := by
  intro len p r era ⟨_, hmax, hpar, hr, hera⟩
  have hera' : era.length = r.length := hera.trans hr.symm
  have hn : r.length ≤ 255 := by
    rw [hr, hpar]
    exact add_parityLen_le hmax
  refine ⟨fun c hc => rsDecode_of_withinRadius hc hera' hn len, fun hno => ?_,
    fun c d hc hd => hc.unique hd hera' hn, fun q hq hagree => rsDecode_congr hq.symm hagree len p⟩
  rcases soundAnswer_rsDecode len p r era with ⟨c, hc, -⟩ | h
  · exact absurd hc (hno c)
  · exact h

/-! ### Words without errors -/

theorem flagged_replicate_false (n : Nat) : flagged (List.replicate n false) = [] := by
  refine List.eq_nil_iff_forall_not_mem.2 fun i hi => ?_
  rw [mem_flagged, List.getD_eq_getElem?_getD, List.getElem?_getD_replicate_default_eq] at hi
  exact absurd hi (by decide)

/-- Settles O45: the codeword lies within the radius of itself, with no errata. -/
theorem unmodifiedCodewordsDecode : Obligations.UnmodifiedCodewordsDecode := by
  intro p m
  obtain ⟨K, _, _, φ, hφ⟩ := exists_fieldModel
  have hs : erasureCount (List.replicate (m.length + p) false) = 0 := by
    rw [erasureCount, flagged_replicate_false, List.length_nil]
  have he : errorsOutside (rsEncode p m) (List.replicate (m.length + p) false) (rsEncode p m) = 0 := by
    simp [errorsOutside]
  have hw : WithinRadius p (rsEncode p m) (List.replicate (m.length + p) false) (rsEncode p m) := by
    refine ⟨?_, by rw [hs, he]; exact Nat.zero_le p⟩
    rw [rsEncode_length]
    exact isCodeword_rsEncode p m
  have hempty : errataSet (rsEncode p m) (List.replicate (m.length + p) false) (rsEncode p m) = ∅ :=
    Finset.card_eq_zero.1 (by rw [card_errataSet, hs, he])
  rw [hφ.rsDecode_eq_success hw (by rw [List.length_replicate, rsEncode_length]) (fun i hi => by simp [hempty] at hi),
    rsEncode_take, hs, he]

end Sys2Proof.Machine
end

section
/-! PROOFS. The interleaver (rules R241 to R244): Apply and Unapply entry by entry, and what ILV and DILV do to
CW and ERAS. -/

namespace Sys2Proof.Machine

/-! ### Apply and Unapply -/

/-- Stores to other positions leave entry `j` alone. -/
theorem foldl_set_getElem?_of_not_mem {α : Type} {j : Nat} : ∀ (ps : List (Nat × α)) (l : List α),
    j ∉ ps.map Prod.fst → (ps.foldl (fun l jv => l.set jv.1 jv.2) l)[j]? = l[j]?
  | [], _, _ => rfl
  | (k, v) :: ps, l, h => by
    rw [List.map_cons, List.mem_cons, not_or] at h
    obtain ⟨hk, hps⟩ := h
    rw [List.foldl_cons, foldl_set_getElem?_of_not_mem ps _ hps, List.getElem?_set_ne (Ne.symm hk)]

/-- Of stores to distinct positions, each one's value stays. -/
theorem foldl_set_getElem?_of_mem {α : Type} {j : Nat} {v : α} : ∀ (ps : List (Nat × α)) (l : List α),
    (ps.map Prod.fst).Nodup → (j, v) ∈ ps → j < l.length →
      (ps.foldl (fun l jv => l.set jv.1 jv.2) l)[j]? = some v
  | (k, w) :: ps, l, hd, hm, hj => by
    rw [List.map_cons, List.nodup_cons] at hd
    obtain ⟨hk, hps⟩ := hd
    rw [List.foldl_cons]
    rcases List.mem_cons.1 hm with heq | hm
    · cases heq
      rw [foldl_set_getElem?_of_not_mem ps _ hk, List.getElem?_set_self hj]
    · exact foldl_set_getElem?_of_mem ps _ hps hm (by rwa [List.length_set])

/-- Apply moves entry `perm[i]` to position `i`. -/
theorem applyPerm_getElem? {α : Type} (d : α) {perm : List Nat} {l : List α} {i j : Nat} (h : perm[i]? = some j)
    (hj : j < l.length) : (applyPerm d perm l)[i]? = l[j]? := by
  rw [applyPerm, List.getElem?_map, h, Option.map_some, List.getD_eq_getElem l d hj, List.getElem?_eq_getElem hj]

section
variable {n : Nat} {perm : List Nat} (hp : perm.Perm (List.range n))
include hp

theorem perm_range_length : perm.length = n := by rw [hp.length_eq, List.length_range]

/-- A permutation names positions below its length. -/
theorem lt_of_perm_range {i j : Nat} (h : perm[i]? = some j) : j < n :=
  List.mem_range.1 (hp.subset (List.mem_of_getElem? h))

/-- A permutation names every position. -/
theorem exists_of_perm_range {j : Nat} (hj : j < n) : ∃ i < n, perm[i]? = some j := by
  obtain ⟨i, h⟩ := List.mem_iff_getElem?.1 (hp.symm.subset (List.mem_range.2 hj))
  obtain ⟨hi, -⟩ := List.getElem?_eq_some_iff.1 h
  exact ⟨i, by rwa [perm_range_length hp] at hi, h⟩

/-- Unapply moves entry `i` to position `perm[i]`. -/
theorem unapplyPerm_getElem? {α : Type} {y : List α} (hy : y.length = n) {i j : Nat} (h : perm[i]? = some j) :
    (unapplyPerm perm y)[j]? = y[i]? := by
  have hlen := perm_range_length hp
  obtain ⟨hi, -⟩ := List.getElem?_eq_some_iff.1 h
  have hi' : i < y.length := by omega
  have hkeys : (perm.zip y).map Prod.fst = perm := List.map_fst_zip (by omega)
  have hmem : (j, y[i]) ∈ perm.zip y :=
    List.mem_of_getElem? (List.getElem?_zip_eq_some.2 ⟨h, List.getElem?_eq_getElem hi'⟩)
  have hdistinct : ((perm.zip y).map Prod.fst).Nodup := hkeys.symm ▸ hp.nodup_iff.2 List.nodup_range
  rw [unapplyPerm, foldl_set_getElem?_of_mem _ _ hdistinct hmem (hy ▸ lt_of_perm_range hp h),
    List.getElem?_eq_getElem hi']

theorem unapplyPerm_applyPerm {α : Type} (d : α) {l : List α} (hl : l.length = n) :
    unapplyPerm perm (applyPerm d perm l) = l := by
  have hlen : (applyPerm d perm l).length = n := (applyPerm_length d perm l).trans (perm_range_length hp)
  refine List.ext_getElem? fun j => ?_
  rcases Nat.lt_or_ge j n with hj | hj
  · obtain ⟨i, -, h⟩ := exists_of_perm_range hp hj
    rw [unapplyPerm_getElem? hp hlen h, applyPerm_getElem? d h (hl ▸ hj)]
  · rw [List.getElem?_eq_none (by rwa [unapplyPerm_length, hlen]), List.getElem?_eq_none (hl ▸ hj)]

theorem applyPerm_unapplyPerm {α : Type} (d : α) {l : List α} (hl : l.length = n) :
    applyPerm d perm (unapplyPerm perm l) = l := by
  have hlen := perm_range_length hp
  refine List.ext_getElem? fun i => ?_
  rcases Nat.lt_or_ge i perm.length with hi | hi
  · have h : perm[i]? = some perm[i] := List.getElem?_eq_getElem hi
    have hj : perm[i] < (unapplyPerm perm l).length := by
      rw [unapplyPerm_length, hl]
      exact lt_of_perm_range hp h
    rw [applyPerm_getElem? d h hj, unapplyPerm_getElem? hp hl h]
  · rw [List.getElem?_eq_none (by rwa [applyPerm_length]), List.getElem?_eq_none (by omega)]

end

/-- Settles O46: the shuffle names each position once, so Apply and Unapply move each entry there and back. -/
theorem unapplyInvertsApply : Obligations.UnapplyInvertsApply := fun n _ _ =>
  ⟨buildShuffle_perm n, fun _ d _ hc =>
    ⟨unapplyPerm_applyPerm (buildShuffle_perm n) d hc, applyPerm_unapplyPerm (buildShuffle_perm n) d hc⟩⟩

/-! ### PERM as the commands use it -/

theorem permList_getElem? {s : State} {i : Nat} (hi : i < s.ncw) (hn : s.ncw ≤ 255) :
    s.permList[i]? = some (tableGet s.perm i 0).toNat := by
  have hlen : i < s.perm.toList.length := by rw [Vector.length_toList]; exact hi.trans_le hn
  rw [State.permList, tableTake, List.getElem?_map, List.getElem?_take_of_lt hi, List.getElem?_eq_getElem hlen,
    tableGet, List.getD_eq_getElem _ _ hlen, Option.map_some]

/-- PERM holds positions in bytes and loses nothing: positions are below 255 (rule R210). -/
theorem map_toNat_permBytes {n : Nat} (hn : n ≤ 255) : (permBytes n).map BitVec.toNat = buildShuffle n := by
  rw [permBytes, List.map_map]
  refine (List.map_congr_left fun j hj => ?_).trans (List.map_id _)
  have hlt : j < n := List.mem_range.1 ((buildShuffle_perm n).subset hj)
  exact (BitVec.toNat_ofNat j 8).trans (Nat.mod_eq_of_lt (by omega))

/-- The permutation of a configured block is the shuffle of its codeword length (rule R240). -/
theorem ConfiguredBy.permList_eq {s : State} {c : CfgRegs} (h : ConfiguredBy s c) (hn : s.ncw ≤ 255) :
    s.permList = buildShuffle s.ncw := by
  rw [State.permList, h.perm, map_toNat_permBytes hn]

/-! ### CW and ERAS stored together -/

/-- What ILV and DILV leave: both buffers stored, RESULT = OK (rules R243, R244). -/
def State.storeCodeword (s : State) (cs : List Byte) (es : List Bool) : State :=
  ((s.storeBytes .cw cs).storeEras es).done

section
variable {n : Nat} {cs : List Byte} {es : List Bool} (hc : cs.length = n) (he : es.length = n) (hn : n ≤ 255)

include hc he hn in
theorem storeCodeword_cw (s : State) {i : Nat} (hi : i < n) : (s.storeCodeword cs es).byteElem .cw i = cs[i]? := by
  have hout : ¬ inByteElems .eras es.length (Buf.elemAddr .cw i) := by
    rintro ⟨j, hj, h⟩
    obtain ⟨hb, -⟩ := elemAddr_injective (.inr (.inl rfl)) (.inr (.inr rfl)) (hi.trans_le hn)
      (by rw [Config.bufBytes]; omega) h
    cases hb
  calc (s.storeCodeword cs es).byteElem .cw i = (s.storeBytes .cw cs).byteElem .cw i := storeEras_frame _ es _ hout
    _ = cs[i]? := by rw [storeBytes_elem s .cw cs i (hc ▸ hi), List.getElem?_eq_getElem]

include he in
theorem storeCodeword_eras (s : State) {i : Nat} (hi : i < n) : (s.storeCodeword cs es).erasElem i = es[i]? :=
  (storeEras_elem (s.storeBytes .cw cs) es i (he ▸ hi)).trans (List.getElem?_eq_getElem (he ▸ hi)).symm

include hc he in
theorem storeCodeword_frame (s : State) {a : Nat} (hcw : ¬ inByteElems .cw n a) (heras : ¬ inByteElems .eras n a) :
    (s.storeCodeword cs es).mem.read a = s.mem.read a :=
  (storeEras_frame (s.storeBytes .cw cs) es a (he ▸ heras)).trans (storeBytes_frame s .cw cs a (hc ▸ hcw))

end

/-! ### ILV and DILV -/

/-- The values of written elements are the elements. -/
theorem values_getElem?_of_ready {α : Type} {f : Nat → Option α} {n : Nat} (h : Ready f n) (d : α) {i : Nat}
    (hi : i < n) : (values f d n)[i]? = f i := by
  obtain ⟨x, hx⟩ := Option.isSome_iff_exists.1 (h i hi)
  rw [values_getElem? f d hi, hx, Option.getD_some]

theorem written_of_cwReady {s : State} {n j : Nat} (h : s.cwReady n) (hj : j < n) {b : Buf}
    (hb : b = .cw ∨ b = .eras) : s.written b j = true := by
  rcases hb with rfl | rfl
  · exact h.1 j hj
  · exact h.2 j hj

theorem exec_ilv_ready {s : State} (hv : s.cfgValid = true) (hr : s.cwReady s.ncw) :
    exec .ilv s = .next (s.storeCodeword (applyPerm 0 s.permList (s.cwBytes s.ncw))
      (applyPerm false s.permList (s.erasBits s.ncw))) := by
  rcases exec_ilv_cases s with ⟨h, -⟩ | ⟨-, ⟨-, h⟩ | ⟨b, j, hj, hb, hn, -⟩⟩
  · simp [hv] at h
  · exact h
  · simp [written_of_cwReady hr hj hb] at hn

theorem exec_dilv_ready {s : State} (hv : s.cfgValid = true) (hr : s.cwReady s.ncw) :
    exec .dilv s = .next (s.storeCodeword (unapplyPerm s.permList (s.cwBytes s.ncw))
      (unapplyPerm s.permList (s.erasBits s.ncw))) := by
  rcases exec_dilv_cases s with ⟨h, -⟩ | ⟨-, ⟨-, h⟩ | ⟨b, j, hj, hb, hn, -⟩⟩
  · simp [hv] at h
  · exact h
  · simp [written_of_cwReady hr hj hb] at hn

/-- Settles O47: the stored lists are the old elements moved by PERM, which names each position once. -/
theorem interleaverCommandsPermuteCwAndEras : Obligations.InterleaverCommandsPermuteCwAndEras := by
  intro s hv hr hn hperm
  have hp : s.permList.Perm (List.range s.ncw) := hperm ▸ buildShuffle_perm s.ncw
  have hcw : (s.cwBytes s.ncw).length = s.ncw := values_length _ _ _
  have heras : (s.erasBits s.ncw).length = s.ncw := values_length _ _ _
  constructor
  · have hc := (applyPerm_length 0 s.permList (s.cwBytes s.ncw)).trans (perm_range_length hp)
    have he := (applyPerm_length false s.permList (s.erasBits s.ncw)).trans (perm_range_length hp)
    refine ⟨_, exec_ilv_ready hv hr, rfl, fun i hi => ?_, fun a => storeCodeword_frame hc he s⟩
    have h := permList_getElem? hi hn
    have hj := lt_of_perm_range hp h
    rw [storeCodeword_cw hc he hn s hi, storeCodeword_eras he s hi, applyPerm_getElem? 0 h (hcw.symm ▸ hj),
      applyPerm_getElem? false h (heras.symm ▸ hj)]
    exact ⟨values_getElem?_of_ready hr.1 0 hj, values_getElem?_of_ready hr.2 false hj⟩
  · have hc := (unapplyPerm_length s.permList (s.cwBytes s.ncw)).trans hcw
    have he := (unapplyPerm_length s.permList (s.erasBits s.ncw)).trans heras
    refine ⟨_, exec_dilv_ready hv hr, rfl, fun i hi => ?_, fun a => storeCodeword_frame hc he s⟩
    have h := permList_getElem? hi hn
    have hj := lt_of_perm_range hp h
    rw [storeCodeword_cw hc he hn s hj, storeCodeword_eras he s hj, unapplyPerm_getElem? hp hcw h,
      unapplyPerm_getElem? hp heras h]
    exact ⟨values_getElem?_of_ready hr.1 0 hi, values_getElem?_of_ready hr.2 false hi⟩

/-! ### ILV and then DILV -/

/-- An ERAS element is its flag: no other bit of it is ever set (rule R43). -/
theorem StorageOk.byteElem_eras {s : State} (h : StorageOk s) {i : Nat} (hi : i < 255) :
    s.byteElem .eras i = (s.erasElem i).map erasByte := by
  cases hb : s.byteElem .eras i with
  | none => rw [State.erasElem, hb]; rfl
  | some b =>
    rw [State.erasElem, hb]
    rcases h.erasBit i hi b hb with rfl | rfl <;> rfl

/-- Memories that meet the storage invariant are equal if they hold the same first elements of CW and ERAS and the same
other bytes: in canonical form equal reads are equal cells (log entry 9). -/
theorem StorageOk.mem_eq {s t : State} (hs : StorageOk s) (ht : StorageOk t) {n : Nat} (hn : n ≤ 255)
    (hcw : ∀ i, i < n → t.byteElem .cw i = s.byteElem .cw i) (heras : ∀ i, i < n → t.erasElem i = s.erasElem i)
    (hframe : ∀ a, ¬ inByteElems .cw n a → ¬ inByteElems .eras n a → t.mem.read a = s.mem.read a) :
    t.mem = s.mem := by
  refine Memory.ext_of_read ht.canonical hs.canonical fun a => ?_
  by_cases hc : inByteElems .cw n a
  · obtain ⟨i, hi, rfl⟩ := hc
    exact hcw i hi
  by_cases he : inByteElems .eras n a
  · obtain ⟨i, hi, rfl⟩ := he
    have hi' : i < 255 := hi.trans_le hn
    calc t.byteElem .eras i = (t.erasElem i).map erasByte := ht.byteElem_eras hi'
      _ = (s.erasElem i).map erasByte := by rw [heras i hi]
      _ = s.byteElem .eras i := (hs.byteElem_eras hi').symm
  · exact hframe a hc he

/-- Settles O48: DILV takes each symbol and flag back to the position ILV took it from, no other byte changes, and equal
reads are equal memories. -/
theorem ilvThenDilvRestoresTheState : Obligations.IlvThenDilvRestoresTheState := by
  intro s hinv hv hr
  have hn : s.ncw ≤ 255 := (hinv.config.lengths hv).codewordFits
  obtain ⟨c, hc⟩ := hinv.config.built hv
  have hperm : s.permList = buildShuffle s.ncw := hc.permList_eq hn
  have hp : s.permList.Perm (List.range s.ncw) := hperm ▸ buildShuffle_perm s.ncw
  obtain ⟨⟨t, hexec, ht, helem, hframe⟩, -⟩ := interleaverCommandsPermuteCwAndEras s hv hr hn hperm
  obtain ⟨hinvt, -⟩ := keepsInv_ilv hinv t hexec
  have hncw : t.ncw = s.ncw := (congrArg State.ncw ht :)
  have hpermt : t.perm = s.perm := (congrArg State.perm ht :)
  have hlist : t.permList = s.permList := (congrArg State.permList ht :)
  have hrt : t.cwReady t.ncw := by
    rw [hncw]
    have hj {i : Nat} (hi : i < s.ncw) := lt_of_perm_range hp (permList_getElem? hi hn)
    exact ⟨fun i hi => (helem i hi).1 ▸ hr.1 _ (hj hi), fun i hi => (helem i hi).2 ▸ hr.2 _ (hj hi)⟩
  obtain ⟨-, u, hexecu, hu, helemu, hframeu⟩ := interleaverCommandsPermuteCwAndEras t
    ((congrArg State.cfgValid ht :).trans hv) hrt (hncw ▸ hn) (by rw [hlist, hncw, hperm])
  obtain ⟨hinvu, -⟩ := keepsInv_dilv hinvt u hexecu
  rw [hncw, hpermt] at helemu
  rw [hncw] at hframeu
  have hback : ∀ j, j < s.ncw → u.byteElem .cw j = s.byteElem .cw j ∧ u.erasElem j = s.erasElem j := by
    intro j hj
    obtain ⟨i, hi, h⟩ := exists_of_perm_range hp hj
    obtain rfl : (tableGet s.perm i 0).toNat = j := Option.some_inj.1 ((permList_getElem? hi hn).symm.trans h)
    exact ⟨(helemu i hi).1.trans (helem i hi).1, (helemu i hi).2.trans (helem i hi).2⟩
  have hmem : u.mem = s.mem := hinv.storage.mem_eq hinvu.storage hn (fun j hj => (hback j hj).1)
    (fun j hj => (hback j hj).2) fun a hcw heras => (hframeu a hcw heras).trans (hframe a hcw heras)
  refine ⟨t, hexec, hexecu.trans (congrArg Host.Outcome.next ?_)⟩
  rw [hu, ht, hmem]

end Sys2Proof.Machine
end

section
/-! PROOFS. FEED outside a body makes the trigger transition its window's two tests decide, and silence passes neither
test, whatever COS64 is (rules R261, R262, R267, R302, R303). -/

namespace Sys2Proof.Machine

/-! ### FEED outside a body -/

/-- A FEED that passes its checks on a written window processes that window. -/
theorem exec_feed_of_winReady {s : State} (f : Bool) (hv : s.cfgValid = true) (hw : s.arg.winLen = s.drv.windowLen)
    (hr : s.winReady s.windowLen) : exec (.feed f) s = .next (feedWindow f (s.window s.windowLen) s) := by
  rcases exec_feed_cases f s with ⟨h, -⟩ | ⟨-, h, -⟩ | ⟨-, -, ⟨-, h⟩ | ⟨j, hj, hn, -⟩⟩
  · simp [hv] at h
  · exact absurd hw h
  · exact h
  · exact absurd hn (winReady_sample_ne_none hr hj)

/-- Outside a body FEED goes on in IDLE, in SEARCHING if it did not start in IDLE (rule R302). -/
theorem Session.consumed_of_not_triggered {u : Session} (h : u.engine ≠ .triggered) :
    u.consumed = { u with engine := .idle, trigSub := if u.engine = .idle then u.trigSub else .searching } := by
  rcases Session.consumed_cases u with ⟨he, e⟩ | ⟨he, e⟩ <;> rw [e]
  · have hi : u.engine = .idle := he.resolve_right h
    rw [if_pos hi, ← hi]
  · have hi : u.engine ≠ .idle := by rcases he with he | he <;> simp [he]
    rw [if_neg hi]

/-- The stream index of the window a FEED processes: ARG_OFFSET for `feed.o` (rule R303). -/
def State.feedStart (f : Bool) (s : State) : Word := if f then s.arg.offset else s.ses.offset

/-- The end of a FEED: SES_OFFSET and RESULT (rule R303). -/
def State.feedDone (offset : Word) (s : State) : State := State.done { s with ses := { s.ses with offset := offset } }

/-- Outside a body FEED is one step of the trigger detector, and then SES_OFFSET and RESULT (rule R303). -/
theorem feedWindow_of_not_triggered {s : State} (f : Bool) (x : List F64) (h : s.ses.engine ≠ .triggered) :
    feedWindow f x s = State.feedDone (s.feedStart f + s.drv.windowLen)
      (feedIdle (s.trigMatch x s.active.ta.toNat) (s.trigMatch x s.active.tb.toNat) (s.feedStart f)
        { s with ses := s.ses.consumed }) := by
  have hi : s.ses.consumed.engine ≠ .triggered := by simp [Session.consumed_of_not_triggered h]
  exact congrArg (State.feedDone _) (if_neg hi)

/-! ### The outcomes of the trigger detector -/

section TriggerOutcome

variable {ma mb : Bool} {s : State} (start : Word)

/-- A TA match makes the window the candidate, unless a candidate's TB match comes first (rule R262). -/
theorem feedIdle_of_ta (hb : s.ses.trigSub = .searching ∨ mb = false) (ha : ma = true) :
    feedIdle ma mb start s =
      { s with ses := { s.ses with trigSub := .candidate, candOffset := start, feedStatus := .processing } } := by
  rcases triggerStep_cases ma mb start s.ses with ⟨-, -, e⟩ | ⟨h, -⟩ | ⟨hsub, hmb, -⟩
  · rw [feedIdle, e]
  · simp [ha] at h
  · simp [hsub, hmb] at hb

/-- A window with no match that counts leaves the detector searching (rule R262). -/
theorem feedIdle_of_no_match (hb : s.ses.trigSub = .searching ∨ mb = false) (ha : ma = false) :
    feedIdle ma mb start s =
      { s with ses := { s.ses with trigSub := .searching, feedStatus := .processing } } := by
  rcases triggerStep_cases ma mb start s.ses with ⟨h, -⟩ | ⟨-, -, e⟩ | ⟨hsub, hmb, -⟩
  · simp [ha] at h
  · rw [feedIdle, e]
  · simp [hsub, hmb] at hb

/-- A TB match right after a candidate completes the preamble (rules R262, R264). -/
theorem feedIdle_of_tb (hsub : s.ses.trigSub = .candidate) (hb : mb = true) :
    feedIdle ma mb start s =
      { s with
        ses := { s.ses with
          engine := .triggered, trigSub := .searching, trigIndex := s.ses.candOffset, trigValid := true, accCount := 0,
          payloadValid := false, decode := 0, feedStatus := .processing }
        irqPend := s.irqPend ||| irqTrigger } := by
  rcases triggerStep_cases ma mb start s.ses with ⟨-, h, -⟩ | ⟨-, h, -⟩ | ⟨-, -, e⟩
  · simp [hsub, hb] at h
  · simp [hsub, hb] at h
  · rw [feedIdle, e]

end TriggerOutcome

/-- Settles O51: outside a body FEED is one step of the detector, and its five rows are the detector's three outcomes. -/
theorem feedMakesOneTriggerTransition : Obligations.FeedMakesOneTriggerTransition := by
  intro s f hv hw hr he x start sub ma mb u
  have hfeed {r : State} (h : feedIdle ma mb start { s with ses := { s.ses with engine := .idle, trigSub := sub } } = r) :
      exec (.feed f) s = .next (r.feedDone (start + s.drv.windowLen)) := by
    rw [exec_feed_of_winReady f hv hw hr, feedWindow_of_not_triggered f x he, Session.consumed_of_not_triggered he, ← h]
    rfl
  exact ⟨fun hs ha => hfeed (feedIdle_of_ta _ (.inl hs) ha), fun hs ha => hfeed (feedIdle_of_no_match _ (.inl hs) ha),
    fun hs hb => hfeed (feedIdle_of_tb _ hs hb), fun _ hb ha => hfeed (feedIdle_of_ta _ (.inr hb) ha),
    fun _ hb ha => hfeed (feedIdle_of_no_match _ (.inr hb) ha)⟩

/-! ### Silence -/

/-- A power that is a zero or a NaN fails the trigger test: it does not exceed +0.0 (rule R261). -/
theorem trigDecide_of_zeroOrNaN {p : F64} (hp : ZeroOrNaN p) (snr ms : F64) : trigDecide snr p ms = false := by
  rw [trigDecide, hp.fGt_eq_false zeroOrNaN_fZero, Bool.false_and]

/-- The session listens to silence: a configuration, a window of zeros of its length, and the detector searching. -/
structure HearsSilence (s : State) : Prop where
  configured : s.cfgValid = true
  fullWindow : s.arg.winLen = s.drv.windowLen
  silent : ∀ i, i < s.windowLen → s.sample .win i = some fZero
  idle : s.ses.engine = .idle
  searching : s.ses.trigSub = .searching

/-- The state after `n` silent windows, each fed by the word of `feed` written to CMD (rule R267; log entry 6). -/
def State.afterSilence (s : State) (n : Nat) : State :=
  { s with
    cmd := 0x3#64
    freeEpoch := s.freeEpoch + n
    result := .ok
    ses := { s.ses with feedStatus := .processing, offset := s.ses.offset + BitVec.ofNat 64 n * s.drv.windowLen } }

theorem State.afterSilence_afterSilence (s : State) (m n : Nat) :
    (s.afterSilence m).afterSilence n = s.afterSilence (m + n) := by
  simp only [State.afterSilence, BitVec.ofNat_add, BitVec.add_mul, BitVec.add_assoc, Nat.add_assoc]

/-- A silent window leaves the state listening to silence, whatever the pending queue is. -/
theorem HearsSilence.afterSilence {s : State} (h : HearsSilence s) (n : Nat) : HearsSilence (s.afterSilence n) :=
  ⟨h.configured, h.fullWindow, h.silent, h.idle, h.searching⟩

namespace HearsSilence

variable {s : State} (h : HearsSilence s)
include h

theorem winReady : s.winReady s.windowLen := fun i hi => by rw [h.silent i hi]; rfl

theorem window_zeroOrNaN : ∀ v ∈ s.window s.windowLen, ZeroOrNaN v := by
  intro v hmem
  obtain ⟨i, hi, rfl⟩ := List.mem_map.1 hmem
  rw [h.silent i (List.mem_range.1 hi)]
  exact zeroOrNaN_fZero

/-- FEED on silence changes FEED_STATUS, SES_OFFSET and RESULT alone: silence matches no trigger tone. -/
theorem exec_feed : exec (.feed false) s =
    .next { s with
      result := .ok
      ses := { s.ses with feedStatus := .processing, offset := s.ses.offset + s.drv.windowLen } } := by
  have ht : s.ses.engine ≠ .triggered := by simp [h.idle]
  obtain ⟨-, hrow, -⟩ := feedMakesOneTriggerTransition s false h.configured h.fullWindow h.winReady ht
  rw [hrow ((if_pos h.idle).trans h.searching) (trigDecide_of_zeroOrNaN (zeroOrNaN_power h.window_zeroOrNaN _ _) _ _),
    ← h.idle, ← h.searching]
  rfl

/-- A step on a pending FEED feeds the silent window. -/
theorem step_feed (rest : List HostAccess) :
    step { s with hostQueue := issueAt s.params 0x3#64 :: rest } =
      .next { s.afterSilence 1 with hostQueue := rest } := by
  have hissued : HearsSilence (s.issued 0x3#64 rest) :=
    ⟨h.configured, h.fullWindow, h.silent, h.idle, h.searching⟩
  have hdecode : decode 0x3#64 = .ok (.feed false) := by decide
  have hone : BitVec.ofNat 64 1 * s.drv.windowLen = s.drv.windowLen := BitVec.one_mul _
  refine (step_issue rfl).trans ((execute_legal _ hdecode).trans (hissued.exec_feed.trans ?_))
  rw [State.afterSilence, hone]
  rfl

end HearsSilence

/-- A run whose first step succeeds goes on from its next state. -/
theorem run_succ_of_step {M : Host.Core} {s t : M.State} (h : M.step s = .next t) (k : Nat) :
    M.run (k + 1) s = M.run k t := by
  rw [Host.Core.run, h]

/-- A run over pending FEEDs feeds the silent window that many times. -/
theorem HearsSilence.run_feeds (rest : List HostAccess) (k : Nat) : ∀ {s : State}, HearsSilence s →
    Host.Core.run Sys2Proof.core (k + 1)
        { s with hostQueue := List.replicate (k + 1) (issueAt s.params 0x3#64) ++ rest } =
      .next { s.afterSilence (k + 1) with hostQueue := rest } := by
  induction k with
  | zero => exact fun h => run_succ_of_step (h.step_feed rest) 0
  | succ k ih =>
    intro s h
    refine (run_succ_of_step (h.step_feed _) (k + 1)).trans ((ih (h.afterSilence 1)).trans ?_)
    rw [State.afterSilence_afterSilence, Nat.add_comm 1]

/-- Settles O53: silence keeps the state listening to silence, so the run feeds it k + 1 times. -/
theorem silentWindowsOnlyAdvanceTheStreamOffset : Obligations.SilentWindowsOnlyAdvanceTheStreamOffset :=
  fun k _ rest hv hw hsilent he hsub => HearsSilence.run_feeds rest k ⟨hv, hw, hsilent, he, hsub⟩

end Sys2Proof.Machine
end

section
/-! PROOFS. SYNTH k writes window k of the frame, a preamble tone or the two tones of a body symbol, to OBUF
(rules R281, R282, R284). -/

namespace Sys2Proof.Machine

/-- Window `k` of the frame that carries the payload in PAY: the two preamble tones, then the symbols of the interleaved
codeword (rule R281). -/
def State.frameWindow (s : State) (k : Nat) : List F64 :=
  if k = 0 then s.preambleWindow s.active.ta
  else if k = 1 then s.preambleWindow s.active.tb
  else s.symbolWindow ((s.frameSymbols (s.payload s.len)).getD (k - 2) 0)

@[simp] theorem frameWindow_length (s : State) (k : Nat) : (s.frameWindow k).length = s.windowLen := by
  unfold State.frameWindow
  split_ifs
  · exact preambleWindow_length s _
  · exact preambleWindow_length s _
  · exact symbolWindow_length s _

/-! ### The samples of a window -/

theorem preambleWindow_getElem (s : State) (slot : Byte) {i : Nat} (h : i < (s.preambleWindow slot).length) :
    (s.preambleWindow slot)[i] = toneSample s.active.fs (s.slotFreq slot.toNat) s.arg.amplitude i := by
  simp [State.preambleWindow, tone1]

theorem symbolWindow_getElem (s : State) (y : Byte) {i : Nat} (h : i < (s.symbolWindow y).length) :
    (s.symbolWindow y)[i] =
      fAdd (toneSample s.active.fs (s.slotFreq (y.toNat % 16)) (fMul s.arg.amplitude fHalf) i)
        (toneSample s.active.fs (s.slotFreq (16 + y.toNat / 16)) (fMul s.arg.amplitude fHalf) i) := by
  simp [State.symbolWindow, tone2, mapSlots_eq]

/-! ### SYNTH -/

/-- SYNTH that passes its checks stores its window; a preamble window reads nothing of PAY (rule R284). -/
theorem exec_synth_ready {s : State} {k : Nat} (hv : s.cfgValid = true) (hp : s.arg.payLen = s.active.len)
    (hk : k < s.len + s.parity + 2) (ha : amplitudeOk s.arg.amplitude = true) (hr : k < 2 ∨ s.payReady s.len) :
    exec (.synth k) s = .next (s.storeObuf (s.frameWindow k)).done := by
  rcases exec_synth_cases k s with
    ⟨h, -⟩ | ⟨-, h, -⟩ | ⟨-, -, h | h, -⟩ | ⟨-, -, -, -, ⟨rfl, e⟩ | ⟨rfl, e⟩ | ⟨h2, -, e⟩ | ⟨h2, j, hj, hn, -⟩⟩
  · simp [hv] at h
  · exact absurd hp h
  · exact absurd hk (Nat.not_lt.2 h)
  · simp [ha] at h
  · exact e
  · exact e
  · rw [e, State.frameWindow, if_neg (by omega), if_neg (by omega)]
  · exact absurd hn (Option.isSome_iff_ne_none.1 (hr.resolve_left (by omega) j hj))

/-- Settles O49: SYNTH stores window k of the frame, whose samples are its tones', and no other byte. -/
theorem synthWritesOneWindowOfTheFrame : Obligations.SynthWritesOneWindowOfTheFrame := by
  intro s k hv hp hk hfinite hpositive hr w y half
  have ha : amplitudeOk s.arg.amplitude = true := Bool.and_eq_true_iff.2 ⟨hfinite, hpositive⟩
  have hlen := frameWindow_length s k
  refine ⟨_, exec_synth_ready hv hp hk ha hr, rfl, fun i hi => ?_, fun a hout => storeObuf_frame s _ a (hlen ▸ hout)⟩
  refine (storeObuf_sample s _ i (hlen ▸ hi)).trans (congrArg some ?_)
  unfold State.frameWindow
  split_ifs
  · exact preambleWindow_getElem s _ _
  · exact preambleWindow_getElem s _ _
  · exact symbolWindow_getElem s _ _

end Sys2Proof.Machine
end

section
/-! PROOFS. Every command in one form: its checks in their order, then its reads, then its effect (rules R12, R331,
R364). -/

namespace Sys2Proof.Machine

/-! ### Checks -/

/-- `k` after `checks`: the first that fails raises its error instead (rule R331). -/
def State.afterChecks (s : State) (checks : List (Bool × ErrCode)) (k : Answer) : Answer :=
  match checks.find? (fun c => !c.1) with
  | some c => .next (s.raise c.2)
  | none => k

/-- One check before the others. -/
theorem check_eq_afterChecks {s : State} {p : Prop} [Decidable p] {ok : Bool} {c : ErrCode}
    {checks : List (Bool × ErrCode)} {k k' : Answer} (hp : p ↔ ok = false) (hk : k' = s.afterChecks checks k) :
    (if p then .next (s.raise c) else k') = s.afterChecks ((ok, c) :: checks) k := by
  cases ok with
  | false => exact if_pos (hp.2 rfl)
  | true => exact (if_neg (by simp [hp])).trans hk

/-- The check for a configuration before the others. -/
theorem requireCfg_eq_afterChecks {s : State} {checks : List (Bool × ErrCode)} {k k' : Answer}
    (hk : k' = s.afterChecks checks k) : s.requireCfg k' = s.afterChecks ((s.cfgValid, .noCfg) :: checks) k := by
  rcases requireCfg_cases s k' with ⟨hv, e⟩ | ⟨hv, e⟩ <;> rw [e, hv]
  · exact hk
  · rfl

/-! ### Reads -/

/-- The first element of the operands listed that nothing has written since reset. -/
def State.firstUnwritten (s : State) (reads : List (Buf × Nat)) : Option (Buf × Nat) :=
  reads.findSome? fun r => ((List.range r.2).find? fun i => !s.written r.1 i).map (r.1, ·)

/-- `k` after `reads`: the first element with no value is a fault instead (rule R364 (b)). -/
def State.afterReads (s : State) (reads : List (Buf × Nat)) (k : Answer) : Answer :=
  match s.firstUnwritten reads with
  | some r => .fault (.unwrittenElement r.1 r.2)
  | none => k

/-- Every operand of a command is written exactly when there is no first unwritten one. -/
theorem operandsWritten_iff {s : State} {i : Instr} :
    operandsWritten s i ↔ s.firstUnwritten (readsOf s i) = none := by
  simp [operandsWritten, State.firstUnwritten, List.findSome?_eq_none_iff, List.find?_eq_none]

/-- The first unwritten element is an unwritten element of an operand. -/
theorem of_firstUnwritten {s : State} {reads : List (Buf × Nat)} {b : Buf} {j : Nat}
    (h : s.firstUnwritten reads = some (b, j)) : ∃ n, (b, n) ∈ reads ∧ j < n ∧ s.written b j = false := by
  obtain ⟨⟨b', n⟩, hmem, hfind⟩ := List.exists_of_findSome?_eq_some h
  obtain ⟨j', hj', hpair⟩ := Option.map_eq_some_iff.1 hfind
  obtain ⟨rfl, rfl⟩ := Prod.mk.inj hpair
  have hunwritten := List.find?_some hj'
  exact ⟨n, hmem, List.mem_range.1 (List.mem_of_find?_eq_some hj'), by simpa using hunwritten⟩

/-- One operand before the others. -/
theorem withElems_eq_afterReads {s : State} {α : Type} {b : Buf} {f : Nat → Option α} {d : α} {n : Nat}
    {k : List α → Answer} {reads : List (Buf × Nat)} {k' : Answer} (hf : ∀ i, s.written b i = (f i).isSome)
    (hk : k (values f d n) = s.afterReads reads k') : withElems b f n k = s.afterReads ((b, n) :: reads) k' := by
  have hcons : s.firstUnwritten ((b, n) :: reads) =
      (((List.range n).find? fun i => !(f i).isSome).map (b, ·)).or (s.firstUnwritten reads) := by
    simp only [State.firstUnwritten, List.findSome?_cons, hf]
    cases (List.range n).find? fun i => !(f i).isSome <;> rfl
  rcases withElems_cases b f d n k with ⟨hr, e⟩ | ⟨j, hj, hn, hr, e⟩ <;> rw [e, State.afterReads, hcons]
  · have hnone : (List.range n).find? (fun i => !(f i).isSome) = none :=
      List.find?_range_eq_none.2 fun i hi => by simp [hr i hi]
    rw [hnone, hk]
    rfl
  · have hsome : (List.range n).find? (fun i => !(f i).isSome) = some j :=
      List.find?_range_eq_some.2 ⟨by simp [hn], List.mem_range.2 hj, fun i hi => by simp [hr i hi]⟩
    rw [hsome]
    rfl

/-! ### Every command -/

/-- What a command that passes its checks makes of a state in which its operands are written (rule R12). -/
def effect : Instr → State → State
  | .nop, s => s.done
  | .config, s => s.configure
  | .sreset, s => s.sessionReset.done
  | .feed f, s => feedWindow f (s.window s.windowLen) s
  | .synth k, s => (s.storeObuf (s.frameWindow k)).done
  | .rsenc, s => (s.storeBytes .cw (rsEncode s.parity (s.payload s.len))).done
  | .rsdec, s => rsdecFinish s (rsDecode s.len s.parity (s.cwBytes s.ncw) (s.erasBits s.ncw))
  | .ilv, s => ((s.storeBytes .cw (applyPerm 0 s.permList (s.cwBytes s.ncw))).storeEras
      (applyPerm false s.permList (s.erasBits s.ncw))).done
  | .dilv, s => ((s.storeBytes .cw (unapplyPerm s.permList (s.cwBytes s.ncw))).storeEras
      (unapplyPerm s.permList (s.erasBits s.ncw))).done
  | .gpwr, s => s.donePower (power (s.window s.winCount) s.active.fs s.arg.freq)
  | .gpwrs slot, s => s.donePower (power (s.window s.winCount) s.active.fs (s.slotFreq slot))
  | .rms, s => State.done { s with res := { s.res with rms := rmsOf (s.window s.winCount) } }
  | .detect, s => State.done { s with res := { s.res with symbol := (s.detect (s.window s.winCount)).word } }
  | .map v, s => State.done { s with res := { s.res with symbol := (mapSymbol v).word } }

theorem exec_synth_eq (k : Nat) (s : State) : exec (.synth k) s =
    s.afterChecks (checksOf s (.synth k)) (s.afterReads (readsOf s (.synth k)) (.next (effect (.synth k) s))) := by
  refine requireCfg_eq_afterChecks <| check_eq_afterChecks (by simp) <| check_eq_afterChecks (by simp) <|
    check_eq_afterChecks .rfl ?_
  have hreads (h : k < 2) : readsOf s (.synth k) = [] := if_pos h
  by_cases h0 : k = 0
  · rw [hreads (by omega), if_pos h0, effect, State.frameWindow, if_pos h0]
    rfl
  by_cases h1 : k = 1
  · rw [hreads (by omega), if_neg h0, if_pos h1, effect, State.frameWindow, if_neg h0, if_pos h1]
    rfl
  have hpay : readsOf s (.synth k) = [(.pay, s.len)] := if_neg (by omega)
  rw [hpay, if_neg h0, if_neg h1, effect, State.frameWindow, if_neg h0, if_neg h1]
  exact withElems_eq_afterReads (d := 0) (fun _ => rfl) rfl

/-- Every command but CONFIG is its checks, then its reads, then its effect (rules R12, R331, R364). -/
theorem exec_eq (s : State) : ∀ i, i ≠ .config →
    exec i s = s.afterChecks (checksOf s i) (s.afterReads (readsOf s i) (.next (effect i s)))
  | .nop, _ => rfl
  | .config, h => absurd rfl h
  | .sreset, _ => rfl
  | .feed _, _ => requireCfg_eq_afterChecks <| check_eq_afterChecks (by simp) <|
      withElems_eq_afterReads (d := fZero) (fun _ => rfl) rfl
  | .synth k, _ => exec_synth_eq k s
  | .rsenc, _ => requireCfg_eq_afterChecks <| check_eq_afterChecks (by simp) <|
      withElems_eq_afterReads (d := 0) (fun _ => rfl) rfl
  | .rsdec, _ => requireCfg_eq_afterChecks <| withElems_eq_afterReads (d := 0) (fun _ => rfl) <|
      withElems_eq_afterReads (d := false) (fun _ => rfl) rfl
  | .ilv, _ => requireCfg_eq_afterChecks <| withElems_eq_afterReads (d := 0) (fun _ => rfl) <|
      withElems_eq_afterReads (d := false) (fun _ => rfl) rfl
  | .dilv, _ => requireCfg_eq_afterChecks <| withElems_eq_afterReads (d := 0) (fun _ => rfl) <|
      withElems_eq_afterReads (d := false) (fun _ => rfl) rfl
  | .gpwr, _ => requireCfg_eq_afterChecks <| check_eq_afterChecks .rfl <| check_eq_afterChecks .rfl <|
      withElems_eq_afterReads (d := fZero) (fun _ => rfl) rfl
  | .gpwrs _, _ => requireCfg_eq_afterChecks <| check_eq_afterChecks .rfl <| check_eq_afterChecks (by simp) <|
      withElems_eq_afterReads (d := fZero) (fun _ => rfl) rfl
  | .rms, _ => check_eq_afterChecks .rfl <| withElems_eq_afterReads (d := fZero) (fun _ => rfl) rfl
  | .detect, _ => requireCfg_eq_afterChecks <| check_eq_afterChecks .rfl <|
      withElems_eq_afterReads (d := fZero) (fun _ => rfl) rfl
  | .map _, _ => check_eq_afterChecks (by simp) rfl

/-- The error of the first failing check is the error of one of the checks. -/
theorem mem_of_firstFailing {s : State} {i : Instr} {c : ErrCode} (h : firstFailing s i = some c) :
    c ∈ (checksOf s i).map (·.2) := by
  obtain ⟨check, hfind, rfl⟩ := Option.map_eq_some_iff.1 h
  exact List.mem_map_of_mem (List.mem_of_find?_eq_some hfind)

/-- CONFIG checks that its registers are valid (rules R142, R146). -/
theorem firstFailing_config (s : State) :
    firstFailing s .config = if validateCode s.params s.cfg = 0 then none else some .config := by
  have hvalid : (configChecks s.params s.cfg).all id = true ↔ validateCode s.params s.cfg = 0 := by
    rw [validateCode_eq_zero_iff, List.all_eq_true]
    exact forall_mem_iff_getD _ false
  have hchecks : firstFailing s .config =
      if (configChecks s.params s.cfg).all id = true then none else some .config := by
    rw [firstFailing, checksOf]
    cases (configChecks s.params s.cfg).all id <;> rfl
  rw [hchecks, if_congr hvalid rfl rfl]

/-- What a failing check makes of a state: a raise, and before it the writes of CONFIG's failure path (rules R142,
R333). -/
def rejected (i : Instr) (c : ErrCode) (s : State) : State :=
  if i = .config then s.configFail (validateCode s.params s.cfg) else s.raise c

theorem rejected_of_ne_config {i : Instr} (h : i ≠ .config) (c : ErrCode) (s : State) : rejected i c s = s.raise c :=
  if_neg h

theorem afterChecks_failing {s : State} {i : Instr} {c : ErrCode} (h : firstFailing s i = some c) (k : Answer) :
    s.afterChecks (checksOf s i) k = .next (s.raise c) := by
  obtain ⟨check, hfind, rfl⟩ := Option.map_eq_some_iff.1 h
  rw [State.afterChecks, hfind]

theorem afterChecks_passing {s : State} {i : Instr} (h : firstFailing s i = none) (k : Answer) :
    s.afterChecks (checksOf s i) k = k := by
  rw [State.afterChecks, Option.map_eq_none_iff.1 h]

/-- A command whose checks fail is rejected by the first that does (rule R331). -/
theorem exec_of_failing {s : State} {i : Instr} {c : ErrCode} (h : firstFailing s i = some c) :
    exec i s = .next (rejected i c s) := by
  by_cases hi : i = .config
  · subst hi
    rw [firstFailing_config] at h
    exact exec_config_invalid fun hv => by simp [hv] at h
  · rw [exec_eq s i hi, afterChecks_failing h, rejected_of_ne_config hi]

/-- A command whose checks pass reads its operands and then has its effect (rules R12, R331). -/
theorem exec_of_passing {s : State} {i : Instr} (h : firstFailing s i = none) :
    exec i s = s.afterReads (readsOf s i) (.next (effect i s)) := by
  by_cases hi : i = .config
  · subst hi
    rw [firstFailing_config] at h
    exact exec_config_valid (by simpa using h)
  · rw [exec_eq s i hi, afterChecks_passing h]

/-- All a command can do. -/
theorem exec_cases (i : Instr) (s : State) :
    (∃ c, firstFailing s i = some c ∧ exec i s = .next (rejected i c s)) ∨
    (firstFailing s i = none ∧ operandsWritten s i ∧ exec i s = .next (effect i s)) ∨
    (firstFailing s i = none ∧ ¬ operandsWritten s i ∧
      ∃ b n j, (b, n) ∈ readsOf s i ∧ j < n ∧ s.written b j = false ∧ exec i s = .fault (.unwrittenElement b j)) := by
  cases hc : firstFailing s i with
  | some c => exact .inl ⟨c, rfl, exec_of_failing hc⟩
  | none =>
    have he := exec_of_passing hc
    rw [operandsWritten_iff]
    rw [State.afterReads] at he
    cases hu : s.firstUnwritten (readsOf s i) with
    | none => exact .inr (.inl ⟨rfl, rfl, by rw [he, hu]⟩)
    | some r =>
      obtain ⟨n, hmem, hj, hw⟩ := of_firstUnwritten hu
      exact .inr (.inr ⟨rfl, by simp, r.1, n, r.2, hmem, hj, hw, by rw [he, hu]⟩)

/-- A next state is that of a rejected command or of one whose checks passed. -/
theorem exec_next {i : Instr} {s t : State} (h : exec i s = .next t) :
    (∃ c, firstFailing s i = some c ∧ t = rejected i c s) ∨ (firstFailing s i = none ∧ t = effect i s) := by
  rcases exec_cases i s with ⟨c, hc, e⟩ | ⟨hc, -, e⟩ | ⟨-, -, b, n, j, -, -, -, e⟩ <;> rw [e] at h <;> cases h
  · exact .inl ⟨c, hc, rfl⟩
  · exact .inr ⟨hc, rfl⟩

end Sys2Proof.Machine
end

section
/-! PROOFS. Which error a command raises, when it faults and when it completes (rules R331 to R333, R362, R364). -/

namespace Sys2Proof.Machine

/-! ### RESULT -/

/-- A rejected command's RESULT is the error of its check (rule R332). -/
theorem rejected_result {i : Instr} {s : State} {c : ErrCode} (h : firstFailing s i = some c) :
    (rejected i c s).result = .error c := by
  by_cases hi : i = .config
  · subst hi
    obtain rfl : c = .config := by simpa [checksOf] using mem_of_firstFailing h
    rfl
  · rw [rejected_of_ne_config hi, State.raise_result]

theorem rsdecFinish_result (s : State) (res : RsResult) :
    (rsdecFinish s res).result = .ok ∨ (rsdecFinish s res).result = .decodeFail := by
  cases res with
  | success => exact .inl rfl
  | failure => exact .inr rfl

/-- A command that has its effect writes 0, or 7 for a decode failure of RSDEC (rule R332). -/
theorem effect_result (i : Instr) (s : State) :
    (effect i s).result = .ok ∨ (i = .rsdec ∧ (effect i s).result = .decodeFail) := by
  cases i with
  | rsdec => exact (rsdecFinish_result s _).imp_right (⟨rfl, ·⟩)
  | _ => exact .inl rfl

theorem effect_result_ne_error (i : Instr) (s : State) (c : ErrCode) : (effect i s).result ≠ .error c := by
  rcases effect_result i s with h | ⟨-, h⟩ <;> simp [h]

/-- Settles O16: an illegal word raises, and a command is rejected by its first failing check or has its effect. -/
theorem checksDecideTheErrorInOrder : Obligations.ChecksDecideTheErrorInOrder := by
  refine ⟨fun s v r hr => ⟨_, execute_illegal s hr, rfl⟩, fun i s => ⟨fun c hc => ?_, fun hc t ht c => ?_⟩⟩
  · exact ⟨_, exec_of_failing hc, rejected_result hc⟩
  · rcases exec_next ht with ⟨c', hc', -⟩ | ⟨-, rfl⟩
    · simp [hc] at hc'
    · exact effect_result_ne_error i s c

/-- Settles O18: with every check passed and every operand written a command has its effect. -/
theorem commandsCompleteOnWrittenOperands : Obligations.CommandsCompleteOnWrittenOperands := by
  intro i s hc hw
  rcases exec_cases i s with ⟨c, hc', -⟩ | ⟨-, -, e⟩ | ⟨-, hw', -⟩
  · simp [hc] at hc'
  · exact ⟨_, e, effect_result i s⟩
  · exact absurd hw hw'

/-- Settles O19: of all a command can do only the read of an unwritten operand is a fault, and nothing is a refusal. -/
theorem commandsFaultExactlyOnUnwrittenOperands : Obligations.CommandsFaultExactlyOnUnwrittenOperands := by
  refine ⟨fun i s hc hw => ?_, fun i s f hf => ?_, fun i s r hr => ?_⟩ <;>
    rcases exec_cases i s with ⟨c, hc', e⟩ | ⟨hc', hw', e⟩ | ⟨hc', hw', hfault⟩
  · simp [hc] at hc'
  · exact absurd hw' hw
  · exact hfault
  · simp [e] at hf
  · simp [e] at hf
  · exact ⟨hc', hw'⟩
  · simp [e] at hr
  · simp [e] at hr
  · obtain ⟨b, n, j, -, -, -, e⟩ := hfault
    simp [e] at hr

/-- Settles O14: a raise writes its three fields, of the commands with an error only CONFIG's failure path writes more, and
its one error is E_CONFIG. -/
theorem raiseIsPrecise : Obligations.RaiseIsPrecise := by
  refine ⟨by decide, fun c => by cases c <;> rfl, fun s v r hr => execute_illegal s hr, fun i s t c ht hres => ?_⟩
  rcases exec_next ht with ⟨c', hc, rfl⟩ | ⟨-, rfl⟩
  · obtain rfl : c' = c := ResultCode.error.inj ((rejected_result hc).symm.trans hres)
    refine ⟨fun hi => rejected_of_ne_config hi c' s, ?_⟩
    rintro rfl
    obtain rfl : c' = .config := by simpa [checksOf] using mem_of_firstFailing hc
    exact ⟨rfl, rfl⟩
  · exact absurd hres (effect_result_ne_error i s c)

/-! ### Without a configuration -/

/-- The commands that need a configuration: all but NOP, CONFIG, SRESET, RMS and MAP (rule R362). -/
def NeedsConfig (i : Instr) : Prop :=
  ¬ (i = .nop ∨ i = .config ∨ i = .sreset ∨ i = .rms ∨ ∃ v, i = .map v)

/-- They check for it first (rule R331). -/
theorem checksOf_of_needsConfig {i : Instr} (h : NeedsConfig i) (s : State) :
    ∃ checks, checksOf s i = (s.cfgValid, .noCfg) :: checks := by
  unfold NeedsConfig at h
  cases i with
  | nop | config | sreset | rms | map => simp at h
  | _ => exact ⟨_, rfl⟩

/-- The others have no such check. -/
theorem firstFailing_ne_noCfg {i : Instr} (h : ¬ NeedsConfig i) (s : State) : firstFailing s i ≠ some .noCfg := by
  intro hc
  have hlisted := mem_of_firstFailing hc
  obtain rfl | rfl | rfl | rfl | ⟨v, rfl⟩ := not_not.1 h <;> simp [checksOf] at hlisted

theorem firstFailing_noCfg {i : Instr} (h : NeedsConfig i) {s : State} (hv : s.cfgValid = false) :
    firstFailing s i = some .noCfg := by
  obtain ⟨checks, e⟩ := checksOf_of_needsConfig h s
  rw [firstFailing, e, hv]
  rfl

/-- Settles O17: the five commands have no check for a configuration, and the others make it first. -/
theorem onlyFiveCommandsExecuteWithoutAConfiguration : Obligations.OnlyFiveCommandsExecuteWithoutAConfiguration := by
  refine fun i s hv => ⟨fun hi t ht hres => ?_, fun hi => ?_⟩
  · rcases exec_next ht with ⟨c, hc, rfl⟩ | ⟨-, rfl⟩
    · rw [rejected_result hc] at hres
      exact firstFailing_ne_noCfg (not_not.2 hi) s (hc.trans (congrArg some (ResultCode.error.inj hres)))
    · exact effect_result_ne_error i s _ hres
  · have hne : i ≠ .config := fun h => hi (.inr (.inl h))
    rw [exec_of_failing (firstFailing_noCfg hi hv), rejected_of_ne_config hne]
    rfl

end Sys2Proof.Machine
end

section
/-! PROOFS. FEED in the body accumulates its window's symbol, and decodes the body at the last one; and SRESET (rules
R300 to R304). -/

namespace Sys2Proof.Machine

/-! ### FEED in the body -/

/-- In the body FEED accumulates the window's symbol, and then sets SES_OFFSET and RESULT (rule R303). -/
theorem feedWindow_of_triggered {s : State} (f : Bool) (x : List F64) (h : s.ses.engine = .triggered) :
    feedWindow f x s = State.feedDone (s.feedStart f + s.drv.windowLen) (feedBody (s.detect x) s) := by
  have hsame : s.ses.consumed = s.ses := by simp [Session.consumed, h]
  have hcore : feedCore x (s.feedStart f) s = feedBody (s.detect x) s := by
    rw [feedCore, hsame]
    exact if_pos h
  exact congrArg (State.feedDone _) hcore

/-- A table holds what was set within it. -/
theorem tableGet_setIfInBounds {α : Type} {n : Nat} (t : Vector α n) {i : Nat} (h : i < n) (x d : α) :
    tableGet (t.setIfInBounds i x) i d = x := by
  simp [tableGet, Vector.toList_setIfInBounds, List.getD_eq_getElem?_getD, h]

/-- Settles O52: a FEED in the body is `feedBody`, which accumulates, and at the count NCW finishes as the decoder
answers. -/
theorem feedAccumulatesAndDecodesTheBody : Obligations.FeedAccumulatesAndDecodesTheBody := by
  intro s f hv hw hr ht hcount y start acc acce u r
  have hfeed {t : State} (h : feedBody y s = t) :
      exec (.feed f) s = .next (t.feedDone (start + s.drv.windowLen)) := by
    rw [exec_feed_of_winReady f hv hw hr, feedWindow_of_triggered f _ ht, ← h]
    rfl
  have hlast (h : s.ses.accCount + 1 = s.drv.codewordLen) {res : RsResult} (hres : r = res) :
      feedBody y s = feedFinish res (feedAccumulate y s) := by
    rw [← hres]
    exact if_pos h
  refine ⟨⟨tableGet_setIfInBounds s.acc hcount _ _, tableGet_setIfInBounds s.acce hcount _ _⟩, fun h => ?_,
    fun h m e n hres => ?_, fun h n hres => ?_⟩
  · exact hfeed (if_neg h)
  · exact hfeed (hlast h hres)
  · exact hfeed (hlast h hres)

/-! ### SRESET -/

/-- SRESET alone has the opcode 2 (rule R113). -/
theorem eq_sreset_of_opcode {i : Instr} (h : Laws.Fields.opcode i = 2) : i = .sreset := by
  cases i with
  | sreset => rfl
  | _ => simp [Laws.Fields.opcode] at h

/-- Settles O50: SRESET replaces the session and RESULT, its word is 2, and no other legal word has its opcode. -/
theorem sresetResetsTheSession : Obligations.SresetResetsTheSession := by
  refine ⟨exec_sreset, encodeThenDecode .sreset rfl, fun v hop hne => decode_isError_iff.2 ?_⟩
  rintro ⟨i, hi⟩
  obtain ⟨hwf, rfl⟩ := decodeThenEncode v i hi
  have hsreset : i = .sreset := eq_sreset_of_opcode ((fields_encode i hwf).1.symm.trans hop)
  exact hne (congrArg encode hsreset)

end Sys2Proof.Machine
end

section
/-! PROOFS. What commands read and write: RESULT, the session and the configuration registers decide nothing they are not
meant to decide, and no command writes WIN or a register of the host's (rules R38, R332, R370, R373, R374). -/

namespace Sys2Proof.Machine

/-! ### What a command may change -/

/-- `t` is `s` but for RESULT, the flags, the result registers, the session, the stored elements and payload, and the
accumulator: the fields that commands other than CONFIG write. -/
def CommandFrame (s t : State) : Prop :=
  t = { s with
    result := t.result, err := t.err, irqPend := t.irqPend, res := t.res, ses := t.ses, mem := t.mem,
    rxpay := t.rxpay, acc := t.acc, acce := t.acce }

theorem CommandFrame.cfg {s t : State} : CommandFrame s t → t.cfg = s.cfg := congrArg State.cfg

theorem CommandFrame.arg {s t : State} : CommandFrame s t → t.arg = s.arg := congrArg State.arg

theorem commandFrame_feedIdle (ma mb : Bool) (start : Word) (s : State) :
    CommandFrame s (feedIdle ma mb start s) := by
  unfold feedIdle
  split <;> rfl

theorem commandFrame_feedBody (y : Symbol) (s : State) : CommandFrame s (feedBody y s) := by
  rcases feedBody_cases y s with ⟨-, e⟩ | ⟨-, e⟩ <;> rw [e]
  · rfl
  · cases feedDecode (feedAccumulate y s) <;> rfl

theorem commandFrame_feedCore (x : List F64) (start : Word) (s : State) : CommandFrame s (feedCore x start s) := by
  unfold feedCore
  split
  · exact commandFrame_feedBody _ { s with ses := s.ses.consumed }
  · exact commandFrame_feedIdle _ _ _ { s with ses := s.ses.consumed }

theorem commandFrame_feedWindow (f : Bool) (x : List F64) (s : State) : CommandFrame s (feedWindow f x s) := by
  obtain ⟨start, e⟩ := feedWindow_eq f x s
  rw [e]
  exact congrArg (State.feedDone (start + s.drv.windowLen)) (commandFrame_feedCore x start s)

theorem commandFrame_rsdecFinish (s : State) (res : RsResult) : CommandFrame s (rsdecFinish s res) := by
  cases res <;> rfl

theorem commandFrame_effect {i : Instr} (hi : i ≠ .config) (s : State) : CommandFrame s (effect i s) := by
  cases i with
  | config => exact absurd rfl hi
  | feed f => exact commandFrame_feedWindow f _ s
  | rsdec => exact commandFrame_rsdecFinish s _
  | _ => rfl

/-- A command other than CONFIG changes those fields only. -/
theorem commandFrame_exec {i : Instr} (hi : i ≠ .config) {s t : State} (h : exec i s = .next t) : CommandFrame s t := by
  rcases exec_next h with ⟨c, -, rfl⟩ | ⟨-, rfl⟩
  · rw [rejected_of_ne_config hi]
    rfl
  · exact commandFrame_effect hi s

/-- No command writes a configuration or an argument register (rules R370, R373). -/
theorem exec_cfg_arg {i : Instr} {s t : State} (h : exec i s = .next t) : t.cfg = s.cfg ∧ t.arg = s.arg := by
  by_cases hi : i = .config
  · subst hi
    rcases exec_next h with ⟨c, -, rfl⟩ | ⟨-, rfl⟩ <;> exact ⟨rfl, rfl⟩
  · have hframe := commandFrame_exec hi h
    exact ⟨hframe.cfg, hframe.arg⟩

/-- The commands that read and write no session field: all but FEED, SRESET and CONFIG (rule R374). -/
def SessionNeutral (i : Instr) : Prop := (∀ f, i ≠ .feed f) ∧ i ≠ .sreset ∧ i ≠ .config

theorem effect_ses {i : Instr} (hi : SessionNeutral i) (s : State) : (effect i s).ses = s.ses := by
  obtain ⟨hfeed, hsreset, hconfig⟩ := hi
  cases i with
  | feed f => exact absurd rfl (hfeed f)
  | sreset => exact absurd rfl hsreset
  | config => exact absurd rfl hconfig
  | rsdec =>
    rw [effect]
    cases rsDecode s.len s.parity (s.cwBytes s.ncw) (s.erasBits s.ncw) <;> rfl
  | _ => rfl

theorem exec_ses {i : Instr} (hi : SessionNeutral i) {s t : State} (h : exec i s = .next t) : t.ses = s.ses := by
  rcases exec_next h with ⟨c, -, rfl⟩ | ⟨-, rfl⟩
  · rw [rejected_of_ne_config hi.2.2, State.raise_ses]
  · exact effect_ses hi s

/-! ### What a command does not read -/

theorem firstUnwritten_congr {s s' : State} (h : s'.mem = s.mem) (reads : List (Buf × Nat)) :
    s'.firstUnwritten reads = s.firstUnwritten reads := by
  have hw (b : Buf) (i : Nat) : s'.written b i = s.written b i := by
    cases b <;> simp only [State.written, State.erasElem, State.byteElem, State.sample, h]
  simp only [State.firstUnwritten, hw]

/-- A command does the same to `s'` as to `s`, up to `g`, if its checks and its reads are the same and its ends differ by
`g` alone. -/
theorem exec_congr {i : Instr} (hi : i ≠ .config) {s s' : State} {g : State → State}
    (hchecks : checksOf s' i = checksOf s i) (hreads : readsOf s' i = readsOf s i) (hmem : s'.mem = s.mem)
    (hraise : ∀ c, s'.raise c = g (s.raise c)) (heffect : effect i s' = g (effect i s)) :
    exec i s' = mapState g (exec i s) := by
  rw [exec_eq s' i hi, exec_eq s i hi, hchecks, hreads, heffect]
  unfold State.afterChecks State.afterReads
  rw [firstUnwritten_congr hmem]
  cases (checksOf s i).find? fun c => !c.1 with
  | some c => exact congrArg Host.Outcome.next (hraise c.2)
  | none => cases s.firstUnwritten (readsOf s i) <;> rfl

/-- No command but FEED, SRESET and CONFIG reads the session (rule R374). -/
theorem exec_withSession {i : Instr} (hi : SessionNeutral i) (s : State) (u : Session) :
    exec i { s with ses := u } = mapState (fun t => { t with ses := u }) (exec i s) := by
  obtain ⟨hfeed, hsreset, hconfig⟩ := hi
  refine exec_congr hconfig ?checks ?reads rfl (fun _ => rfl) ?effect
  case checks => cases i <;> rfl
  case reads => cases i <;> rfl
  case effect =>
    cases i with
    | feed f => exact absurd rfl (hfeed f)
    | sreset => exact absurd rfl hsreset
    | config => exact absurd rfl hconfig
    | rsdec =>
      have hfinish (res : RsResult) : rsdecFinish { s with ses := u } res = { rsdecFinish s res with ses := u } := by
        cases res <;> rfl
      exact hfinish _
    | _ => rfl

/-- The same state with other configuration registers and another RESULT. -/
def State.withCfgResult (c : CfgRegs) (r : ResultCode) (s : State) : State := { s with cfg := c, result := r }

section WithCfgResult

/-! The end of a FEED writes RESULT again, so of the two changes only that of the registers is left. -/

variable (c : CfgRegs) (r : ResultCode)

theorem feedIdle_withCfgResult (ma mb : Bool) (start : Word) (s : State) :
    feedIdle ma mb start (s.withCfgResult c r) = (feedIdle ma mb start s).withCfgResult c r := by
  unfold feedIdle
  rcases triggerStep_cases ma mb start s.ses with ⟨-, -, e⟩ | ⟨-, -, e⟩ | ⟨-, -, e⟩ <;>
    rw [State.withCfgResult, e] <;> rfl

theorem feedBody_withCfgResult (y : Symbol) (s : State) :
    feedBody y (s.withCfgResult c r) = (feedBody y s).withCfgResult c r := by
  have hfinish (res : RsResult) (t : State) :
      feedFinish res (t.withCfgResult c r) = (feedFinish res t).withCfgResult c r := by
    cases res <;> rfl
  rcases feedBody_cases y s with ⟨hne, e⟩ | ⟨he, e⟩ <;> rw [e]
  · exact if_neg hne
  · exact (if_pos he).trans (hfinish (feedDecode (feedAccumulate y s)) (feedAccumulate y s))

theorem feedWindow_withCfgResult (f : Bool) (x : List F64) (s : State) :
    feedWindow f x (s.withCfgResult c r) = { feedWindow f x s with cfg := c } := by
  by_cases h : s.ses.engine = .triggered
  · rw [feedWindow_of_triggered f x h, feedWindow_of_triggered (s := s.withCfgResult c r) f x h]
    exact congrArg (State.feedDone _) (feedBody_withCfgResult c r (s.detect x) s)
  · rw [feedWindow_of_not_triggered f x h, feedWindow_of_not_triggered (s := s.withCfgResult c r) f x h]
    exact congrArg (State.feedDone _) (feedIdle_withCfgResult c r _ _ _ { s with ses := s.ses.consumed })

theorem exec_withCfgResult {i : Instr} (hi : i ≠ .config) (s : State) :
    exec i (s.withCfgResult c r) = mapState (fun t => { t with cfg := c }) (exec i s) := by
  refine exec_congr hi ?checks ?reads rfl (fun _ => rfl) ?effect
  case checks =>
    cases i with
    | config => exact absurd rfl hi
    | _ => rfl
  case reads => cases i <;> rfl
  case effect =>
    cases i with
    | config => exact absurd rfl hi
    | feed f => exact feedWindow_withCfgResult c r f _ s
    | rsdec =>
      have hfinish (res : RsResult) : rsdecFinish (s.withCfgResult c r) res = { rsdecFinish s res with cfg := c } := by
        cases res <;> rfl
      exact hfinish _
    | _ => rfl

end WithCfgResult

/-- What RESULT held before a command makes no difference (rule R332). -/
theorem exec_withResult (i : Instr) (s : State) (r : ResultCode) : exec i { s with result := r } = exec i s := by
  by_cases hi : i = .config
  · subst hi
    rfl
  · refine (exec_withCfgResult s.cfg r hi s).trans ?_
    cases he : exec i s with
    | next t => exact congrArg Host.Outcome.next (by rw [← (exec_cfg_arg he).1])
    | fault | refused => rfl

theorem execute_withResult (s : State) (v : Word) (r : ResultCode) : execute { s with result := r } v = execute s v := by
  cases h : decode v with
  | ok i => rw [execute_legal _ h, execute_legal _ h, exec_withResult]
  | error e => rw [execute_illegal _ h, execute_illegal _ h]; rfl

/-! ### The accesses that are no command -/

/-- Only a 64-bit write to CMD changes RESULT, the hardware reset apart (rule R332). -/
theorem perform_write_result {s t : State} {w : Nat} {a : Addr} {v : Word} (h : a ≠ cmdAddr ∨ w ≠ 64)
    (ht : perform s (.write w a v) = .next t) : t.result = s.result := by
  by_cases hbus : w ≠ 64 ∨ placeOf a = .busError
  · rw [perform_write_busError s hbus] at ht
    cases ht
    rfl
  · obtain ⟨hw, hp⟩ := not_or.1 hbus
    obtain rfl : w = 64 := not_not.1 hw
    exact (setsNoFlag_perform_write hp (h.resolve_right hw) ht).result

/-- A read changes nothing a command writes but, at a bus error, the flags (rules R84, R86). -/
theorem perform_read_result_ses {s t : State} {w : Nat} {a : Addr} (ht : perform s (.read w a) = .next t) :
    t.result = s.result ∧ t.ses = s.ses := by
  obtain rfl := Host.Outcome.next.inj ht
  rcases memRead_state s w a with e | ⟨e, -⟩ <;> rw [e] <;> exact ⟨rfl, rfl⟩

/-- Settles O15: RESULT is not read, an executed command writes its error or its effect's code, and no access but a write
to CMD writes it. -/
theorem everyCommandWordWritesResult : Obligations.EveryCommandWordWritesResult := by
  refine ⟨fun s v r t ht => (execute_withResult s v r).trans ht, fun i s t ht => ?_, ⟨rfl, rfl⟩,
    fun s w a v t h ht => perform_write_result h ht, fun s w a t ht => (perform_read_result_ses ht).1⟩
  rcases exec_next ht with ⟨c, hc, rfl⟩ | ⟨hc, rfl⟩
  · refine ⟨fun c' hc' => ?_, fun hnone => ?_⟩
    · rw [rejected_result hc, Option.some.inj (hc.symm.trans hc')]
    · simp [hc] at hnone
  · refine ⟨fun c' hc' => ?_, fun _ => effect_result i s⟩
    simp [hc] at hc'

/-! ### The session -/

/-- An access that changes the session is the hardware reset or writes to CMD the word of FEED, SRESET or CONFIG (rule
R374). -/
theorem perform_changes_ses {s t : State} {a : BusAccess} (ht : perform s a = .next t) (hs : t.ses ≠ s.ses) :
    a = .reset ∨ ∃ v i, a = .write 64 cmdAddr v ∧ decode v = .ok i ∧ ¬ SessionNeutral i ∧
      exec i (s.advanceFree.writeReg v .cmd) = .next t := by
  cases a with
  | reset => exact .inl rfl
  | read w a => exact absurd (perform_read_result_ses ht).2 hs
  | write w a v =>
    have hw : memWrite s w a v = .next t := ht
    rcases memWrite_cases s w a v with
      ⟨-, e⟩ | ⟨-, -, e⟩ | ⟨rfl, hp, e⟩ | ⟨r, -, -, -, e⟩ | ⟨b, i, -, -, e⟩ <;> rw [e] at hw
    · cases hw
      exact absurd rfl hs
    · cases hw
      exact absurd rfl hs
    · obtain rfl := eq_cmdAddr_of_placeOf hp
      cases hd : decode v with
      | ok i =>
        rw [execute_legal _ hd] at hw
        exact .inr ⟨v, i, rfl, hd, fun hi => hs (exec_ses (s := s.advanceFree.writeReg v .cmd) hi hw), hw⟩
      | error e =>
        rw [execute_illegal _ hd] at hw
        cases hw
        exact absurd rfl hs
    · cases hw
      exact absurd (writeReg_same s.advanceFree v r).2.1 hs
    · cases hw
      exact absurd (writeElem_same s.advanceFree b i v).2 hs

theorem not_sessionNeutral_iff {i : Instr} : ¬ SessionNeutral i ↔ i = .sreset ∨ i = .config ∨ ∃ f, i = .feed f := by
  cases i <;> simp [SessionNeutral]

/-- Settles O54: the neutral commands neither read nor write the session, and of the accesses only a reset and the other
three commands change it. -/
theorem analysisCommandsAreSessionNeutral : Obligations.AnalysisCommandsAreSessionNeutral := by
  refine ⟨fun i s u hfeed hsreset hconfig => ?_, fun s t a ht hs => ?_⟩
  · have hi : SessionNeutral i := ⟨hfeed, hsreset, hconfig⟩
    exact ⟨exec_withSession hi s u, fun t ht => exec_ses hi ht⟩
  · refine (perform_changes_ses ht hs).imp_right ?_
    rintro ⟨v, i, rfl, hd, hi, -⟩
    refine ⟨v, rfl, ?_⟩
    rcases not_sessionNeutral_iff.1 hi with rfl | rfl | ⟨f, rfl⟩
    · exact .inl hd
    · exact .inr (.inl hd)
    · exact .inr (.inr ⟨f, hd⟩)

/-! ### The configuration registers -/

/-- The configuration registers (rule R36). -/
def Reg.configuration : List Reg :=
  [.cfgSampleRate, .cfgFirstFreq, .cfgRatio, .cfgIncrement, .cfgWordTime, .cfgPayloadLen, .cfgTrig, .cfgSnr,
    .cfgErasureRatio]

theorem Reg.readWrite_of_configuration {r : Reg} (h : r ∈ Reg.configuration) : r ∈ Reg.readWrite :=
  List.mem_append_left [Reg.argFreq, .argAmplitude, .argOffset, .winLen, .payLen] h

/-- A write to a configuration register changes the configuration registers only. -/
theorem writeReg_configuration (s : State) (v : Word) {r : Reg} (hr : r ∈ Reg.configuration) :
    s.writeReg v r = { s with cfg := (s.writeReg v r).cfg } := by
  unfold Reg.configuration at hr
  fin_cases hr <;> rfl

/-- Settles O55: a write to a configuration register is that register's alone, and of the commands only CONFIG reads one or
writes what CONFIG captures. -/
theorem configurationIsCapturedNotLive : Obligations.ConfigurationIsCapturedNotLive := by
  refine ⟨fun r hr s v => ?write, fun i s t ht => (exec_cfg_arg ht).1,
    fun i s hi => ⟨fun c => exec_withCfgResult c s.result hi s, fun t ht => ?frame⟩⟩
  case write =>
    have hr : r ∈ Reg.configuration := hr
    have hrw := Reg.readWrite_of_configuration hr
    have hcmd : r ≠ .cmd := by
      rintro rfl
      exact absurd hr (by decide)
    have hread := readReg_writeReg s.advanceFree v hrw
    refine ⟨_, perform_write_register s v hcmd, writeReg_configuration s.advanceFree v hr, ?_, fun q hq => ?_⟩
    · rw [hread, if_pos rfl]
    · rw [hread, if_neg hq]
      rfl
  case frame =>
    have hframe : t = _ := commandFrame_exec hi ht
    rw [hframe]
    exact ⟨rfl, rfl, rfl, rfl, rfl, rfl⟩

/-! ### WIN and the argument registers -/

/-- A command that needs a configuration and passes its checks has one (rule R331). -/
theorem cfgValid_of_passing {i : Instr} (hi : NeedsConfig i) {s : State} (h : firstFailing s i = none) :
    s.cfgValid = true := by
  by_contra hv
  rw [firstFailing_noCfg hi (Bool.eq_false_of_not_eq_true hv)] at h
  cases h

section Win

variable {s : State} {a : Nat} (ha : 0x100000 ≤ a)
include ha

/-- PAY, CW and ERAS lie below WIN (rule R80). -/
theorem not_inByteElems_of_win {b : Buf} (hb : b.isBytes) {n : Nat} (hn : n ≤ 255) : ¬ inByteElems b n a := by
  rintro ⟨i, hi, rfl⟩
  have hlt := elemAddr_lt_words (w := .win) hb (.inl rfl) (i := i) (by unfold Config.bufBytes; omega)
  exact absurd ha (Nat.not_le.2 hlt)

theorem storeBytes_win {b : Buf} (hb : b.isBytes) {bs : List Byte} (hn : bs.length ≤ 255) :
    (s.storeBytes b bs).mem.read a = s.mem.read a :=
  storeBytes_frame s b bs a (not_inByteElems_of_win ha hb hn)

theorem storeCodeword_win {c : List Byte} {e : List Bool} (hc : c.length ≤ 255) (he : e.length ≤ 255) :
    ((s.storeBytes .cw c).storeEras e).mem.read a = s.mem.read a :=
  (storeEras_frame _ e a (not_inByteElems_of_win ha (.inr (.inr rfl)) he)).trans
    (storeBytes_win ha (.inr (.inl rfl)) hc)

theorem rsdecFinish_win {res : RsResult} (h : ∀ m e n, res = .success m e n → m.length ≤ 255) :
    (rsdecFinish s res).mem.read a = s.mem.read a := by
  cases res with
  | success m e n => exact storeBytes_win ha (.inl rfl) (h m e n rfl)
  | failure n => rfl

/-- No effect of a command stores into WIN: CW, PAY and ERAS lie below it and OBUF above (rules R43, R80, R373). -/
theorem effect_win (ha' : a ≤ 0x1FFFFF) (hinv : Inv s) {i : Instr} (hpass : firstFailing s i = none) :
    (effect i s).mem.read a = s.mem.read a := by
  have hlengths (hi : NeedsConfig i) : LengthsOk s := hinv.config.lengths (cfgValid_of_passing hi hpass)
  cases i with
  | nop | config | sreset | gpwr | gpwrs | rms | detect | map => rfl
  | feed f =>
    obtain ⟨start, e⟩ := feedWindow_eq f (s.window s.windowLen) s
    have hmem : (effect (.feed f) s).mem = s.mem := by
      rw [effect, e]
      exact (feedCore_same (s.window s.windowLen) start s).2
    rw [hmem]
  | synth k =>
    refine storeObuf_frame s _ a fun hobuf => ?_
    have hbase : 0x200000 ≤ a := hobuf.1
    omega
  | rsenc =>
    have hl := hlengths (by simp [NeedsConfig])
    refine storeBytes_win ha (.inr (.inl rfl)) ?_
    rw [rsEncode_length, values_length, ← hl.codeword]
    exact hl.codewordFits
  | rsdec =>
    have hl := hlengths (by simp [NeedsConfig])
    refine rsdecFinish_win ha fun m e n hres => ?_
    have hm := rsDecode_message_length hres
    have hpay := hl.payload
    omega
  | ilv =>
    refine storeCodeword_win ha ?_ ?_ <;> rw [applyPerm_length] <;> exact permList_length_le s
  | dilv =>
    have hl := hlengths (by simp [NeedsConfig])
    refine storeCodeword_win ha ?_ ?_ <;> rw [unapplyPerm_length, values_length] <;> exact hl.codewordFits

end Win

/-- Settles O56: no command writes an argument register, a rejected one stores nothing, and no effect stores into WIN. -/
theorem commandsNeverWriteWinOrArguments : Obligations.CommandsNeverWriteWinOrArguments := by
  refine fun i s t hinv ht => ⟨(exec_cfg_arg ht).2, fun a ha ha' => ?_⟩
  rcases exec_next ht with ⟨c, -, rfl⟩ | ⟨hpass, rfl⟩
  · have hmem : (rejected i c s).mem = s.mem := by
      unfold rejected
      split <;> rfl
    rw [hmem]
  · exact effect_win ha ha' hinv hpass

end Sys2Proof.Machine
end

section
/-! PROOFS. A payload is exposed only by a successful decode (rule R305). -/

namespace Sys2Proof.Machine

/-- Without a payload RXPAY reads 0 (rule R43). -/
theorem readElem_rxpay_hidden {s : State} (h : s.ses.payloadValid = false) (i : Nat) (a : Addr) :
    s.readElem .rxpay i a = 0 := by
  rcases Nat.lt_or_ge i 255 with hi | hi
  · rw [readElem_rxpay a hi, if_neg (by simp [h])]
  · exact readElem_beyond a hi

/-- The session shows a successful decode: message_complete, COMPLETE and SES_DECODE.OK (rules R40, R303). -/
structure ShowsSuccess (u : Session) : Prop where
  engine : u.engine = .complete
  status : u.feedStatus = .messageComplete
  ok : u.decode.getLsbD 16 = true

/-- OK is bit 16 of a decode word (rule R40). -/
theorem word_success_ok (m : List Byte) (e n : Nat) : (RsResult.success m e n).word.getLsbD 16 = true := by
  simp only [RsResult.word, BitVec.getLsbD_append]
  simp

/-- PAYLOAD_VALID rises in a session that shows a successful decode, if at all. -/
def PayloadRisesOnSuccess (u v : Session) : Prop := u.payloadValid = false → v.payloadValid = true → ShowsSuccess v

theorem PayloadRisesOnSuccess.of_imp {u v : Session} (h : v.payloadValid = true → u.payloadValid = true) :
    PayloadRisesOnSuccess u v := fun hu hv => absurd ((h hv).symm.trans hu) (by decide)

theorem payloadRises_feedBody (y : Symbol) (s : State) : PayloadRisesOnSuccess s.ses (feedBody y s).ses := by
  rcases feedBody_cases y s with ⟨-, e⟩ | ⟨-, e⟩ <;> rw [e]
  · exact .of_imp id
  · cases feedDecode (feedAccumulate y s) with
    | success m errs n => exact fun _ _ => ⟨rfl, rfl, word_success_ok m errs n⟩
    | failure n => exact .of_imp id

theorem payloadRises_feedIdle (ma mb : Bool) (start : Word) (s : State) :
    PayloadRisesOnSuccess s.ses (feedIdle ma mb start s).ses := by
  unfold feedIdle
  rcases triggerStep_cases ma mb start s.ses with ⟨-, -, e⟩ | ⟨-, -, e⟩ | ⟨-, -, e⟩ <;> rw [e]
  · exact .of_imp id
  · exact .of_imp id
  · exact .of_imp fun h => absurd h Bool.false_ne_true

/-- The end of a FEED moves no field that shows a decode. -/
theorem PayloadRisesOnSuccess.feedDone {u : Session} {t : State} (h : PayloadRisesOnSuccess u t.ses) (o : Word) :
    PayloadRisesOnSuccess u (t.feedDone o).ses := by
  intro hu hv
  obtain ⟨he, hf, hok⟩ := h hu hv
  exact ⟨he, hf, hok⟩

/-- Consuming a result keeps PAYLOAD_VALID: the payload stays readable (rules R302, R305). -/
theorem Session.consumed_payloadValid (u : Session) : u.consumed.payloadValid = u.payloadValid := by
  rcases Session.consumed_cases u with ⟨-, e⟩ | ⟨-, e⟩ <;> rw [e]

theorem payloadRises_feedWindow (f : Bool) (x : List F64) (s : State) :
    PayloadRisesOnSuccess s.ses (feedWindow f x s).ses := by
  by_cases ht : s.ses.engine = .triggered
  · rw [feedWindow_of_triggered f x ht]
    exact (payloadRises_feedBody _ s).feedDone _
  · rw [feedWindow_of_not_triggered f x ht]
    refine PayloadRisesOnSuccess.feedDone (fun hu => ?_) _
    exact payloadRises_feedIdle _ _ _ { s with ses := s.ses.consumed } ((Session.consumed_payloadValid _).trans hu)

/-- Of the commands that write the session SRESET and CONFIG clear PAYLOAD_VALID, and FEED sets it on success. -/
theorem payloadRises_exec {i : Instr} {s t : State} (ht : exec i s = .next t) : PayloadRisesOnSuccess s.ses t.ses := by
  by_cases hi : SessionNeutral i
  · rw [exec_ses hi ht]
    exact .of_imp id
  have hcleared {u : Session} : PayloadRisesOnSuccess u Session.initial := .of_imp fun h => absurd h Bool.false_ne_true
  rcases exec_next ht with ⟨c, -, rfl⟩ | ⟨-, rfl⟩
  · unfold rejected
    split
    · exact hcleared
    · exact .of_imp id
  · rcases not_sessionNeutral_iff.1 hi with rfl | rfl | ⟨f, rfl⟩
    · exact hcleared
    · exact hcleared
    · exact payloadRises_feedWindow f _ s

theorem payloadRises_perform {s t : State} {a : BusAccess} (ht : perform s a = .next t) :
    PayloadRisesOnSuccess s.ses t.ses := by
  by_cases hs : t.ses = s.ses
  · rw [hs]
    exact .of_imp id
  rcases perform_changes_ses ht hs with rfl | ⟨v, i, -, -, -, he⟩
  · cases ht
    exact .of_imp fun h => absurd h Bool.false_ne_true
  · exact payloadRises_exec (s := s.advanceFree.writeReg v .cmd) he

/-- Settles O57: RXPAY is hidden without a payload, only FEED's successful decode makes one valid, and the invariant says
that a failed or a triggered engine has none. -/
theorem payloadIsExposedOnlyByASuccessfulDecode : Obligations.PayloadIsExposedOnlyByASuccessfulDecode := by
  refine ⟨fun s i a h => readElem_rxpay_hidden h i a, fun s t ht hs hp => ?_, fun s t hinv ht he => ?_⟩
  · have hrises : PayloadRisesOnSuccess s.ses t.ses := by
      rcases step_cases s with ⟨-, e⟩ | ⟨access, rest, -, ⟨-, e⟩ | ⟨a, -, e⟩⟩ <;> rw [e] at ht
      · cases ht
        exact .of_imp id
      · cases ht
        exact .of_imp id
      · exact payloadRises_perform (s := { s with hostQueue := rest }) ht
    obtain ⟨hengine, hstatus, hok⟩ := hrises hs hp
    exact ⟨hengine, hstatus, hok⟩
  · exact (stepKeepsTheInvariant s t hinv ht).1.session.noPayload he.symm

end Sys2Proof.Machine
end

section
/-! PROOFS. The state after reset: it meets the invariant, and every register reads its reset value (rules R360, R361,
R364). -/

namespace Sys2Proof.Machine

/-- Settles O59: nothing is stored, nothing is configured, and the session is initial. -/
theorem resetMeetsTheInvariant : Obligations.ResetMeetsTheInvariant where
  storage := by
    refine ⟨Memory.wf_nil, fun c hc => ?_, fun _ _ _ _ => rfl, fun _ _ _ _ => rfl, fun _ _ _ hb => ?_⟩
    · exact absurd hc List.not_mem_nil
    · exact absurd hb (by simp [State.byteElem, State.reset])
  config := ⟨by decide, fun hv => absurd hv Bool.false_ne_true, fun _ => ⟨rfl, rfl⟩⟩
  session := .of_initial rfl

/-- With no bit pending irq is low (rule R341). -/
theorem irq_of_none_pending {s : State} (h : s.irqPend = 0) : s.irq = false := by
  simp [State.irq, h]

/-- STATUS is 0 after reset: every field is at its code 0 (rules R33, R361). -/
theorem statusWord_hardReset (s : State) : s.hardReset.statusWord = 0 := by
  have hreset : s.hardReset.statusWord = State.reset.statusWord := rfl
  rw [hreset]
  decide

/-- CONFIG right after reset fails its first check: CFG_SAMPLE_RATE is 0 (rule R146). -/
theorem validateCode_reset : validateCode State.reset.params State.reset.cfg = 1 := if_pos (by decide)

/-- Settles O60: each register of the state after a hardware reset, and of the state after reset, reads a fixed word. -/
theorem resetValuesOfEveryRegister : Obligations.ResetValuesOfEveryRegister := by
  refine ⟨fun s => ⟨s.hardReset, rfl, rfl, irq_of_none_pending rfl, rfl, fun r => ?_⟩, rfl, irq_of_none_pending rfl,
    fun r => ?_, ?_⟩
  · cases r with
    | status => exact statusWord_hardReset s
    | _ => rfl
  · cases r <;> rfl
  · have hfail := exec_config_invalid (s := State.reset) (by rw [validateCode_reset]; decide)
    rw [validateCode_reset] at hfail
    exact ⟨_, hfail, rfl, by decide⟩

end Sys2Proof.Machine
end
